-- ==== Sys2Proof/Word.lean ====
section
/-! DEFINITION. The word types of the engine (spec/30_encoding.md R80 to R88). State words, tap vectors, metrics and
lengths are natural numbers (R13: "All arithmetic is on unbounded naturals", R207), since their widths K and K+1 are set
at run time; words on the command port are integers (R81, D15: "A model uses the integers"). -/

namespace Sys2Proof

/-- R88: "A byte is 8 bits, value 0 to 255." -/
abbrev Byte := BitVec 8

/-- R88: "A bit is one of 0 and 1"; no third value exists, by type. -/
abbrev Bit := Bool

end Sys2Proof
end

