-- ==== Sys2Proof/Config.lean ====
section
/-! DEFINITION. What an implementation fixes: capacities (R9), metric width (R10), the tie-break parameter (U1),
and the reset values the spec leaves unspecified (R40, U7). -/

namespace Sys2Proof

/-- The parameters of one implementation, fixed for its life. `none` is "unbounded" (R9: "each defaulting to
unbounded"). DESIGN CHOICE (log 1): they are carried in the state, where no step writes them. -/
structure Params where
  /-- `N_MAX`, the largest n (R9). -/
  nMax : Option Nat
  /-- `K_MAX`, the largest K; a generator port word then has K_MAX + 2 bits with its sign (R9, R81). -/
  kMax : Option Nat
  /-- `B_MAX`, the largest count of input bytes of one ENC.ENCODE (R9). -/
  bMax : Option Nat
  /-- `R_MAX`, the largest count of received bits of one VIT.DECODE (R9). -/
  rMax : Option Nat
  /-- `METRIC_W`, the width of a metric register; `none` is the unbounded natural of the spec (R10). -/
  metricW : Option Nat
  /-- U1: the tie-break of the merge as a Boolean "later wins"; `false` is decision D10 (R168). -/
  laterWins : Bool
deriving DecidableEq, Repr

/-- The defaults of R9 and of U1: everything unbounded, the earlier-created candidate wins. -/
def Params.standard : Params :=
  { nMax := none, kMax := none, bMax := none, rMax := none, metricW := none, laterWins := false }

/-- `N` after power-on reset: unspecified (R40). DESIGN CHOICE (log 3): an uninterpreted value (U7: "any value"). -/
opaque Config.resetN : Nat

/-- `KREG` after power-on reset: unspecified (R40). DESIGN CHOICE (log 3): an uninterpreted value. -/
opaque Config.resetK : Nat

/-- `T[]` after power-on reset: unspecified (R40). DESIGN CHOICE (log 3): an uninterpreted value. -/
opaque Config.resetTaps : List Nat

end Sys2Proof
end

