-- ==== Sys2Proof/Syntax.lean ====
section
/-! DEFINITION. The operations of spec/opcode_table.json, one constructor per row: the four host operations
(format H) and the thirteen micro-operations (format M) of R93. -/

namespace Sys2Proof

/-- The operations. An operand stands in the constructor as the operation's own rule lists it under
"Operands"; an operation whose rule lists none has none. -/
inductive Instr where
  /-- CFG.BUILD gens (R110): any integers, also the illegal ones that R111 rejects. -/
  | cfgBuild (gens : List Int)
  /-- TRB.BUILD (R145). -/
  | trbBuild
  /-- ENC.ENCODE inputBytes (R125). -/
  | encEncode (inputBytes : List Byte)
  /-- VIT.DECODE receivedBits (R160). -/
  | vitDecode (receivedBits : List Bit)
  /-- ENC.LOAD inputBytes (R126). -/
  | encLoad (inputBytes : List Byte)
  /-- ENC.STEP (R127). -/
  | encStep
  /-- ENC.RET (R131). -/
  | encRet
  /-- TRB.ENTRY (s, d) (R146). -/
  | trbEntry (st : Nat) (d : Bit)
  /-- VIT.FRAME receivedBits (R161). -/
  | vitFrame (receivedBits : List Bit)
  /-- VIT.INIT (R162). -/
  | vitInit
  /-- VIT.BRANCH (R163). -/
  | vitBranch
  /-- VIT.MERGE (R167). -/
  | vitMerge
  /-- VIT.TERM (R174). -/
  | vitTerm
  /-- VIT.TRACE (R177). -/
  | vitTrace
  /-- VIT.STRIP (R179). -/
  | vitStrip
  /-- VIT.PACK (R180). -/
  | vitPack
  /-- VIT.RET (R181). -/
  | vitRet
deriving DecidableEq, Repr

/-- R16: a host operation is one of the four commands the host can issue. -/
def Instr.isHost : Instr → Bool
  | .cfgBuild _ | .trbBuild | .encEncode _ | .vitDecode _ => true
  | .encLoad _ | .encStep | .encRet | .trbEntry _ _ => false
  | .vitFrame _ | .vitInit | .vitBranch | .vitMerge | .vitTerm => false
  | .vitTrace | .vitStrip | .vitPack | .vitRet => false

/-- Why a sequence of port words is not a command. -/
inductive DecodeError where
  /-- No word is present. -/
  | noWords
  /-- The code word is none of the codes of R93 (R96, U10). -/
  | reservedCode (code : Int)
  /-- A count is negative. -/
  | negativeCount (count : Int)
  /-- The operand stream is not yet whole (R262: "The whole frame first"). -/
  | operandsMissing
  /-- An item is outside its type: a byte outside 0 to 255, a bit other than 0 and 1 (R88), a negative state. -/
  | itemOutOfType (item : Int)
  /-- The host presented a micro-operation, which "the host cannot issue by itself" (R16). -/
  | notAHostOperation (code : Int)
deriving DecidableEq, Repr

end Sys2Proof
end

