-- ==== Sys2Proof/Machine/State.lean ====
section
/-! DEFINITION. The architectural state of the engine as plain data (spec/10_state.md), the reasons a step can stop,
and the state after power-on reset. -/

namespace Sys2Proof.Machine

/-- R86: a transition-table entry, the output group and the next state. -/
structure TTEntry where
  /-- The n output bits in generator order (R85). -/
  out : List Bit
  /-- The register contents after the step. -/
  next : Nat
deriving DecidableEq, Repr

/-- R50 (a), R51: the transition-table memory, keyed by the linear address 2s+d (D7). One canonical form: addresses
strictly rising. An address not listed has no value, so no entry equals what an unlisted address reads as (log 4). -/
abbrev Memory := List (Nat × TTEntry)

/-- R32, R87: a trail, the visited states (first item 0) and the accumulated metric. -/
structure Trail where
  path : List Nat
  metric : Nat
deriving DecidableEq, Repr

/-- R94: the status codes. -/
inductive Status where
  | ok
  | invalidGenerator
  | invalidLength
  | noValidPath
deriving DecidableEq, Repr

/-- R30: the units of the sequencer. -/
inductive UnitId where
  | idle | cfg | trb | enc | vit
deriving DecidableEq, Repr

/-- R30, R93: the sequencer `SEQ = (unit, phase, index)`, one constructor per phase, with the index that phase has:
`UI` for ENC, the pair (s, d) for TRB.ENTRY, `TI` for VIT.BRANCH and VIT.MERGE. Phase codes outside R93 do not
exist (U10). -/
inductive Seq where
  /-- (IDLE, -, -): no host operation is running. -/
  | idle
  /-- (CFG, BUILD, -). -/
  | cfgBuild
  /-- (TRB, ENTRY, (s, d)). -/
  | trbEntry (st : Nat) (d : Bit)
  /-- (ENC, LOAD, -). -/
  | encLoad
  /-- (ENC, STEP, UI). -/
  | encStep (ui : Nat)
  /-- (ENC, RET, UI). -/
  | encRet (ui : Nat)
  /-- (VIT, FRAME, -). -/
  | vitFrame
  /-- (VIT, INIT, 0). -/
  | vitInit
  /-- (VIT, BRANCH, TI). -/
  | vitBranch (ti : Nat)
  /-- (VIT, MERGE, TI). -/
  | vitMerge (ti : Nat)
  /-- (VIT, TERM, TI). -/
  | vitTerm (ti : Nat)
  /-- (VIT, TRACE, 0). -/
  | vitTrace
  /-- (VIT, STRIP, 0). -/
  | vitStrip
  /-- (VIT, PACK, 0). -/
  | vitPack
  /-- (VIT, RET, 0). -/
  | vitRet
deriving DecidableEq, Repr

/-- R25, R27: the call-scoped state of one ENC.ENCODE. -/
structure EncCall where
  /-- `SR`, the shift register, K bits, most recent first. -/
  sr : List Bit
  /-- `U`, the input bits and the K flush bits. -/
  u : List Bit
  /-- `UI`, the index of the next bit of `U`. -/
  ui : Nat
  /-- `CODE`, the output bits so far. -/
  code : List Bit
deriving DecidableEq, Repr

/-- R31 to R36: the call-scoped state of one VIT.DECODE. The last four are "unspecified until their micro-operation
writes them" (R40), which `none` says (U7, log 6). -/
structure VitCall where
  /-- `RX`, the received bits. -/
  rx : List Bit
  /-- `L`, the number of symbols. -/
  l : Nat
  /-- `TI`, the index of the next symbol. -/
  ti : Nat
  /-- `LIVE`, the survivor set in its fixed order (R33, R169). -/
  live : List Trail
  /-- `CAND`, the candidates of the current symbol (R34). -/
  cand : List Trail
  /-- `WIN`, the winning trail. -/
  win : Option Trail
  /-- `DBITS`, the decoded bits. -/
  dbits : Option (List Bit)
  /-- `BYTES`, the decoded bytes. -/
  bytes : Option (List Byte)
  /-- `METRIC`, the winner's metric. -/
  metric : Option Nat
deriving DecidableEq, Repr

/-- The operand on the ports `gen[]`, `bytes_in[]` or `bits_in[]` while its operation runs (R37, D2). -/
inductive Operand where
  | absent
  | gens (gens : List Int)
  | bytes (inputBytes : List Byte)
  | bits (receivedBits : List Bit)
deriving DecidableEq, Repr

/-- The result ports `bits_out[]`, `bytes_out[]` and `metric_out` (R131, R181, D2). A sum type, so that a port which
holds no defined value cannot be read (U9, log 16). -/
inductive Result where
  /-- No result: no operation has ended, or the last one ended in an error or produces none. -/
  | nothing
  /-- ENC.ENCODE's code bit sequence. -/
  | code (bits : List Bit)
  /-- VIT.DECODE's bytes and `totalMetric`. -/
  | decoded (bytes : List Byte) (totalMetric : Nat)
deriving DecidableEq, Repr

/-- The reasons the model stops in a state of the engine that no run from reset reaches: a micro-operation run outside
its operation. The spec gives these reads no meaning (R40: "a model must not let any rule read the value"; U7: "a read
before the first write a model `fault`"). All are safe: nothing is claimed of what follows. -/
inductive Fault where
  /-- ENC.STEP, ENC.RET or a VIT micro-operation found no call-scoped state (R20, R253). Safe. -/
  | noCallState
  /-- ENC.LOAD, VIT.FRAME or CFG.BUILD was sequenced with no such operand on the ports (R37). Safe. -/
  | operandAbsent
  /-- ENC.STEP with no bit of `U` left (R127), or VIT.BRANCH with no whole symbol left (R31). Safe. -/
  | streamExhausted
  /-- A transition-table entry was read that nothing has written (U7), by VIT.BRANCH or VIT.TRACE. Safe. -/
  | tableEntryUnwritten
  /-- A state outside [0, 2^K), for which the table has no address (R51), by TRB.ENTRY, VIT.BRANCH or VIT.TRACE. Safe. -/
  | noSuchState
  /-- VIT.BRANCH or VIT.TRACE found a trail with fewer states than R32 gives it. Safe. -/
  | trailTooShort
  /-- VIT.TRACE found a pair of states that is no edge of the table ("A d always exists", R177). Safe. -/
  | noHypothesis
  /-- VIT.TRACE, VIT.STRIP, VIT.PACK or VIT.RET read `WIN`, `DBITS`, `BYTES` or `METRIC` before its micro-operation wrote
  it (R40). Safe. -/
  | itemUnwritten
deriving DecidableEq, Repr

/-- The reasons the model gives a request no step: requests the spec says have no meaning. All are safe
(R234: "errs toward unprovable"). -/
inductive Refusal where
  /-- An instruction with no meaning yet, by its mnemonic in the opcode table; raised by `exec` alone. Safe. -/
  | notModelled (mnemonic : String)
  /-- A host operation issued while another runs (R231, R261, R266 (c), U5), by the four host operations. Safe. -/
  | engineBusy
  /-- ENC.ENCODE, TRB.BUILD or VIT.DECODE with `CFG_VALID = 0` (R233, R234, U4). Safe. -/
  | notConfigured
  /-- VIT.DECODE with `TT_VALID = 0` (R233, R234, U4). Safe. -/
  | tableNotValid
  /-- An operand beyond a finite capacity (R9, R234, U6), by CFG.BUILD, ENC.ENCODE and VIT.DECODE. Safe. -/
  | overCapacity
  /-- VIT.DECODE on an implementation whose metric register is too narrow (R10, U11). Safe. -/
  | metricTooNarrow
  /-- A micro-operation offered as a host operation (R16, R266); raised by starting an operation. Safe. -/
  | notAHostOperation
  /-- The words to be decoded are no command (R88, R96), by `step` and `microStep`. Safe. -/
  | badCommand (reason : DecodeError)
deriving DecidableEq, Repr

/-- Everything the spec gives the engine. -/
structure State where
  /-- The implementation's fixed parameters (R9, R10, U1); no step writes them (log 1). -/
  params : Params
  /-- `N` (R21). -/
  n : Nat
  /-- `KREG` (R22). -/
  kreg : Nat
  /-- `T[0]` to `T[n-1]` (R23). -/
  taps : List Nat
  /-- `CFG_VALID` (R24). -/
  cfgValid : Bool
  /-- `TT` (R28). -/
  tt : Memory
  /-- `TT_VALID` (R28). -/
  ttValid : Bool
  /-- `STATUS` (R29). -/
  status : Status
  /-- `SEQ` (R30). -/
  seq : Seq
  /-- `SR`, `U`, `UI`, `CODE` while an ENC.ENCODE runs (R20, R25, R27). -/
  enc : Option EncCall
  /-- `RX`, `L`, `TI`, `LIVE`, `CAND`, `WIN`, `DBITS`, `BYTES`, `METRIC` while a VIT.DECODE runs (R20, R31 to R36). -/
  vit : Option VitCall
  /-- The running operation's operand (R37). -/
  operand : Operand
  /-- The result ports (R131, R181). -/
  result : Result
  /-- The words of the commands the host has issued and the engine has not yet taken (R93, R266; log 7). -/
  hostIn : List Int
deriving DecidableEq, Repr

/-- R250, R40: power-on reset. `CFG_VALID = 0`, `TT_VALID = 0`, `STATUS = OK`, `SEQ = (IDLE, -, -)`, all else
unspecified: uninterpreted values for the registers (log 3), no entry of `TT` (log 4), no call-scoped state (log 5). -/
def State.reset : State :=
  { params := Params.standard
    n := Config.resetN
    kreg := Config.resetK
    taps := Config.resetTaps
    cfgValid := false
    tt := []
    ttValid := false
    status := .ok
    seq := .idle
    enc := none
    vit := none
    operand := .absent
    result := .nothing
    hostIn := [] }

end Sys2Proof.Machine
end

