-- ==== Sys2Proof/Machine/Operands.lean ====
section
/-! DEFINITION. The data formats and operand assembly of spec/30_encoding.md, and the combinational functions the
units share: bit lengths, taps, window, next state, parity, Hamming distance, byte and bit order. -/

namespace Sys2Proof.Machine

/-- R12, R213: the position of the highest set bit plus one. -/
def bitlen (v : Nat) : Nat := if v = 0 then 0 else v.log2 + 1

/-- R13: the number of set bits. -/
def popcount (v : Nat) : Nat := (List.range (bitlen v)).countP fun j => v.testBit j

/-- R13: `popcount(v) mod 2`. -/
def parity (v : Nat) : Nat := popcount v % 2

/-- R208: the sum modulo 2 of a sequence of bits. -/
def xorSum (bits : List Bit) : Bit := bits.foldr Bool.xor false

/-- R89, R112: `K = (max bit-length over generators) - 1`. -/
def constraintLength (gens : List Int) : Nat :=
  (gens.map fun g => bitlen g.toNat).foldr max 0 - 1

/-- R82, R113: `T[i] = zext_(K+1)(g_i)`. The value is the generator's own, read as K+1 bits. -/
def tapVectors (gens : List Int) : List Nat := gens.map Int.toNat

/-- R26, R92: `state(SR) = sum over j of SR[j] * 2^j`. -/
def regState : List Bit → Nat
  | [] => 0
  | b :: sr => b.toNat + 2 * regState sr

/-- R92: `SR[j] = s[j]`. -/
def stateReg (k : Nat) (st : Nat) : List Bit := (List.range k).map fun j => st.testBit j

/-- R83, R51: the states are [0, 2^K). State 0 is a state whatever K is (R64). -/
def isState (k : Nat) (st : Nat) : Bool := st == 0 || decide (st < 2 ^ k)

/-- R84: the window word `(s << 1) | d`; also the linear table address `2*s + d` (R51, D7). -/
def window (st : Nat) (d : Bit) : Nat := 2 * st + d.toNat

/-- R92, R147: `next(s, d) = w(s, d) mod 2^K`, "prepend d, drop oldest bit of s". -/
def nextState (k : Nat) (st : Nat) (d : Bit) : Nat := window st d % 2 ^ k

/-- R128, the taps: the parity of (inputBit AND delay-0 tap) and, for each register cell j, (register[j] AND
delay-(j+1) tap), the register given as its state word. -/
def outbit (k : Nat) (tap : Nat) (st : Nat) (d : Bit) : Bit :=
  Bool.xor (d && tap.testBit 0) (xorSum ((List.range k).map fun j => st.testBit j && tap.testBit (j + 1)))

/-- R85, R129, R148: the output group of one step, one bit per generator, in generator order. `T[]` holds one word
per generator (R23). -/
def outputGroup (k : Nat) (taps : List Nat) (st : Nat) (d : Bit) : List Bit :=
  taps.map fun tap => outbit k tap st d

/-- R146: the entry of the transition table for (s, d), a function of the configuration (R151). -/
def tableEntry (k : Nat) (taps : List Nat) (st : Nat) (d : Bit) : TTEntry :=
  { out := outputGroup k taps st d, next := nextState k st d }

/-- R130: "prepend the input bit, drop the oldest". -/
def shiftIn (sr : List Bit) (d : Bit) : List Bit := (d :: sr).dropLast

/-- R54: a byte's bits, most significant first. -/
def unpackByte (b : Byte) : List Bit :=
  [b.getLsbD 7, b.getLsbD 6, b.getLsbD 5, b.getLsbD 4, b.getLsbD 3, b.getLsbD 2, b.getLsbD 1, b.getLsbD 0]

/-- R54: bytes to bits, bytes in sequence order. -/
def unpack (bytes : List Byte) : List Bit := bytes.flatMap unpackByte

/-- R90: the encoder's input bits, the unpacked bytes and K zero flush bits. -/
def inputBits (k : Nat) (inputBytes : List Byte) : List Bit :=
  unpack inputBytes ++ List.replicate k false

/-- R55: `sum over i = 0..7 of DBITS[8*q + i] * 2^(7 - i)` for one group of eight. -/
def packByte (bits : List Bit) : Byte :=
  BitVec.ofNat 8 (bits.foldl (fun acc b => 2 * acc + b.toNat) 0)

/-- R55: bits to bytes, 8 bits per byte, most significant first. A last group of fewer than eight bits gives no
byte; R180 rejects such a length before. -/
def pack : List Bit → List Byte
  | a :: b :: c :: d :: e :: f :: g :: h :: rest => packByte [a, b, c, d, e, f, g, h] :: pack rest
  | _ => []

/-- R14, R164, R209: the count of differing bit positions of two sequences of equal length. -/
def hamming : List Bit → List Bit → Nat
  | a :: as, b :: bs => (Bool.xor a b).toNat + hamming as bs
  | _, _ => 0

/-- R31, R91: symbol t, `RX[t*n .. (t+1)*n)`, if `RX` holds it whole. -/
def symbolAt (n : Nat) (rx : List Bit) (t : Nat) : Option (List Bit) :=
  let y := (rx.drop (t * n)).take n
  if y.length = n then some y else none

/-- R32: a trail's current state, `last(path)`. -/
def Trail.current (tr : Trail) : Option Nat := tr.path.getLast?

/-- R162: "one live Trail at state 0, metric 0". -/
def Trail.initial : Trail := { path := [0], metric := 0 }

/-- R85: a group packed into an n-bit word, `o_0` the most significant bit (D8). The machine does not use it. -/
def packGroup (bits : List Bit) : Nat := bits.foldl (fun acc b => 2 * acc + b.toNat) 0

/-- R86: a table entry packed into n + K bits, `out` high and `next` low (D8). The machine does not use it. -/
def packEntry (k : Nat) (e : TTEntry) : Nat := packGroup e.out * 2 ^ k + e.next

/-- R145: the enumeration of the table, s ascending, d = 0 before d = 1 (D9). -/
def tablePairs (k : Nat) : List (Nat × Bit) :=
  (List.range (2 ^ k)).flatMap fun st => [(st, false), (st, true)]

/-- R146: the pair after (s, d) in the enumeration. -/
def pairAfter (st : Nat) (d : Bit) : Nat × Bit := if d then (st + 1, false) else (st, true)

/-- R33, R35: the live trail at state s, if there is one. -/
def VitCall.liveAt (c : VitCall) (st : Nat) : Option Trail := c.live.find? fun tr => tr.current == some st

/-- R35: the path-metric accumulator `PM[s]`, the metric of the live trail at s. -/
def VitCall.pm (c : VitCall) (st : Nat) : Option Nat := (c.liveAt st).map Trail.metric

/-- R35: the survivor-path store `SP[s]`, the path of the live trail at s. -/
def VitCall.sp (c : VitCall) (st : Nat) : Option (List Nat) := (c.liveAt st).map Trail.path

end Sys2Proof.Machine
end

