-- ==== Sys2Proof/Machine/Flags.lean ====
section
/-! DEFINITION. The flags a host can observe: `CFG_VALID`, `TT_VALID` and `STATUS` (R38). "No operation writes a flag
as a side effect other than these." -/

namespace Sys2Proof.Machine

/-- R94: the numbers of the status codes (D5). -/
def Status.code : Status → BitVec 2
  | .ok => 0b00#2
  | .invalidGenerator => 0b01#2
  | .invalidLength => 0b10#2
  | .noValidPath => 0b11#2

/-- R96: "All four values of `op` and all four values of `STATUS` are used." -/
def Status.ofCode (c : BitVec 2) : Status :=
  if c = 0b00#2 then .ok
  else if c = 0b01#2 then .invalidGenerator
  else if c = 0b10#2 then .invalidLength
  else .noValidPath

/-- R24, R117: the flags after a successful CFG.BUILD: a configuration exists and the table is not its. -/
def State.flagConfigured (s : State) : State := { s with cfgValid := true, ttValid := false }

/-- R28, R145: the flag after TRB.BUILD: the table is that of the configuration. -/
def State.flagTableBuilt (s : State) : State := { s with ttValid := true }

/-- R30: the unit of a sequencer value. -/
def Seq.unit : Seq → UnitId
  | .idle => .idle
  | .cfgBuild => .cfg
  | .trbEntry _ _ => .trb
  | .encLoad | .encStep _ | .encRet _ => .enc
  | .vitFrame | .vitInit | .vitBranch _ | .vitMerge _ | .vitTerm _ => .vit
  | .vitTrace | .vitStrip | .vitPack | .vitRet => .vit

/-- R266 (a), D2: what the host can read while the engine is IDLE. -/
structure HostView where
  status : Status
  cfgValid : Bool
  ttValid : Bool
  n : Nat
  k : Nat
  /-- The result ports, which hold something only after an operation that ended OK and produces it (U9). -/
  result : Result
deriving DecidableEq, Repr

/-- R266 (a): the host's view of the engine, at any time it is IDLE. -/
def State.hostView (s : State) : Option HostView :=
  if s.seq = .idle then
    some { status := s.status, cfgValid := s.cfgValid, ttValid := s.ttValid, n := s.n, k := s.kreg, result := s.result }
  else none

end Sys2Proof.Machine
end

