-- ==== Sys2Proof/WellFormed.lean ====
section
/-! DEFINITION. When an operation's operand is within an implementation's capacities (R9, R81, U6). With the
capacities unbounded every operation is well-formed (R9). The types of `Instr` exclude what R88 excludes. -/

namespace Sys2Proof

/-- A count within a capacity; `none` is unbounded (R9). -/
def within (cap : Option Nat) (v : Nat) : Bool :=
  match cap with
  | none => true
  | some m => decide (v ≤ m)

/-- R81, D15: a generator word on a port of an implementation with capacity `K_MAX` is a two's-complement
integer of K_MAX + 2 bits. -/
def fitsGeneratorPort (kMax : Option Nat) (g : Int) : Bool :=
  match kMax with
  | none => true
  | some k => decide (-(2 ^ (k + 1) : Int) ≤ g) && decide (g < (2 ^ (k + 1) : Int))

/-- A state word is below 2^K for some K the implementation admits (R83, R9). -/
def fitsStatePort (kMax : Option Nat) (st : Nat) : Bool :=
  match kMax with
  | none => true
  | some k => decide (st < 2 ^ k)

/-- The operand is within the capacities. -/
def Instr.wf (p : Params) : Instr → Bool
  | .cfgBuild gens => within p.nMax gens.length && gens.all (fitsGeneratorPort p.kMax)
  | .encEncode inputBytes => within p.bMax inputBytes.length
  | .vitDecode receivedBits => within p.rMax receivedBits.length
  | .encLoad inputBytes => within p.bMax inputBytes.length
  | .trbEntry st _ => fitsStatePort p.kMax st
  | .vitFrame receivedBits => within p.rMax receivedBits.length
  | .trbBuild | .encStep | .encRet => true
  | .vitInit | .vitBranch | .vitMerge | .vitTerm | .vitTrace | .vitStrip | .vitPack | .vitRet => true

/-- R10: a METRIC_W-bit metric register is wide enough when n * floor(R_MAX / n) < 2^METRIC_W; with an unbounded
frame no finite width is, and an unbounded metric always is. -/
def Params.metricFits (p : Params) (n : Nat) : Bool :=
  match p.metricW with
  | none => true
  | some w =>
    match p.rMax with
    | none => false
    | some r => decide (n * (r / n) < 2 ^ w)

end Sys2Proof
end

