-- ==== Sys2Proof/Machine/Ops.lean ====
section
/-! DEFINITION. The operations the units share: the transition-table memory, raising an error, ending an operation,
starting one, and running one micro-operation after another. -/

namespace Sys2Proof.Machine

/-- The three outcomes of a step of this machine. -/
abbrev Out := Host.Outcome State Fault Refusal

/-! The transition-table memory (R50 (a), R51). -/

/-- The entry at a linear address; an address nothing has written has none (log 4). -/
def Memory.read : Memory → Nat → Option TTEntry
  | [], _ => none
  | (a, e) :: m, x => if a = x then some e else Memory.read m x

/-- Write one entry, keeping the addresses strictly rising. -/
def Memory.write : Memory → Nat → TTEntry → Memory
  | [], x, v => [(x, v)]
  | (a, e) :: m, x, v =>
    if x < a then (x, v) :: (a, e) :: m
    else if x = a then (x, v) :: m
    else (a, e) :: Memory.write m x v

/-- The canonical form: addresses strictly rising. -/
def Memory.wf : Memory → Bool
  | [] => true
  | [_] => true
  | (a, _) :: (b, e) :: m => decide (a < b) && Memory.wf ((b, e) :: m)

/-- R62: read the entry of (s, d) whole. A state outside [0, 2^K) has no address (R51); an entry never written has no
value (U7). -/
def State.readTable (s : State) (st : Nat) (d : Bit) : Except Fault TTEntry :=
  if isState s.kreg st then
    match Memory.read s.tt (window st d) with
    | some e => .ok e
    | none => .error .tableEntryUnwritten
  else .error .noSuchState

/-- R146: write the entry of (s, d). -/
def State.writeTable (s : State) (st : Nat) (d : Bit) (e : TTEntry) : State :=
  { s with tt := Memory.write s.tt (window st d) e }

/-! Ending an operation. -/

/-- R253, R267: the end of an operation, by result or by error: all call-scoped state is discarded, `STATUS` is
written, `SEQ` is (IDLE, -, -), and the result ports hold the operation's result, if it has one. -/
def State.endOperation (s : State) (status : Status) (result : Result) : State :=
  { s with status := status, seq := .idle, enc := none, vit := none, operand := .absent, result := result }

/-- R224, `raise E`: the one way an error is taken. The operation stops, there is no result, call-scoped state is
discarded, `STATUS <- E`, `SEQ <- (IDLE, -, -)`, and persistent state other than `STATUS` is left as it was. No pc or
status is saved and there is no return from an error (R225). -/
def raise (e : Status) (s : State) : Out := .next (s.endOperation e .nothing)

/-- The end of an operation that completes: `STATUS <- OK` and its result (R131, R145, R181). -/
def complete (result : Result) (s : State) : Out := .next (s.endOperation .ok result)

/-! Running micro-operations one after another. -/

/-- Go on to the next part of an operation, unless a raise has ended it (R224: "the operation stops at that point"). -/
def andThen (o : Out) (rest : State → Out) : Out :=
  match o with
  | .next s => if s.seq = .idle then .next s else rest s
  | .fault r => .fault r
  | .refused r => .refused r

/-- Run `f` on the value, or stop with the fault. -/
def orFault {α : Type} (v : Except Fault α) (f : α → Out) : Out :=
  match v with
  | .ok a => f a
  | .error e => .fault e

/-- The call-scoped state of the running ENC.ENCODE (R20); reading it outside one is a fault (R253, U7). -/
def State.encCall (s : State) : Except Fault EncCall :=
  match s.enc with
  | some c => .ok c
  | none => .error .noCallState

/-- The call-scoped state of the running VIT.DECODE (R20). -/
def State.vitCall (s : State) : Except Fault VitCall :=
  match s.vit with
  | some c => .ok c
  | none => .error .noCallState

/-- An item of the call that its micro-operation has written (R40). -/
def written {α : Type} : Option α → Except Fault α
  | some v => .ok v
  | none => .error .itemUnwritten

/-! Starting a host operation (R233, R234, R266). -/

/-- A host operation may be issued only at IDLE (R266 (a)); CFG.BUILD is also its own micro-operation, so it runs at
(CFG, BUILD, -) (R93). -/
def State.mayIssue (s : State) (i : Instr) : Bool :=
  match i with
  | .cfgBuild _ => decide (s.seq = .idle) || decide (s.seq = .cfgBuild)
  | _ => decide (s.seq = .idle)

/-- The first precondition of a host operation that does not hold (R233, R234, R9, R10); `none` when all do. -/
def State.refusalOf (s : State) (i : Instr) : Option Refusal :=
  if i.isHost = false then some .notAHostOperation
  else if s.mayIssue i = false then some .engineBusy
  else
    match i with
    | .cfgBuild _ => if i.wf s.params then none else some .overCapacity
    | .trbBuild => if s.cfgValid then none else some .notConfigured
    | .encEncode _ =>
      if s.cfgValid = false then some .notConfigured
      else if i.wf s.params then none else some .overCapacity
    | .vitDecode _ =>
      if s.cfgValid = false then some .notConfigured
      else if s.ttValid = false then some .tableNotValid
      else if i.wf s.params = false then some .overCapacity
      else if s.params.metricFits s.n then none else some .metricTooNarrow
    | _ => some .notAHostOperation

/-- The operand on the ports and the sequencer at the operation's first micro-operation (R110, R125, R145, R160;
V11, V12, V13 give the values SEQ goes through). -/
def State.started (s : State) (i : Instr) : State :=
  match i with
  | .cfgBuild gens => { s with seq := .cfgBuild, operand := .gens gens }
  | .trbBuild => { s with seq := .trbEntry 0 false }
  | .encEncode inputBytes => { s with seq := .encLoad, operand := .bytes inputBytes }
  | .vitDecode receivedBits => { s with seq := .vitFrame, operand := .bits receivedBits }
  | _ => s

/-- Start a host operation, or refuse it (R234: "a model refuses it (gives it no step and no result)"). -/
def start (i : Instr) (s : State) : Out :=
  match s.refusalOf i with
  | some r => .refused r
  | none => .next (s.started i)

end Sys2Proof.Machine
end

