-- ==== Sys2Proof/Machine/Cfg.lean ====
section
/-! DEFINITION. Unit CFG, the constraint-length and code-rate parser (spec/40_config_parser.md). -/

namespace Sys2Proof.Machine

/-- R111: "the sequence is empty or any value <= 0". -/
def badGenerators (gens : List Int) : Bool := gens.isEmpty || gens.any fun g => decide (g ≤ 0)

/-- R112 to R114: `T[]`, `N` and `KREG` of a legal generator list. -/
def State.configured (s : State) (gens : List Int) : State :=
  { s with taps := tapVectors gens, n := gens.length, kreg := constraintLength gens }

/-- R110 from its second line on: validate, then write the configuration slot; a failure leaves it alone (R116). -/
def buildConfig (gens : List Int) (s : State) : Out :=
  if badGenerators gens then raise .invalidGenerator s
  else complete .nothing ((s.configured gens).flagConfigured)

/-- CFG.BUILD (R110). -/
def execCfgBuild (gens : List Int) (s : State) : Out :=
  andThen (start (.cfgBuild gens) s) (buildConfig gens)

end Sys2Proof.Machine
end

