-- ==== Sys2Proof/Machine/Enc.lean ====
section
/-! DEFINITION. Unit ENC, the convolutional encoder (spec/41_encoder.md). -/

namespace Sys2Proof.Machine

/-- SEQ after `ui` steps of ENC (R126, R127): the next step, or ENC.RET when no bit of `U` is left. -/
def encNext (u : List Bit) (ui : Nat) : Seq := if ui < u.length then .encStep ui else .encRet ui

/-- R126, R251: the call-scoped state at the start of an ENC.ENCODE. -/
def EncCall.start (k : Nat) (inputBytes : List Byte) : EncCall :=
  { sr := List.replicate k false, u := inputBits k inputBytes, ui := 0, code := [] }

/-- ENC.LOAD (R126). -/
def execEncLoad (inputBytes : List Byte) (s : State) : Out :=
  .next { s with
          enc := some (EncCall.start s.kreg inputBytes)
          seq := encNext (inputBits s.kreg inputBytes) 0 }

/-- R127: one step on the call-scoped state with input bit d. All n output bits are computed from the register as it
was before the shift. -/
def EncCall.stepped (k : Nat) (taps : List Nat) (c : EncCall) (d : Bit) : EncCall :=
  { c with
    code := c.code ++ outputGroup k taps (regState c.sr) d
    sr := shiftIn c.sr d
    ui := c.ui + 1 }

/-- ENC.STEP (R127). -/
def execEncStep (s : State) : Out :=
  orFault s.encCall fun c =>
    match c.u[c.ui]? with
    | none => .fault .streamExhausted
    | some d =>
      .next { s with
              enc := some (c.stepped s.kreg s.taps d)
              seq := encNext c.u (c.ui + 1) }

/-- ENC.RET (R131). -/
def execEncRet (s : State) : Out :=
  orFault s.encCall fun c => complete (.code c.code) s

/-- The loop of R125, `while UI < len(U): ENC.STEP`, at most `fuel` times; SEQ is at ENC.STEP exactly while
UI < len(U). -/
def encSteps : Nat → State → Out
  | 0, s => .next s
  | fuel + 1, s =>
    match s.seq with
    | .encStep _ => andThen (execEncStep s) (encSteps fuel)
    | _ => .next s

/-- ENC.ENCODE inputBytes (R125). There are `8*len(inputBytes) + K` steps (R202). -/
def execEncEncode (inputBytes : List Byte) (s : State) : Out :=
  andThen (start (.encEncode inputBytes) s) fun s0 =>
  andThen (execEncLoad inputBytes s0) fun s1 =>
  andThen (encSteps (8 * inputBytes.length + s.kreg) s1) execEncRet

end Sys2Proof.Machine
end

