-- ==== Sys2Proof/Machine/Trb.lean ====
section
/-! DEFINITION. Unit TRB, the trellis table builder (spec/42_trellis_table.md). -/

namespace Sys2Proof.Machine

/-- TRB.ENTRY (s, d) (R146): write one entry and move SEQ to the pair after it. -/
def execTrbEntry (st : Nat) (d : Bit) (s : State) : Out :=
  if isState s.kreg st then
    .next { s.writeTable st d (tableEntry s.kreg s.taps st d) with
            seq := .trbEntry (pairAfter st d).1 (pairAfter st d).2 }
  else .fault .noSuchState

/-- The loops of R145 over a list of pairs. -/
def buildEntries : List (Nat × Bit) → State → Out
  | [], s => .next s
  | (st, d) :: pairs, s => andThen (execTrbEntry st d s) (buildEntries pairs)

/-- The end of TRB.BUILD (R145, after the loops): `TT_VALID <- 1`, `STATUS <- OK`, `SEQ <- (IDLE, -, -)`. -/
def endTable (s : State) : Out := complete .nothing s.flagTableBuilt

/-- TRB.BUILD (R145). -/
def execTrbBuild (s : State) : Out :=
  andThen (start .trbBuild s) fun s0 =>
  andThen (buildEntries (tablePairs s0.kreg) s0) endTable

/-- The loops of R145 have run out when SEQ stands at a pair whose state is outside [0, 2^K). -/
def State.tableDone (s : State) : Bool :=
  match s.seq with
  | .trbEntry st _ => !isState s.kreg st
  | _ => false

/-- Sequenced one micro-operation at a time, the last TRB.ENTRY is followed by the end of TRB.BUILD, so that SEQ goes
through the 2^(K+1) pairs "and returns to IDLE" (V12; log 18). -/
def afterEntry (o : Out) : Out :=
  match o with
  | .next s => if s.tableDone then endTable s else .next s
  | .fault r => .fault r
  | .refused r => .refused r

end Sys2Proof.Machine
end

