-- ==== Sys2Proof/Machine/Vit.lean ====
section
/-! DEFINITION. Unit VIT, the Viterbi decoder (spec/43_viterbi_decoder.md). -/

namespace Sys2Proof.Machine

/-- R40, R161, R252: the call-scoped state at the start of a VIT.DECODE, once framing has succeeded. -/
def VitCall.start (n : Nat) (receivedBits : List Bit) : VitCall :=
  { rx := receivedBits, l := receivedBits.length / n, ti := 0, live := [Trail.initial], cand := []
    win := none, dbits := none, bytes := none, metric := none }

/-- VIT.FRAME (R161). -/
def execVitFrame (receivedBits : List Bit) (s : State) : Out :=
  if receivedBits.length % s.n ≠ 0 then raise .invalidLength s
  else .next { s with vit := some (VitCall.start s.n receivedBits), seq := .vitInit }

/-- SEQ after `ti` symbols (R162, R167): the next symbol's VIT.BRANCH, or VIT.TERM. -/
def vitNext (l ti : Nat) : Seq := if ti < l then .vitBranch ti else .vitTerm ti

/-- VIT.INIT (R162). -/
def execVitInit (s : State) : Out :=
  orFault s.vitCall fun c =>
    .next { s with
            vit := some { c with live := [Trail.initial], cand := [], ti := 0 }
            seq := vitNext c.l 0 }

/-- R163, R164: the candidate that extends a trail by hypothesis d under the symbol y. -/
def extend (s : State) (y : List Bit) (tr : Trail) (d : Bit) : Except Fault Trail :=
  match tr.current with
  | none => .error .trailTooShort
  | some st =>
    match s.readTable st d with
    | .error e => .error e
    | .ok entry => .ok { path := tr.path ++ [entry.next], metric := tr.metric + hamming entry.out y }

/-- R163, R165: the candidates of all live trails, in their order, d = 0 before d = 1. -/
def branch (s : State) (y : List Bit) : List Trail → Except Fault (List Trail)
  | [] => .ok []
  | tr :: live =>
    match extend s y tr false with
    | .error e => .error e
    | .ok c0 =>
      match extend s y tr true with
      | .error e => .error e
      | .ok c1 =>
        match branch s y live with
        | .error e => .error e
        | .ok cs => .ok (c0 :: c1 :: cs)

/-- VIT.BRANCH (R163). -/
def execVitBranch (s : State) : Out :=
  orFault s.vitCall fun c =>
    match symbolAt s.n c.rx c.ti with
    | none => .fault .streamExhausted
    | some y =>
      orFault (branch s y c.live) fun cand =>
        .next { s with vit := some { c with cand := cand }, seq := .vitMerge c.ti }

/-- R168, R211: whether a later candidate replaces the best so far. With the tie-break parameter at its default only a
strictly smaller metric does (D10); U1's "later wins" also lets an equal one. -/
def replaces (laterWins : Bool) (later best : Trail) : Bool :=
  decide (later.metric < best.metric) || (laterWins && decide (later.metric = best.metric))

/-- R167, R168: the least-metric trail of a list under the tie-break; an empty list has none. -/
def leastTrail (laterWins : Bool) : List Trail → Option Trail
  | [] => none
  | tr :: trs => some (trs.foldl (fun best c => if replaces laterWins c best then c else best) tr)

/-- The trails whose current state is st, in list order (R167, R174). -/
def trailsAt (st : Nat) (trs : List Trail) : List Trail := trs.filter fun tr => tr.current == some st

/-- R167, R169: one survivor for every state that has a candidate, states ascending. -/
def survivors (laterWins : Bool) (k : Nat) (cand : List Trail) : List Trail :=
  (List.range (2 ^ k)).filterMap fun st => leastTrail laterWins (trailsAt st cand)

/-- R167: `LIVE` after the merge step; the selection acts when there are 2 * 2^K candidates (R166). -/
def merged (laterWins : Bool) (k : Nat) (cand : List Trail) : List Trail :=
  if cand.length = 2 * 2 ^ k then survivors laterWins k cand else cand

/-- VIT.MERGE (R167). `CAND` ends with the merge step (R34, log 6). -/
def execVitMerge (s : State) : Out :=
  orFault s.vitCall fun c =>
    .next { s with
            vit := some { c with live := merged s.params.laterWins s.kreg c.cand, cand := [], ti := c.ti + 1 }
            seq := vitNext c.l (c.ti + 1) }

/-- VIT.TERM (R174). The first trail in `LIVE` order wins a tie (R175). -/
def execVitTerm (s : State) : Out :=
  orFault s.vitCall fun c =>
    match leastTrail false (trailsAt 0 c.live) with
    | none => raise .noValidPath s
    | some w =>
      .next { s with vit := some { c with win := some w, metric := some w.metric }, seq := .vitTrace }

/-- R177, R178: the first d of 0, 1 with TT[a, d].next = b. -/
def tracedBit (s : State) (a b : Nat) : Except Fault Bit :=
  match s.readTable a false with
  | .error e => .error e
  | .ok e0 =>
    if e0.next = b then .ok false
    else
      match s.readTable a true with
      | .error e => .error e
      | .ok e1 => if e1.next = b then .ok true else .error .noHypothesis

/-- R177: the traced bits of the first `l` pairs of a path. -/
def tracedBits (s : State) : Nat → List Nat → Except Fault (List Bit)
  | 0, _ => .ok []
  | l + 1, a :: b :: path =>
    match tracedBit s a b with
    | .error e => .error e
    | .ok d =>
      match tracedBits s l (b :: path) with
      | .error e => .error e
      | .ok ds => .ok (d :: ds)
  | _ + 1, _ => .error .trailTooShort

/-- VIT.TRACE (R177). -/
def execVitTrace (s : State) : Out :=
  orFault s.vitCall fun c =>
  orFault (written c.win) fun w =>
  orFault (tracedBits s c.l w.path) fun ds =>
    .next { s with vit := some { c with dbits := some ds }, seq := .vitStrip }

/-- VIT.STRIP (R179). -/
def execVitStrip (s : State) : Out :=
  orFault s.vitCall fun c =>
  orFault (written c.dbits) fun ds =>
    if ds.length < s.kreg then raise .invalidLength s
    else
      .next { s with vit := some { c with dbits := some (ds.take (ds.length - s.kreg)) }, seq := .vitPack }

/-- VIT.PACK (R180). -/
def execVitPack (s : State) : Out :=
  orFault s.vitCall fun c =>
  orFault (written c.dbits) fun ds =>
    if ds.length % 8 ≠ 0 then raise .invalidLength s
    else .next { s with vit := some { c with bytes := some (pack ds) }, seq := .vitRet }

/-- VIT.RET (R181). -/
def execVitRet (s : State) : Out :=
  orFault s.vitCall fun c =>
  orFault (written c.bytes) fun bytes =>
  orFault (written c.metric) fun metric =>
    complete (.decoded bytes metric) s

/-- R173: the loop over `l` symbols, branch then merge. -/
def vitSymbols : Nat → State → Out
  | 0, s => .next s
  | l + 1, s =>
    andThen (execVitBranch s) fun s1 =>
    andThen (execVitMerge s1) (vitSymbols l)

/-- R160 after the loop: termination, traceback, strip, pack, return. -/
def vitFinish (s : State) : Out :=
  andThen (execVitTerm s) fun s1 =>
  andThen (execVitTrace s1) fun s2 =>
  andThen (execVitStrip s2) fun s3 =>
  andThen (execVitPack s3) execVitRet

/-- VIT.DECODE receivedBits (R160); L is `len(RX) / n` (R161). -/
def execVitDecode (receivedBits : List Bit) (s : State) : Out :=
  andThen (start (.vitDecode receivedBits) s) fun s0 =>
  andThen (execVitFrame receivedBits s0) fun s1 =>
  andThen (execVitInit s1) fun s2 =>
  andThen (vitSymbols (receivedBits.length / s.n) s2) vitFinish

/-- R172: one symbol of the per-state form (add-compare-select) for state s', K >= 1, given the metrics and paths of
the live trails by state. It is the spec's other form of R163 to R169; the machine uses the list form. -/
def addCompareSelect (k : Nat) (tt : Nat → Bit → TTEntry) (y : List Bit) (live : Nat → Option Trail)
    (st : Nat) : Option Trail :=
  let d := st.testBit 0
  let p0 := st / 2
  let p1 := st / 2 + 2 ^ (k - 1)
  let via := fun p => (live p).map fun tr =>
    ({ path := tr.path ++ [st], metric := tr.metric + hamming (tt p d).out y } : Trail)
  match via p0, via p1 with
  | some t0, some t1 => some (if t1.metric < t0.metric then t1 else t0)
  | some t0, none => some t0
  | none, some t1 => some t1
  | none, none => none

end Sys2Proof.Machine
end

