-- ==== Sys2Proof/Machine/Dispatch.lean ====
section
/-! DEFINITION. One arm per operation of spec/opcode_table.json. -/

namespace Sys2Proof.Machine

def exec (i : Instr) (s : State) : Host.Outcome State Fault Refusal :=
  match i with
  | .cfgBuild gens => Sys2Proof.Machine.execCfgBuild gens s
  | .trbBuild => Sys2Proof.Machine.execTrbBuild s
  | .encEncode inputBytes => Sys2Proof.Machine.execEncEncode inputBytes s
  | .vitDecode receivedBits => Sys2Proof.Machine.execVitDecode receivedBits s
  | .encLoad inputBytes => Sys2Proof.Machine.execEncLoad inputBytes s
  | .encStep => Sys2Proof.Machine.execEncStep s
  | .encRet => Sys2Proof.Machine.execEncRet s
  | .trbEntry st d => Sys2Proof.Machine.execTrbEntry st d s
  | .vitFrame receivedBits => Sys2Proof.Machine.execVitFrame receivedBits s
  | .vitInit => Sys2Proof.Machine.execVitInit s
  | .vitBranch => Sys2Proof.Machine.execVitBranch s
  | .vitMerge => Sys2Proof.Machine.execVitMerge s
  | .vitTerm => Sys2Proof.Machine.execVitTerm s
  | .vitTrace => Sys2Proof.Machine.execVitTrace s
  | .vitStrip => Sys2Proof.Machine.execVitStrip s
  | .vitPack => Sys2Proof.Machine.execVitPack s
  | .vitRet => Sys2Proof.Machine.execVitRet s

end Sys2Proof.Machine
end

