-- ==== Sys2Proof/Decode.lean ====
section
/-! DEFINITION. The decoder of the command words of R93 and R96, and after it the encoder. A command is its code
word followed by its operand stream, "whose length the count operand gives" (R96). -/

namespace Sys2Proof

/-- The rows of spec/opcode_table.json by name. -/
inductive Op where
  | cfgBuild | trbBuild | encEncode | vitDecode
  | encLoad | encStep | encRet | trbEntry
  | vitFrame | vitInit | vitBranch | vitMerge | vitTerm | vitTrace | vitStrip | vitPack | vitRet
deriving DecidableEq, Repr

/-- One row of the table of R93: format H has 2 bits (`op`), format M has 6 (`op` of the unit in bits 5:4, `phase`
in bits 3:0). -/
structure OpRow where
  width : Nat
  code : Nat
  op : Op
deriving DecidableEq, Repr

/-- R93, host operations, format H: `op[1:0]`. -/
def hostRows : List OpRow :=
  [⟨2, 0b00, .cfgBuild⟩, ⟨2, 0b01, .trbBuild⟩, ⟨2, 0b10, .encEncode⟩, ⟨2, 0b11, .vitDecode⟩]

/-- R93, micro-operations, format M: `op[1:0]` of the unit followed by `phase[3:0]`. -/
def microRows : List OpRow :=
  [⟨6, 0b100000, .encLoad⟩, ⟨6, 0b100001, .encStep⟩, ⟨6, 0b100010, .encRet⟩,
   ⟨6, 0b010000, .trbEntry⟩,
   ⟨6, 0b110000, .vitFrame⟩, ⟨6, 0b110001, .vitInit⟩, ⟨6, 0b110010, .vitBranch⟩,
   ⟨6, 0b110011, .vitMerge⟩, ⟨6, 0b110100, .vitTerm⟩, ⟨6, 0b110101, .vitTrace⟩,
   ⟨6, 0b110110, .vitStrip⟩, ⟨6, 0b110111, .vitPack⟩, ⟨6, 0b111000, .vitRet⟩]

/-- The whole table. DESIGN CHOICE (log 8): the two formats share one number space, in which no two rows have the
same number (the 6-bit code 000000 is CFG.BUILD in both: "its own micro-operation", R93). -/
def opTable : List OpRow := hostRows ++ microRows

/-- The operation a code names; a code of no row names none (R96, U10). -/
def Op.ofCode (code : Nat) : Option Op :=
  (opTable.find? fun r => r.code == code).map OpRow.op

/-- The items of an operand stream, each read by `item`; the first one outside its type is named. -/
def decodeItems {α : Type} (item : Int → Option α) : List Int → Except DecodeError (List α)
  | [] => .ok []
  | w :: ws =>
    match item w with
    | none => .error (.itemOutOfType w)
    | some v =>
      match decodeItems item ws with
      | .error e => .error e
      | .ok vs => .ok (v :: vs)

/-- A counted operand stream: a count word, then so many items; the words after them are left over (R96). -/
def decodeCounted {α : Type} (item : Int → Option α) :
    List Int → Except DecodeError (List α × List Int)
  | [] => .error .operandsMissing
  | c :: ws =>
    if c < 0 then .error (.negativeCount c)
    else if ws.length < c.toNat then .error .operandsMissing
    else
      match decodeItems item (ws.take c.toNat) with
      | .error e => .error e
      | .ok vs => .ok (vs, ws.drop c.toNat)

/-- R81: any integer is a generator word. -/
def generatorItem (w : Int) : Option Int := some w

/-- R88: a byte has value 0 to 255. -/
def byteItem (w : Int) : Option Byte :=
  if 0 ≤ w ∧ w < 256 then some (BitVec.ofNat 8 w.toNat) else none

/-- R88: a bit is 0 or 1. -/
def bitItem (w : Int) : Option Bit :=
  if w = 0 then some false else if w = 1 then some true else none

/-- R83: a state word is a natural number. -/
def stateItem (w : Int) : Option Nat :=
  if 0 ≤ w then some w.toNat else none

/-- The operands of TRB.ENTRY: a state, then a bit. -/
def decodePair : List Int → Except DecodeError ((Nat × Bit) × List Int)
  | a :: b :: ws =>
    match stateItem a, bitItem b with
    | some st, some d => .ok ((st, d), ws)
    | none, _ => .error (.itemOutOfType a)
    | some _, none => .error (.itemOutOfType b)
  | _ => .error .operandsMissing

/-- Apply a constructor to a decoded operand. -/
def withOperand {α : Type} (mk : α → Instr) :
    Except DecodeError (α × List Int) → Except DecodeError (Instr × List Int)
  | .error e => .error e
  | .ok (v, rest) => .ok (mk v, rest)

/-- The operand stream of each operation (R93, R96). DESIGN CHOICE (log 9): the operands of the three
micro-operations that have some follow their code in the same way. -/
def decodeOperands (op : Op) (ws : List Int) : Except DecodeError (Instr × List Int) :=
  match op with
  | .cfgBuild => withOperand .cfgBuild (decodeCounted generatorItem ws)
  | .trbBuild => .ok (.trbBuild, ws)
  | .encEncode => withOperand .encEncode (decodeCounted byteItem ws)
  | .vitDecode => withOperand .vitDecode (decodeCounted bitItem ws)
  | .encLoad => withOperand .encLoad (decodeCounted byteItem ws)
  | .encStep => .ok (.encStep, ws)
  | .encRet => .ok (.encRet, ws)
  | .trbEntry => withOperand (fun p => .trbEntry p.1 p.2) (decodePair ws)
  | .vitFrame => withOperand .vitFrame (decodeCounted bitItem ws)
  | .vitInit => .ok (.vitInit, ws)
  | .vitBranch => .ok (.vitBranch, ws)
  | .vitMerge => .ok (.vitMerge, ws)
  | .vitTerm => .ok (.vitTerm, ws)
  | .vitTrace => .ok (.vitTrace, ws)
  | .vitStrip => .ok (.vitStrip, ws)
  | .vitPack => .ok (.vitPack, ws)
  | .vitRet => .ok (.vitRet, ws)

/-- The operation a code word names; negative numbers name none. -/
def opOfWord (w : Int) : Option Op :=
  if 0 ≤ w then Op.ofCode w.toNat else none

/-- Decoding, total on any words: the operation at the front and the words after it, or the reason there is none. -/
def decode : List Int → Except DecodeError (Instr × List Int)
  | [] => .error .noWords
  | c :: ws =>
    match opOfWord c with
    | none => .error (.reservedCode c)
    | some op => decodeOperands op ws

/-- R93: a code word of format H, a host operation's. -/
def isHostCode (w : Int) : Bool := decide (0 ≤ w) && decide (w < 4)

/-- The command at the front of the host's stream: only the four host operations can be issued (R16, R266 (c)). -/
def decodeHost (ws : List Int) : Except DecodeError (Instr × List Int) :=
  match decode ws with
  | .error .operandsMissing =>
    if isHostCode (ws.headD 0) then .error .operandsMissing else .error (.notAHostOperation (ws.headD 0))
  | .error e => .error e
  | .ok (i, rest) => if i.isHost then .ok (i, rest) else .error (.notAHostOperation (ws.headD 0))

/-- The row an operation belongs to. -/
def Instr.op : Instr → Op
  | .cfgBuild _ => .cfgBuild
  | .trbBuild => .trbBuild
  | .encEncode _ => .encEncode
  | .vitDecode _ => .vitDecode
  | .encLoad _ => .encLoad
  | .encStep => .encStep
  | .encRet => .encRet
  | .trbEntry _ _ => .trbEntry
  | .vitFrame _ => .vitFrame
  | .vitInit => .vitInit
  | .vitBranch => .vitBranch
  | .vitMerge => .vitMerge
  | .vitTerm => .vitTerm
  | .vitTrace => .vitTrace
  | .vitStrip => .vitStrip
  | .vitPack => .vitPack
  | .vitRet => .vitRet

/-- The code of a row (R93): `op` for a host operation, `op` of the unit times 16 plus `phase` for a
micro-operation. -/
def Op.code : Op → Nat
  | .cfgBuild => 0b00
  | .trbBuild => 0b01
  | .encEncode => 0b10
  | .vitDecode => 0b11
  | .encLoad => 0b10 * 16 + 0b0000
  | .encStep => 0b10 * 16 + 0b0001
  | .encRet => 0b10 * 16 + 0b0010
  | .trbEntry => 0b01 * 16 + 0b0000
  | .vitFrame => 0b11 * 16 + 0b0000
  | .vitInit => 0b11 * 16 + 0b0001
  | .vitBranch => 0b11 * 16 + 0b0010
  | .vitMerge => 0b11 * 16 + 0b0011
  | .vitTerm => 0b11 * 16 + 0b0100
  | .vitTrace => 0b11 * 16 + 0b0101
  | .vitStrip => 0b11 * 16 + 0b0110
  | .vitPack => 0b11 * 16 + 0b0111
  | .vitRet => 0b11 * 16 + 0b1000

/-- A bit as a port word. -/
def bitWord (d : Bit) : Int := if d then 1 else 0

/-- A byte as a port word. -/
def byteWord (b : Byte) : Int := Int.ofNat b.toNat

/-- A counted operand stream. -/
def encodeCounted {α : Type} (word : α → Int) (vs : List α) : List Int :=
  Int.ofNat vs.length :: vs.map word

/-- The operand stream of an operation. -/
def Instr.operandWords : Instr → List Int
  | .cfgBuild gens => encodeCounted id gens
  | .encEncode inputBytes => encodeCounted byteWord inputBytes
  | .vitDecode receivedBits => encodeCounted bitWord receivedBits
  | .encLoad inputBytes => encodeCounted byteWord inputBytes
  | .trbEntry st d => [Int.ofNat st, bitWord d]
  | .vitFrame receivedBits => encodeCounted bitWord receivedBits
  | .trbBuild | .encStep | .encRet => []
  | .vitInit | .vitBranch | .vitMerge | .vitTerm | .vitTrace | .vitStrip | .vitPack | .vitRet => []

/-- The words of an operation: its code word, then its operand stream (R93, R96). -/
def encode (i : Instr) : List Int :=
  Int.ofNat i.op.code :: i.operandWords

/-- The operation whose opcode-table bits are `w` (`nbits` of them, bit 0 the least significant), its operand words
all zero. The code is one port word and the longest operand-free tail is two words (TRB.ENTRY's s and d). -/
def decodeTableWord (nbits w : Nat) : Option Instr :=
  match decode [Int.ofNat (w % 2 ^ nbits), 0, 0] with
  | .error _ => none
  | .ok (i, _) => some i

end Sys2Proof
end

