-- ==== Sys2Proof/Machine/Fetch.lean ====
section
/-! DEFINITION. Where the words of the next operation come from: the host's command stream at IDLE (R266), the
sequencer otherwise (R30, R93). -/

namespace Sys2Proof.Machine

/-- What the engine finds on the command stream at IDLE. -/
inductive Fetched where
  /-- No whole command is there: the engine "waits" (R250), and starts only on a whole frame (R262; log 10). -/
  | waiting
  /-- A command, and the words after it. -/
  | command (i : Instr) (rest : List Int)
  /-- Words that are no command (R88, R96; log 11). -/
  | malformed (reason : DecodeError)
deriving DecidableEq, Repr

/-- The command stream at IDLE. -/
def State.fetchHost (s : State) : Fetched :=
  match decodeHost s.hostIn with
  | .ok (i, rest) => .command i rest
  | .error .noWords => .waiting
  | .error .operandsMissing => .waiting
  | .error e => .malformed e

/-- The words of the micro-operation at SEQ: its code of R93, then its operands (log 9). At IDLE there is none. -/
def State.fetchMicro (s : State) : Except Fault (List Int) :=
  match s.seq with
  | .idle => .ok []
  | .cfgBuild =>
    match s.operand with
    | .gens gens => .ok (encode (.cfgBuild gens))
    | _ => .error .operandAbsent
  | .trbEntry st d => .ok (encode (.trbEntry st d))
  | .encLoad =>
    match s.operand with
    | .bytes inputBytes => .ok (encode (.encLoad inputBytes))
    | _ => .error .operandAbsent
  | .encStep _ => .ok (encode .encStep)
  | .encRet _ => .ok (encode .encRet)
  | .vitFrame =>
    match s.operand with
    | .bits receivedBits => .ok (encode (.vitFrame receivedBits))
    | _ => .error .operandAbsent
  | .vitInit => .ok (encode .vitInit)
  | .vitBranch _ => .ok (encode .vitBranch)
  | .vitMerge _ => .ok (encode .vitMerge)
  | .vitTerm _ => .ok (encode .vitTerm)
  | .vitTrace => .ok (encode .vitTrace)
  | .vitStrip => .ok (encode .vitStrip)
  | .vitPack => .ok (encode .vitPack)
  | .vitRet => .ok (encode .vitRet)

/-! Placing an operation where `step` fetches next (log 19). The host runs CFG.BUILD before any other operation and
TRB.BUILD before VIT.DECODE (R254, R266 (b)), and a micro-operation is fetched only inside its operation, which has
its call-scoped state as well (R20): placing an operation supplies whichever of these is not there, and nothing else. -/

/-- A configuration, where there is none: that of CFG.BUILD (1), the least legal list (R118 (c)). -/
def State.withSomeConfiguration (s : State) : State :=
  if s.cfgValid then s else (s.configured [1]).flagConfigured

/-- The table of the configuration, where there is none (R145). -/
def State.withSomeTable (s : State) : State :=
  if s.ttValid then s
  else
    ((tablePairs s.kreg).foldl (fun t p => t.writeTable p.1 p.2 (tableEntry s.kreg s.taps p.1 p.2)) s).flagTableBuilt

/-- The call-scoped state of the running ENC.ENCODE, or of one on the byte 00 before its first step. -/
def State.placedEnc (s : State) : EncCall := s.enc.getD (EncCall.start s.kreg [0x00#8])

/-- The call-scoped state of the running VIT.DECODE, or of one on a single symbol of zeros before its first step,
with no bits traced yet and the all-zero trail as its winner. -/
def State.placedVit (s : State) : VitCall :=
  s.vit.getD
    { rx := List.replicate s.n false, l := 1, ti := 0, live := [Trail.initial], cand := []
      win := some { path := [0, 0], metric := 0 }, dbits := some [], bytes := some [], metric := some 0 }

/-- The engine inside an ENC.ENCODE at a given phase. -/
def State.insideEnc (s : State) (seq : EncCall → Seq) : State :=
  let s := s.withSomeConfiguration
  { s with enc := some s.placedEnc, seq := seq s.placedEnc }

/-- The engine inside a VIT.DECODE at a given phase. -/
def State.insideVit (s : State) (seq : VitCall → Seq) : State :=
  let s := s.withSomeConfiguration.withSomeTable
  { s with vit := some s.placedVit, seq := seq s.placedVit }

/-- An IDLE engine with a command at the front of its command stream. -/
def State.issued (s : State) (i : Instr) : State :=
  { s with seq := .idle, enc := none, vit := none, operand := .absent, hostIn := encode i ++ s.hostIn }

/-- The engine with the operation `i` where `step` fetches next: a host operation at the front of the command stream
of an IDLE engine on which what R254 asks for before it has been done, a micro-operation at SEQ inside its operation. -/
def State.placed (s : State) (i : Instr) : State :=
  match i with
  | .cfgBuild _ => s.issued i
  | .trbBuild | .encEncode _ => s.withSomeConfiguration.issued i
  | .vitDecode _ => s.withSomeConfiguration.withSomeTable.issued i
  | .trbEntry st d => { s.withSomeConfiguration with seq := .trbEntry st d }
  | .encLoad inputBytes =>
    { s.withSomeConfiguration with seq := .encLoad, operand := .bytes inputBytes }
  | .encStep => s.insideEnc fun c => .encStep c.ui
  | .encRet => s.insideEnc fun c => .encRet c.ui
  | .vitFrame receivedBits =>
    { s.withSomeConfiguration.withSomeTable with seq := .vitFrame, operand := .bits receivedBits }
  | .vitInit => s.insideVit fun _ => .vitInit
  | .vitBranch => s.insideVit fun c => .vitBranch c.ti
  | .vitMerge => s.insideVit fun c => .vitMerge c.ti
  | .vitTerm => s.insideVit fun c => .vitTerm c.ti
  | .vitTrace => s.insideVit fun _ => .vitTrace
  | .vitStrip => s.insideVit fun _ => .vitStrip
  | .vitPack => s.insideVit fun _ => .vitPack
  | .vitRet => s.insideVit fun _ => .vitRet

/-- The engine with words that are no command at the front of its command stream. -/
def State.placedWords (s : State) (ws : List Int) : State :=
  { s with seq := .idle, enc := none, vit := none, operand := .absent, hostIn := ws ++ s.hostIn }

end Sys2Proof.Machine
end

