-- ==== Sys2Proof/Machine/Step.lean ====
section
/-! DEFINITION. One step of the engine. At IDLE a step takes one command from the host's stream and runs it whole
(D1: "each atomic from the host's view (IDLE to IDLE)"); inside an operation it runs the micro-operation at SEQ.
`microStep` is the step-wise view of the same machine: at IDLE it only starts the command. -/

namespace Sys2Proof.Machine

/-- Run the micro-operation at SEQ: fetch its words, decode them, execute. -/
def sequencerStep (s : State) : Out :=
  orFault s.fetchMicro fun ws =>
    match decode ws with
    | .error e => .refused (.badCommand e)
    | .ok (i, _) => afterEntry (exec i s)

/-- A step of the engine at IDLE: wait, or take the command at the front of the stream and `run` it. -/
def idleStep (run : Instr → State → Out) (s : State) : Out :=
  match s.fetchHost with
  | .waiting => .next s
  | .command i rest => run i { s with hostIn := rest }
  | .malformed e => .refused (.badCommand e)

/-- One step. -/
def step (s : State) : Host.Outcome State Fault Refusal :=
  if s.seq = .idle then idleStep exec s else sequencerStep s

/-- One step of the step-wise view (D1: "given so that a step-wise model and the functional model can be proved
equal"). -/
def microStep (s : State) : Host.Outcome State Fault Refusal :=
  if s.seq = .idle then idleStep start s else sequencerStep s

/-- The state with the operation of opcode-table bits `w` where `step` fetches next (log 19). -/
def State.withFetchWord (s : State) (nbits w : Nat) : State :=
  match decodeTableWord nbits w with
  | some i => s.placed i
  | none => s.placedWords [Int.ofNat (w % 2 ^ nbits), 0, 0]

end Sys2Proof.Machine
end

