-- ==== Sys2Proof/Machine/Pseudo.lean ====
section
/-! DEFINITION. The pseudo-operations of R98. `encode(bytes)` and `decode(bits)` are ENC.ENCODE and VIT.DECODE on the
engine's configuration and table, so `exec` is their meaning; the two that expand to more than one host operation are
here. -/

namespace Sys2Proof.Machine

/-- Go on to the next host operation of an expansion when the last one succeeded (R98: "followed, when it succeeds,
by"); after an error, a fault or a refusal the expansion is over. -/
def whenOk (o : Out) (rest : State → Out) : Out :=
  match o with
  | .next s => if s.status = .ok then rest s else .next s
  | .fault r => .fault r
  | .refused r => .refused r

/-- R98: "Construction(gens) is CFG.BUILD gens followed, when it succeeds, by TRB.BUILD". -/
def runConstruction (gens : List Int) (s : State) : Out :=
  whenOk (exec (.cfgBuild gens) s) (exec .trbBuild)

/-- The code bits on the result ports; there are none after anything but an ENC.ENCODE. -/
def Result.codeBits : Result → Option (List Bit)
  | .code bits => some bits
  | .nothing | .decoded _ _ => none

/-- R98: `decode(encode(b))` is "ENC.ENCODE b followed by VIT.DECODE of exactly the bits ENC.ENCODE returned". -/
def runEncodeDecode (inputBytes : List Byte) (s : State) : Out :=
  whenOk (exec (.encEncode inputBytes) s) fun t =>
    match t.result.codeBits with
    | some bits => exec (.vitDecode bits) t
    | none => .next t

end Sys2Proof.Machine
end

