-- ==== Sys2Proof/Safety.lean ====
section
/-! DEFINITION. What claims are stated in: walks through the trellis, the invariant of the engine, and runs. -/

namespace Sys2Proof.Machine

/-! Walks through the trellis (R132, R148: "an encoding is a walk through the table from state 0"). -/

/-- The state reached from `st` by the input bits `us`. -/
def walkState (k : Nat) (st : Nat) : List Bit → Nat
  | [] => st
  | d :: us => walkState k (nextState k st d) us

/-- The states visited from `st` by the input bits `us`, `st` first. -/
def walkPath (k : Nat) (st : Nat) : List Bit → List Nat
  | [] => [st]
  | d :: us => st :: walkPath k (nextState k st d) us

/-- The code bits of a walk, one output group per input bit, "in processing order" (R129). -/
def walkCode (k : Nat) (taps : List Nat) (st : Nat) : List Bit → List Bit
  | [] => []
  | d :: us => outputGroup k taps st d ++ walkCode k taps (nextState k st d) us

/-! The invariant. -/

/-- R111: a legal generator list. -/
def LegalGenerators (gens : List Int) : Prop := gens ≠ [] ∧ ∀ g ∈ gens, 0 < g

/-- R21, R22, R23: what holds of the configuration registers whenever `CFG_VALID = 1`. -/
def CfgInv (s : State) : Prop :=
  s.cfgValid = true →
    1 ≤ s.n ∧ s.taps.length = s.n ∧
    (∀ tap ∈ s.taps, 0 < tap ∧ tap < 2 ^ (s.kreg + 1)) ∧
    ∃ tap ∈ s.taps, tap.testBit s.kreg = true

/-- `TT[s, d]` is the entry the configuration gives it (R146). -/
def EntryBuilt (s : State) (st : Nat) (d : Bit) : Prop :=
  s.readTable st d = .ok (tableEntry s.kreg s.taps st d)

/-- R28: "`TT` holds the table of the configuration now in `N`, `KREG`, `T[]`". -/
def TableBuilt (s : State) : Prop := ∀ st < 2 ^ s.kreg, ∀ d : Bit, EntryBuilt s st d

/-- R28: the table memory is in its canonical form, and `TT_VALID = 1` means what R28 says. -/
def TableInv (s : State) : Prop :=
  Memory.wf s.tt = true ∧ (s.ttValid = true → s.cfgValid = true ∧ TableBuilt s)

/-- R25, R27: the call-scoped state of an ENC.ENCODE after `i` steps. -/
def EncInv (s : State) (i : Nat) : Prop :=
  ∃ c, s.enc = some c ∧ c.ui = i ∧ i ≤ c.u.length ∧ (∃ bytes, c.u = inputBits s.kreg bytes) ∧
    c.sr.length = s.kreg ∧ regState c.sr = walkState s.kreg 0 (c.u.take i) ∧
    c.code = walkCode s.kreg s.taps 0 (c.u.take i)

/-- R32, R182: a trail after `t` symbols is a walk of `t` steps from state 0, and its metric the Hamming distance between
the walk's code bits and the first `t` symbols. -/
def IsTrail (s : State) (rx : List Bit) (t : Nat) (tr : Trail) : Prop :=
  ∃ us : List Bit, us.length = t ∧ tr.path = walkPath s.kreg 0 us ∧
    tr.metric = hamming (walkCode s.kreg s.taps 0 us) (rx.take (t * s.n))

/-- R171: the live set at the step boundary after `t` symbols: 2^min(t, K) trails, the q-th at state q (R169). -/
def LiveInv (s : State) (c : VitCall) (t : Nat) : Prop :=
  c.live.length = 2 ^ min t s.kreg ∧
    ∀ q tr, c.live[q]? = some tr → tr.current = some q ∧ IsTrail s c.rx t tr

/-- R163, R165: the candidates of symbol `t`: `CAND[2q + d]` extends the live trail at state q by hypothesis d. -/
def CandInv (s : State) (c : VitCall) (t : Nat) : Prop :=
  c.cand.length = 2 * 2 ^ min t s.kreg ∧
    ∀ q d tr, c.cand[window q d]? = some tr →
      tr.current = some (nextState s.kreg q d) ∧ IsTrail s c.rx (t + 1) tr

/-- What holds of the call-scoped state of a VIT.DECODE at every phase after VIT.FRAME: a whole number of symbols
(R31, R161). -/
def FrameInv (s : State) (c : VitCall) : Prop := c.rx.length = c.l * s.n

/-- R20, R40: what holds at each value of SEQ. At IDLE there is no call-scoped state. -/
def SeqInv (s : State) : Prop :=
  match s.seq with
  | .idle => s.enc = none ∧ s.vit = none ∧ s.operand = .absent
  | .cfgBuild => s.enc = none ∧ s.vit = none ∧ ∃ gens, s.operand = .gens gens
  | .trbEntry st d =>
    s.cfgValid = true ∧ s.enc = none ∧ s.vit = none ∧ st < 2 ^ s.kreg ∧
      ∀ st' < 2 ^ s.kreg, ∀ d', window st' d' < window st d → EntryBuilt s st' d'
  | .encLoad => s.cfgValid = true ∧ s.enc = none ∧ s.vit = none ∧ ∃ bytes, s.operand = .bytes bytes
  | .encStep i => s.cfgValid = true ∧ s.vit = none ∧ EncInv s i ∧ ∃ c, s.enc = some c ∧ i < c.u.length
  | .encRet i => s.cfgValid = true ∧ s.vit = none ∧ EncInv s i ∧ ∃ c, s.enc = some c ∧ i = c.u.length
  | .vitFrame => s.cfgValid = true ∧ s.ttValid = true ∧ s.enc = none ∧ s.vit = none ∧ ∃ bits, s.operand = .bits bits
  | .vitInit => s.cfgValid = true ∧ s.ttValid = true ∧ s.enc = none ∧ ∃ c, s.vit = some c ∧ FrameInv s c
  | .vitBranch t =>
    s.cfgValid = true ∧ s.ttValid = true ∧ s.enc = none ∧
      ∃ c, s.vit = some c ∧ FrameInv s c ∧ c.ti = t ∧ t < c.l ∧ c.cand = [] ∧ LiveInv s c t
  | .vitMerge t =>
    s.cfgValid = true ∧ s.ttValid = true ∧ s.enc = none ∧
      ∃ c, s.vit = some c ∧ FrameInv s c ∧ c.ti = t ∧ t < c.l ∧ LiveInv s c t ∧ CandInv s c t
  | .vitTerm t =>
    s.cfgValid = true ∧ s.ttValid = true ∧ s.enc = none ∧
      ∃ c, s.vit = some c ∧ FrameInv s c ∧ c.ti = t ∧ t = c.l ∧ LiveInv s c t
  | .vitTrace =>
    s.cfgValid = true ∧ s.ttValid = true ∧ s.enc = none ∧
      ∃ c w, s.vit = some c ∧ FrameInv s c ∧ c.win = some w ∧ c.metric = some w.metric ∧
        w.current = some 0 ∧ IsTrail s c.rx c.l w
  | .vitStrip =>
    s.cfgValid = true ∧ s.ttValid = true ∧ s.enc = none ∧
      ∃ c ds m, s.vit = some c ∧ FrameInv s c ∧ c.dbits = some ds ∧ ds.length = c.l ∧ c.metric = some m ∧
        m ≤ s.n * c.l
  | .vitPack =>
    s.cfgValid = true ∧ s.ttValid = true ∧ s.enc = none ∧
      ∃ c ds m, s.vit = some c ∧ FrameInv s c ∧ c.dbits = some ds ∧ ds.length + s.kreg = c.l ∧ c.metric = some m ∧
        m ≤ s.n * c.l
  | .vitRet =>
    s.cfgValid = true ∧ s.ttValid = true ∧ s.enc = none ∧
      ∃ c bytes m, s.vit = some c ∧ FrameInv s c ∧ c.bytes = some bytes ∧ c.metric = some m ∧ m ≤ s.n * c.l

/-- The invariant of the engine. -/
def EngineInv (s : State) : Prop := CfgInv s ∧ TableInv s ∧ SeqInv s

/-! Runs and readiness. -/

/-- `k` steps of the step-wise view, stopping at the first fault or refusal. -/
def microRun : Nat → State → Out
  | 0, s => .next s
  | k + 1, s =>
    match microStep s with
    | .next s' => microRun k s'
    | .fault r => .fault r
    | .refused r => .refused r

/-- R254: an engine that VIT.DECODE and ENC.ENCODE may be issued to: IDLE, configured, with the table built, and an
implementation whose metric register is wide enough (R10). -/
def Ready (s : State) : Prop :=
  EngineInv s ∧ s.seq = .idle ∧ s.cfgValid = true ∧ s.ttValid = true ∧ s.params.metricFits s.n = true

/-- The number of symbols of a received stream (R91). -/
def symbols (s : State) (rx : List Bit) : Nat := rx.length / s.n

/-- R59, R60: the length conditions of VIT.DECODE. -/
def WholeFrame (s : State) (rx : List Bit) : Prop :=
  rx.length % s.n = 0 ∧ s.kreg ≤ symbols s rx ∧ (symbols s rx - s.kreg) % 8 = 0

end Sys2Proof.Machine
end

