-- ==== Sys2Proof/Certificates/Slice0/Obligations.lean ====
section
/-! DEFINITION. The statements for the provers. Each docstring names the rule of spec/ it formalises. -/

open Sys2Proof Sys2Proof.Machine

/-! Encoding. -/

/-- R93, R96 (codes are the spec's own choice, D3, D4; operand words of micro-operations are the model's, log 9):
decoding the words of any operation, whatever follows them, gives the operation and what follows. -/
def Obligations.DecodeOfEncode : Prop :=
  ∀ (i : Instr) (rest : List Int), decode (encode i ++ rest) = .ok (i, rest)

/-- R96: a word sequence that decodes is the encoding of what it decodes to, so every operation has one spelling. -/
def Obligations.EncodeOfDecode : Prop :=
  ∀ (ws rest : List Int) (i : Instr), decode ws = .ok (i, rest) → ws = encode i ++ rest

/-- A code word that is no row's code is rejected by name. R96 says that such codes have no meaning and U10 that they are never
produced; the one number space and the rejection by name are the model's own choice (log 8 and log 11, DESIGN CHOICE). -/
def Obligations.ReservedCodesRejected : Prop :=
  ∀ (c : Int) (ws : List Int), (∀ o : Op, c ≠ Int.ofNat o.code) → decode (c :: ws) = .error (.reservedCode c)

/-- R93: words written out from the spec's tables, one for each of the 17 rows, decode to their rows, and commands with their
operand streams to theirs (one number space for both formats: log 8; operand words of micro-operations: log 9). -/
def Obligations.TableWordsRead : Prop :=
  decodeTableWord 8 0b00000000 = some (.cfgBuild []) ∧ decodeTableWord 8 0b00000001 = some .trbBuild ∧
  decodeTableWord 8 0b00000010 = some (.encEncode []) ∧ decodeTableWord 8 0b00000011 = some (.vitDecode []) ∧
  decodeTableWord 8 0b00100000 = some (.encLoad []) ∧ decodeTableWord 8 0b00100001 = some .encStep ∧
  decodeTableWord 8 0b00100010 = some .encRet ∧ decodeTableWord 8 0b00010000 = some (.trbEntry 0 false) ∧
  decodeTableWord 8 0b00110000 = some (.vitFrame []) ∧ decodeTableWord 8 0b00110001 = some .vitInit ∧
  decodeTableWord 8 0b00110010 = some .vitBranch ∧ decodeTableWord 8 0b00110011 = some .vitMerge ∧
  decodeTableWord 8 0b00110100 = some .vitTerm ∧ decodeTableWord 8 0b00110101 = some .vitTrace ∧
  decodeTableWord 8 0b00110110 = some .vitStrip ∧ decodeTableWord 8 0b00110111 = some .vitPack ∧
  decodeTableWord 8 0b00111000 = some .vitRet ∧
  decode [0b00, 2, 5, 7] = .ok (.cfgBuild [5, 7], []) ∧
  decode [0b10, 1, 0xA5, 0b01] = .ok (.encEncode [0xA5#8], [0b01]) ∧
  decode [0b11, 4, 1, 1, 0, 1] = .ok (.vitDecode [true, true, false, true], [])

/-- R16, R266 (c): the host cannot issue a micro-operation: its words are rejected by name at IDLE. -/
def Obligations.HostCannotIssueMicro : Prop :=
  ∀ (i : Instr) (rest : List Int) (s : State), i.isHost = false → s.seq = .idle → s.hostIn = encode i ++ rest →
    step s = .refused (.badCommand (.notAHostOperation (Int.ofNat i.op.code)))

/-- R94, R96 (the spec's decision D5): the two-bit STATUS codes, all four in use, each naming one status. -/
def Obligations.StatusCodes : Prop :=
  Status.code .ok = 0b00#2 ∧ Status.code .invalidGenerator = 0b01#2 ∧ Status.code .invalidLength = 0b10#2 ∧
  Status.code .noValidPath = 0b11#2 ∧ (∀ e : Status, Status.ofCode e.code = e) ∧
  ∀ c : BitVec 2, (Status.ofCode c).code = c

/-! Steps. -/

/-- R266, R30: at IDLE a step is `exec` of the command decoded at the front of the command stream, its words taken off;
inside an operation it is `exec` of the micro-operation whose words SEQ fetches, followed, when the last entry of the table
has just been written, by the end of TRB.BUILD (R145). -/
def Obligations.StepRunsDecoded : Prop :=
  (∀ (s : State) (i : Instr) (rest : List Int), s.seq = .idle → decodeHost s.hostIn = .ok (i, rest) →
    step s = exec i { s with hostIn := rest }) ∧
  (∀ (s : State) (ws rest : List Int) (i : Instr), s.seq ≠ .idle → s.fetchMicro = .ok ws → decode ws = .ok (i, rest) →
    (∀ t, exec i s = .next t → t.tableDone = false → step s = .next t) ∧
    (∀ t, exec i s = .next t → t.tableDone = true → step s = .next ({ t with ttValid := true }.endOperation .ok .nothing)) ∧
    (∀ f, exec i s = .fault f → step s = .fault f) ∧
    (∀ r, exec i s = .refused r → step s = .refused r))

/-- R250, R262 (log 10): an engine at IDLE with no command, with a code word whose count word is not yet there, or with a command
whose operand stream is not yet whole, waits: the step leaves the state as it is. -/
def Obligations.EngineWaits : Prop :=
  (∀ s : State, s.seq = .idle → s.hostIn = [] → step s = .next s) ∧
  (∀ (s : State) (c : Int), s.seq = .idle → s.hostIn = [c] → (c = 0b00 ∨ c = 0b10 ∨ c = 0b11) → step s = .next s) ∧
  (∀ (s : State) (c m : Int) (items : List Int), s.seq = .idle → s.hostIn = c :: m :: items →
    (c = 0b00 ∨ c = 0b10 ∨ c = 0b11) → (items.length : Int) < m → step s = .next s)

/-- R40, R250: the values the spec gives for power-on reset; the engine then waits for its first host operation. -/
def Obligations.ResetValues : Prop :=
  State.reset.cfgValid = false ∧ State.reset.ttValid = false ∧ State.reset.status = .ok ∧ State.reset.seq = .idle ∧
  State.reset.enc = none ∧ State.reset.vit = none ∧ step State.reset = .next State.reset

/-- The invariant holds after reset. -/
def Obligations.InvAtReset : Prop := EngineInv State.reset

/-- R20 to R36, R171: every step keeps the invariant, from every state that has it. -/
def Obligations.StepKeepsInv : Prop := ∀ s t : State, EngineInv s → step s = .next t → EngineInv t

/-- R227, R266 (d): the engine owes a result to every accepted operation: from a state with the invariant no step faults. -/
def Obligations.StepNeverFaults : Prop := ∀ (s : State) (f : Fault), EngineInv s → step s ≠ .fault f

/-- The same of the step-wise view: it keeps the invariant and never faults. -/
def Obligations.MicroStepKeepsInv : Prop :=
  ∀ s : State, EngineInv s → (∀ t, microStep s = .next t → EngineInv t) ∧ ∀ f, microStep s ≠ .fault f

/-- D1, R125, R145, R160: a host operation run whole, IDLE to IDLE, gives the state that running its micro-operations one
by one gives when SEQ is IDLE again; SEQ is not IDLE in between. -/
def Obligations.StepwiseEqualsWhole : Prop :=
  ∀ (s t : State) (i : Instr) (rest : List Int), s.seq = .idle → s.fetchHost = .command i rest → step s = .next t →
    ∃ k, 1 ≤ k ∧ microRun k s = .next t ∧ t.seq = .idle ∧
      ∀ j, 1 ≤ j → j < k → ∃ u, microRun j s = .next u ∧ u.seq ≠ .idle

/-! Unit CFG. -/

/-- R110, R113, R114, R117: CFG.BUILD of a legal list completes: the slot is written, `CFG_VALID` is 1, `TT_VALID` is 0,
`STATUS` is OK, and everything else is as it was. -/
def Obligations.CfgBuildLegal : Prop :=
  ∀ (s : State) (gens : List Int), s.seq = .idle → LegalGenerators gens → (Instr.cfgBuild gens).wf s.params = true →
    exec (.cfgBuild gens) s = .next
      { s with
        n := gens.length, kreg := constraintLength gens, taps := gens.map Int.toNat, cfgValid := true, ttValid := false
        status := .ok, seq := .idle, enc := none, vit := none, operand := .absent, result := .nothing }

/-- R111: CFG.BUILD fails with InvalidGenerator exactly when the list is empty or a value is <= 0; nothing in the
state tells the two causes apart; a configuration it builds has n >= 1 and every tap vector non-zero. -/
def Obligations.InvalidGeneratorExactly : Prop :=
  ∀ (s : State) (gens : List Int), s.seq = .idle → (Instr.cfgBuild gens).wf s.params = true →
    ∃ t, exec (.cfgBuild gens) s = .next t ∧
      (t.status = .invalidGenerator ↔ gens = [] ∨ ∃ g ∈ gens, g ≤ 0) ∧
      (t.status = .invalidGenerator → ∀ gens', ¬ LegalGenerators gens' → (Instr.cfgBuild gens').wf s.params = true →
        exec (.cfgBuild gens') s = .next t) ∧
      (t.status ≠ .invalidGenerator → t.status = .ok ∧ 1 ≤ t.n ∧ ∀ tap ∈ t.taps, 0 < tap)

/-- R116 (the spec's decision D17): a failed CFG.BUILD leaves N, KREG, T[], CFG_VALID, TT and TT_VALID alone and writes
STATUS and SEQ; R221: nothing but CFG.BUILD reports InvalidGenerator. -/
def Obligations.FailedBuildKeepsSlot : Prop :=
  (∀ (s t : State) (gens : List Int), s.seq = .idle → ¬ LegalGenerators gens → exec (.cfgBuild gens) s = .next t →
    t.n = s.n ∧ t.kreg = s.kreg ∧ t.taps = s.taps ∧ t.cfgValid = s.cfgValid ∧ t.tt = s.tt ∧ t.ttValid = s.ttValid ∧
    t.status = .invalidGenerator ∧ t.seq = .idle ∧ t.params = s.params ∧ t.hostIn = s.hostIn) ∧
  (∀ (i : Instr) (s t : State), exec i s = .next t → t.status = .invalidGenerator →
    s.status = .invalidGenerator ∨ i.op = .cfgBuild)

/-- R112 (bit-length as R12 says from general knowledge: log 27, PRESUMED): K is the largest bit-length minus
one; so 2^K is at most the largest generator and every generator is below 2^(K+1); only the largest generator's top bit matters. -/
def Obligations.ConstraintLengthIsTopBit : Prop :=
  (∀ (s t : State) (gens : List Int), s.seq = .idle → LegalGenerators gens → exec (.cfgBuild gens) s = .next t →
    t.kreg = (gens.map fun g => bitlen g.toNat).foldr max 0 - 1 ∧
    (∃ g ∈ gens, (2 ^ t.kreg : Int) ≤ g) ∧ ∀ g ∈ gens, g < (2 ^ (t.kreg + 1) : Int)) ∧
  constraintLength [5, 7] = 2 ∧ constraintLength [4, 1] = 2 ∧ constraintLength [7] = 2

/-- R113: the i-th tap vector is the i-th generator's bits zero-extended to width K+1, in the order given. -/
def Obligations.TapVectorsInOrder : Prop :=
  ∀ (s t : State) (gens : List Int), s.seq = .idle → LegalGenerators gens → exec (.cfgBuild gens) s = .next t →
    t.taps.length = gens.length ∧
    ∀ (i : Nat) (g : Int), gens[i]? = some g →
      ∃ tap, t.taps[i]? = some tap ∧ (tap : Int) = g ∧ ∀ j, t.kreg < j → tap.testBit j = false

/-- R117 (the spec's decision D18), R254: after a successful CFG.BUILD, also one with the generators already in use,
VIT.DECODE is refused until TRB.BUILD has run, while ENC.ENCODE completes. -/
def Obligations.SuccessInvalidatesTable : Prop :=
  ∀ (s : State) (gens : List Int), s.seq = .idle → LegalGenerators gens → (Instr.cfgBuild gens).wf s.params = true →
    ∃ t u, exec (.cfgBuild gens) s = .next t ∧ t.ttValid = false ∧
      (∀ rx, exec (.vitDecode rx) t = .refused .tableNotValid) ∧
      (∀ bytes, (Instr.encEncode bytes).wf s.params = true → ∃ v, exec (.encEncode bytes) t = .next v) ∧
      exec .trbBuild t = .next u ∧ u.ttValid = true

/-! Unit TRB. -/

/-- R146, R147, R148 (order of the enumeration: the spec's decision D9; addresses: D7): TRB.ENTRY writes its entry, leaves
every other address of the table and every other register alone, and moves SEQ to the pair after it; a state outside
[0, 2^K) has no entry. -/
def Obligations.TrbEntryWrites : Prop :=
  ∀ (s : State) (st : Nat) (d : Bit),
    (st < 2 ^ s.kreg →
      ∃ tt, exec (.trbEntry st d) s = .next
          { s with tt := tt, seq := if d then .trbEntry (st + 1) false else .trbEntry st true } ∧
        Memory.read tt (2 * st + d.toNat) =
          some { out := s.taps.map fun tap => outbit s.kreg tap st d, next := (2 * st + d.toNat) % 2 ^ s.kreg } ∧
        ∀ a, a ≠ 2 * st + d.toNat → Memory.read tt a = Memory.read s.tt a) ∧
    (2 ^ s.kreg ≤ st → exec (.trbEntry st d) s = .fault .noSuchState)

/-- R145, R150: TRB.BUILD on a configured engine completes: every entry of the 2^K states and both inputs is that of the
configuration, TT_VALID is 1, STATUS is OK, addresses outside the table read as before and no other register changes. -/
def Obligations.TrbBuildMakesTable : Prop :=
  ∀ s : State, s.seq = .idle → s.cfgValid = true →
    ∃ tt, exec .trbBuild s = .next
        { s with
          tt := tt, ttValid := true
          status := .ok, seq := .idle, enc := none, vit := none, operand := .absent, result := .nothing } ∧
      (∀ st < 2 ^ s.kreg, ∀ d : Bit, Memory.read tt (window st d) =
        some { out := outputGroup s.kreg s.taps st d, next := nextState s.kreg st d }) ∧
      ∀ a, 2 ^ (s.kreg + 1) ≤ a → Memory.read tt a = Memory.read s.tt a

/-- R149: for K >= 1 the edges into a state s' come from exactly the two predecessors s' >> 1 and (s' >> 1) + 2^(K-1),
both with input bit s'[0]. -/
def Obligations.EdgesOfTheTrellis : Prop :=
  ∀ (k s s' : Nat) (d : Bit), 1 ≤ k → s < 2 ^ k → s' < 2 ^ k →
    (nextState k s d = s' ↔ d = s'.testBit 0 ∧ (s = s' / 2 ∨ s = s' / 2 + 2 ^ (k - 1)))

/-- R128, R208: the output bit is the parity of the tap vector ANDed with the window; it is linear, and zero at zero. -/
def Obligations.OutbitIsLinearParity : Prop :=
  ∀ (k tap st st' : Nat) (d d' : Bit), tap < 2 ^ (k + 1) →
    (outbit k tap st d).toNat = parity (tap &&& window st d) ∧
    outbit k tap (st ^^^ st') (Bool.xor d d') = Bool.xor (outbit k tap st d) (outbit k tap st' d') ∧
    outbit k tap 0 false = false

/-- R98, R254: Construction(gens), CFG.BUILD followed when it succeeds by TRB.BUILD, of a legal list makes an engine ready for
ENC.ENCODE and VIT.DECODE; of any other list it ends with CFG.BUILD's InvalidGenerator, and no TRB.BUILD follows. -/
def Obligations.ConstructionMakesReady : Prop :=
  (∀ (s : State) (gens : List Int), EngineInv s → s.seq = .idle → LegalGenerators gens →
    (Instr.cfgBuild gens).wf s.params = true → s.params.metricFits gens.length = true →
    ∃ t u, exec (.cfgBuild gens) s = .next t ∧ exec .trbBuild t = .next u ∧ runConstruction gens s = .next u ∧ Ready u ∧
      u.n = gens.length ∧ u.kreg = constraintLength gens) ∧
  (∀ (s : State) (gens : List Int), s.seq = .idle → ¬ LegalGenerators gens → (Instr.cfgBuild gens).wf s.params = true →
    ∃ t, exec (.cfgBuild gens) s = .next t ∧ runConstruction gens s = .next t ∧ t.status = .invalidGenerator ∧
      t.ttValid = s.ttValid ∧ t.tt = s.tt)

/-! Unit ENC. -/

/-- R126, R251: ENC.LOAD sets U to the unpacked bytes and K zeros, SR to zeros, UI to 0, CODE to nothing, and SEQ to ENC.STEP,
or to ENC.RET when U is empty, which is when there are no bytes and K = 0. -/
def Obligations.EncLoadStarts : Prop :=
  ∀ (s : State) (inputBytes : List Byte),
    exec (.encLoad inputBytes) s = .next
      { s with
        enc := some { sr := List.replicate s.kreg false, u := unpack inputBytes ++ List.replicate s.kreg false
                      ui := 0, code := [] }
        seq := if inputBytes = [] ∧ s.kreg = 0 then .encRet 0 else .encStep 0 }

/-- R127: ENC.STEP appends the n output bits of the register as it was before the shift, in generator order, each the parity of
(inputBit AND delay-0 tap) and (register[j] AND delay-(j+1) tap), then prepends the input bit and drops the oldest; with no
bit of U left, where R127 gives no meaning, it stops by name (the model's own stop, log 17). -/
def Obligations.EncStepEmitsAndShifts : Prop :=
  ∀ (s : State) (c : EncCall), s.enc = some c → c.sr.length = s.kreg →
    (∀ d, c.u[c.ui]? = some d →
      exec .encStep s = .next
        { s with
          enc := some
            { c with
              code := c.code ++ s.taps.map fun tap =>
                Bool.xor (d && tap.testBit 0) (xorSum (c.sr.mapIdx fun j b => b && tap.testBit (j + 1)))
              sr := (d :: c.sr).take s.kreg
              ui := c.ui + 1 }
          seq := if c.ui + 1 < c.u.length then .encStep (c.ui + 1) else .encRet (c.ui + 1) }) ∧
    (c.u[c.ui]? = none → exec .encStep s = .fault .streamExhausted)

/-- R131, R253: ENC.RET returns CODE with STATUS OK; the call-scoped state is gone and SEQ is IDLE. -/
def Obligations.EncRetReturns : Prop :=
  ∀ (s : State) (c : EncCall), s.enc = some c →
    exec .encRet s = .next
      { s with
        status := .ok, seq := .idle, enc := none, vit := none, operand := .absent, result := .code c.code }

/-- R125, R148: ENC.ENCODE on a configured engine completes: the result is the code of the walk of the unpacked bytes and K
zeros from state 0, STATUS is OK, and nothing else changes. -/
def Obligations.EncodeIsTheWalk : Prop :=
  ∀ (s : State) (bytes : List Byte), s.seq = .idle → s.cfgValid = true → (Instr.encEncode bytes).wf s.params = true →
    exec (.encEncode bytes) s = .next
      { s with
        status := .ok, seq := .idle, enc := none, vit := none, operand := .absent
        result := .code (walkCode s.kreg s.taps 0 (unpack bytes ++ List.replicate s.kreg false)) }

/-- R202: `len(encode(b)) == n * (8*len(b) + K)`. -/
def Obligations.LengthLaw : Prop :=
  ∀ (s : State) (bytes : List Byte), CfgInv s → s.seq = .idle → s.cfgValid = true →
    (Instr.encEncode bytes).wf s.params = true →
    ∃ code, exec (.encEncode bytes) s = .next (s.endOperation .ok (.code code)) ∧
      code.length = s.n * (8 * bytes.length + s.kreg)

/-- R134: the closed form. With u_t = U[t] and u_t = 0 for t < 0, CODE[t*n + i] is the sum modulo 2 over j = 0..K of
T[i][j] AND u_(t-j). -/
def Obligations.EncodeIsConvolution : Prop :=
  ∀ (s : State) (bytes : List Byte), CfgInv s → s.seq = .idle → s.cfgValid = true →
    (Instr.encEncode bytes).wf s.params = true →
    ∃ code, exec (.encEncode bytes) s = .next (s.endOperation .ok (.code code)) ∧
      ∀ t i tap, t < 8 * bytes.length + s.kreg → s.taps[i]? = some tap →
        code[t * s.n + i]? = some (xorSum ((List.range (s.kreg + 1)).map fun j =>
          tap.testBit j && (decide (j ≤ t) && (inputBits s.kreg bytes).getD (t - j) false)))

/-- R132: after the last step of an encoding SR is all zeros. -/
def Obligations.EncoderEndsAtZero : Prop :=
  ∀ (s : State) (i : Nat), EngineInv s → s.seq = .encRet i →
    ∃ c, s.enc = some c ∧ c.sr = List.replicate s.kreg false

/-- R148: the encoder's step from state s with input d emits exactly TT[s, d].out and moves to exactly TT[s, d].next. -/
def Obligations.EncoderFollowsTable : Prop :=
  ∀ (s : State) (c : EncCall) (d : Bit), TableBuilt s → s.enc = some c → c.sr.length = s.kreg → c.u[c.ui]? = some d →
    ∃ e c' t, s.readTable (regState c.sr) d = .ok e ∧ exec .encStep s = .next t ∧ t.enc = some c' ∧
      c'.code = c.code ++ e.out ∧ regState c'.sr = e.next

/-- R54, R55: byte q supplies U[8q+i] = b[7-i]; packing is the inverse of unpacking. -/
def Obligations.ByteAndBitOrder : Prop :=
  (∀ (bytes : List Byte) (q i : Nat) (b : Byte), bytes[q]? = some b → i < 8 →
    (unpack bytes)[8 * q + i]? = some (b.getLsbD (7 - i))) ∧
  (∀ (bits : List Bit) (q : Nat), q < bits.length / 8 → ((pack bits)[q]?.map BitVec.toNat) =
    some ((List.range 8).map fun i => (bits.getD (8 * q + i) false).toNat * 2 ^ (7 - i)).sum) ∧
  (∀ bytes : List Byte, pack (unpack bytes) = bytes) ∧
  (∀ bits : List Bit, bits.length % 8 = 0 → unpack (pack bits) = bits)

/-! Unit VIT, micro-operations. -/

/-- R161: VIT.FRAME raises InvalidLength when the bit count is no multiple of n, and otherwise takes RX, L = len(RX)/n, and
moves SEQ to VIT.INIT. -/
def Obligations.FrameChecksLength : Prop :=
  ∀ (s : State) (rx : List Bit),
    (rx.length % s.n ≠ 0 → exec (.vitFrame rx) s = .next
      { s with
        status := .invalidLength, seq := .idle, enc := none, vit := none, operand := .absent, result := .nothing }) ∧
    (rx.length % s.n = 0 → ∃ c, exec (.vitFrame rx) s = .next { s with vit := some c, seq := .vitInit } ∧
      c.rx = rx ∧ c.l = rx.length / s.n)

/-- R162: VIT.INIT starts with one live trail at state 0, metric 0, and moves SEQ to VIT.BRANCH when L > 0, else to VIT.TERM. -/
def Obligations.InitStartsAtZero : Prop :=
  ∀ (s : State) (c : VitCall), s.vit = some c →
    exec .vitInit s = .next
      { s with
        vit := some { c with live := [{ path := [0], metric := 0 }], cand := [], ti := 0 }
        seq := if 0 < c.l then .vitBranch 0 else .vitTerm 0 }

/-- R163, R165 (the order of the candidates: the spec's decision D9, log 26): VIT.BRANCH extends every live trail by both hypotheses:
CAND[2q+d] is LIVE[q] with TT[s, d].next appended and the Hamming
distance of TT[s, d].out and the symbol added; LIVE and everything else stay. -/
def Obligations.BranchExtendsEveryTrail : Prop :=
  ∀ (s : State) (c : VitCall), s.vit = some c → (c.ti + 1) * s.n ≤ c.rx.length →
    (∀ tr ∈ c.live, ∃ st, tr.path.getLast? = some st ∧ ∀ d : Bit, ∃ e, s.readTable st d = .ok e) →
    ∃ cand, exec .vitBranch s = .next { s with vit := some { c with cand := cand }, seq := .vitMerge c.ti } ∧
      cand.length = 2 * c.live.length ∧
      ∀ (q st : Nat) (tr : Trail) (d : Bit) (e : TTEntry), c.live[q]? = some tr → tr.path.getLast? = some st →
        s.readTable st d = .ok e →
        cand[2 * q + d.toNat]? = some
          { path := tr.path ++ [e.next]
            metric := tr.metric + hamming e.out ((c.rx.drop (c.ti * s.n)).take s.n) }

/-- R209: the Hamming distance of two sequences of length n is in [0, n], zero exactly when they are equal, symmetric, and the
population count of the XOR of the packed words; what it is applied to has n bits on both sides. -/
def Obligations.HammingCountsDifferences : Prop :=
  (∀ a b : List Bit, a.length = b.length →
    hamming a b ≤ a.length ∧ (hamming a b = 0 ↔ a = b) ∧ hamming a b = hamming b a ∧
    hamming a b = popcount (packGroup a ^^^ packGroup b) ∧
    hamming a b = ((List.range a.length).filter fun i => a[i]? != b[i]?).length) ∧
  (∀ (s : State) (st t : Nat) (d : Bit) (rx y : List Bit), CfgInv s → s.cfgValid = true → symbolAt s.n rx t = some y →
    (tableEntry s.kreg s.taps st d).out.length = s.n ∧ y.length = s.n)

/-- R167, R168, R169 (first of equals: the spec's decision D10, log 2; ascending order: D9, log 26): whatever the tie-break, while
there are not 2 * 2^K candidates VIT.MERGE makes LIVE what CAND was; when there are, LIVE has one least-metric candidate of every
state that has a candidate, in ascending state order, and the rest are discarded; with the default tie-break it is the first of
them. TI moves on, SEQ goes to the next symbol or to VIT.TERM, CAND is gone (R34, log 6) and nothing else changes. -/
def Obligations.MergeKeepsTheArgmin : Prop :=
  ∀ (s : State) (c : VitCall), s.vit = some c →
    ∃ live, exec .vitMerge s = .next
        { s with
          vit := some { c with live := live, cand := [], ti := c.ti + 1 }
          seq := if c.ti + 1 < c.l then .vitBranch (c.ti + 1) else .vitTerm (c.ti + 1) } ∧
      (c.cand.length ≠ 2 * 2 ^ s.kreg → live = c.cand) ∧
      (c.cand.length = 2 * 2 ^ s.kreg →
        (∀ tr ∈ live, tr ∈ c.cand ∧ ∃ st < 2 ^ s.kreg, tr.current = some st ∧
          ∀ tr' ∈ c.cand, tr'.current = some st → tr.metric ≤ tr'.metric) ∧
        (∀ st < 2 ^ s.kreg, (∃ tr ∈ c.cand, tr.current = some st) → ∃ tr ∈ live, tr.current = some st) ∧
        (live.Pairwise fun a b => ∀ x y, a.current = some x → b.current = some y → x < y) ∧
        (s.params.laterWins = false →
          ∀ tr : Trail, tr ∈ live ↔ ∃ (j st : Nat), st < 2 ^ s.kreg ∧ c.cand[j]? = some tr ∧ tr.current = some st ∧
            ∀ (j' : Nat) (tr' : Trail), c.cand[j']? = some tr' → tr'.current = some st →
              tr.metric ≤ tr'.metric ∧ (tr'.metric = tr.metric → j ≤ j')))

/-- U1 (the parameter is the model's, log 2): with the tie-break parameter at "later wins" the survivor of a state is the last of its
least-metric candidates, and everything else is as with the default: the trellis still filling, the order, TI, SEQ, the frame. -/
def Obligations.MergeTieBreakParameter : Prop :=
  ∀ (s : State) (c : VitCall), s.vit = some c → s.params.laterWins = true →
    ∃ live, exec .vitMerge s = .next
        { s with
          vit := some { c with live := live, cand := [], ti := c.ti + 1 }
          seq := if c.ti + 1 < c.l then .vitBranch (c.ti + 1) else .vitTerm (c.ti + 1) } ∧
      (c.cand.length ≠ 2 * 2 ^ s.kreg → live = c.cand) ∧
      (c.cand.length = 2 * 2 ^ s.kreg →
        (live.Pairwise fun a b => ∀ x y, a.current = some x → b.current = some y → x < y) ∧
        ∀ tr : Trail, tr ∈ live ↔ ∃ (j st : Nat), st < 2 ^ s.kreg ∧ c.cand[j]? = some tr ∧ tr.current = some st ∧
          ∀ (j' : Nat) (tr' : Trail), c.cand[j']? = some tr' → tr'.current = some st →
            tr.metric ≤ tr'.metric ∧ (tr'.metric = tr.metric → j' ≤ j))

/-- R174: VIT.TERM raises NoValidPath when no live trail is at state 0, and otherwise takes the first of least metric among those
that are. -/
def Obligations.TermChoosesAtZero : Prop :=
  ∀ (s : State) (c : VitCall), s.vit = some c →
    ((∀ tr ∈ c.live, tr.current ≠ some 0) → exec .vitTerm s = .next
      { s with
        status := .noValidPath, seq := .idle, enc := none, vit := none, operand := .absent, result := .nothing }) ∧
    ((∃ tr ∈ c.live, tr.current = some 0) → ∃ (w : Trail) (j : Nat), c.live[j]? = some w ∧ w.current = some 0 ∧
      (∀ (j' : Nat) (tr' : Trail), c.live[j']? = some tr' → tr'.current = some 0 →
        w.metric ≤ tr'.metric ∧ (tr'.metric = w.metric → j ≤ j')) ∧
      exec .vitTerm s = .next { s with vit := some { c with win := some w, metric := some w.metric }, seq := .vitTrace })

/-- R177, R178 (K = 0: the spec's decision D12): VIT.TRACE of a winning path gives, for K >= 1, exactly the input bits of the walk,
each of which is bit 0 of the later state; for K = 0 it gives zeros. -/
def Obligations.TraceReadsTheInputs : Prop :=
  ∀ (s : State) (c : VitCall) (w : Trail) (us : List Bit), s.vit = some c → c.win = some w → TableBuilt s →
    us.length = c.l → w.path = walkPath s.kreg 0 us →
    ∃ ds, exec .vitTrace s = .next { s with vit := some { c with dbits := some ds }, seq := .vitStrip } ∧
      ds.length = c.l ∧
      (1 ≤ s.kreg → ds = us ∧ ∀ i b, w.path[i + 1]? = some b → ds[i]? = some (b.testBit 0)) ∧
      (s.kreg = 0 → ds = List.replicate c.l false)

/-- R179, R60: VIT.STRIP raises InvalidLength when fewer than K decoded bits exist and otherwise drops the last K. -/
def Obligations.StripDropsTheTail : Prop :=
  ∀ (s : State) (c : VitCall) (ds : List Bit), s.vit = some c → c.dbits = some ds →
    (ds.length < s.kreg → exec .vitStrip s = .next
      { s with
        status := .invalidLength, seq := .idle, enc := none, vit := none, operand := .absent, result := .nothing }) ∧
    (∀ kept tail, ds = kept ++ tail → tail.length = s.kreg →
      exec .vitStrip s = .next { s with vit := some { c with dbits := some kept }, seq := .vitPack })

/-- R180: VIT.PACK raises InvalidLength when the remainder is not a multiple of 8 and otherwise packs 8 bits per byte, most
significant first; bits 0,1,1,1,0,0,1,0 pack to byte 72 hexadecimal. -/
def Obligations.PackIsMsbFirst : Prop :=
  (∀ (s : State) (c : VitCall) (ds : List Bit), s.vit = some c → c.dbits = some ds →
    (ds.length % 8 ≠ 0 → exec .vitPack s = .next
      { s with
        status := .invalidLength, seq := .idle, enc := none, vit := none, operand := .absent, result := .nothing }) ∧
    (ds.length % 8 = 0 → ∃ bytes,
      exec .vitPack s = .next { s with vit := some { c with bytes := some bytes }, seq := .vitRet } ∧
      bytes.length = ds.length / 8 ∧
      ∀ q, q < ds.length / 8 → (bytes[q]?.map BitVec.toNat) =
        some ((List.range 8).map fun i => (ds.getD (8 * q + i) false).toNat * 2 ^ (7 - i)).sum)) ∧
  pack [false, true, true, true, false, false, true, false] = [0x72#8]

/-- R181: VIT.RET returns the bytes and the metric with STATUS OK; all call-scoped state is gone and SEQ is IDLE. -/
def Obligations.VitRetReturns : Prop :=
  ∀ (s : State) (c : VitCall) (bytes : List Byte) (m : Nat), s.vit = some c → c.bytes = some bytes → c.metric = some m →
    exec .vitRet s = .next
      { s with
        status := .ok, seq := .idle, enc := none, vit := none, operand := .absent, result := .decoded bytes m }

/-- R170: at the step boundary after t symbols every live metric is at most n * t. -/
def Obligations.MetricBound : Prop :=
  ∀ (s : State) (t : Nat) (c : VitCall), EngineInv s → s.seq = .vitBranch t ∨ s.seq = .vitTerm t → s.vit = some c →
    ∀ tr ∈ c.live, tr.metric ≤ s.n * t

/-- R172: for K >= 1, one symbol of the list form (branch, then merge) gives at every state the trail that the per-state
add-compare-select form gives. -/
def Obligations.AddCompareSelectEquivalent : Prop :=
  ∀ (s : State) (t : Nat) (c : VitCall), EngineInv s → s.seq = .vitBranch t → s.vit = some c → 1 ≤ s.kreg →
    s.params.laterWins = false →
    ∃ s1 s2 c2, exec .vitBranch s = .next s1 ∧ exec .vitMerge s1 = .next s2 ∧ s2.vit = some c2 ∧
      ∀ st < 2 ^ s.kreg, c2.liveAt st =
        addCompareSelect s.kreg (tableEntry s.kreg s.taps) ((c.rx.drop (t * s.n)).take s.n) c.liveAt st

/-! Unit VIT, whole decodings. -/

/-- R222, R59, R60: on a ready engine VIT.DECODE ends with InvalidLength for the three causes and no other, recording nothing else,
and otherwise completes with (L - K)/8 bytes and a metric of at most n * L (R170); nothing but VIT raises InvalidLength. -/
def Obligations.DecodeEndsByLength : Prop :=
  (∀ (s : State) (rx : List Bit), Ready s → (Instr.vitDecode rx).wf s.params = true →
    (¬ WholeFrame s rx → exec (.vitDecode rx) s = .next (s.endOperation .invalidLength .nothing)) ∧
    (WholeFrame s rx → ∃ bytes m, exec (.vitDecode rx) s = .next (s.endOperation .ok (.decoded bytes m)) ∧
      bytes.length = (symbols s rx - s.kreg) / 8 ∧ m ≤ s.n * symbols s rx)) ∧
  (∀ (i : Instr) (s t : State), exec i s = .next t → t.status = .invalidLength →
    s.status = .invalidLength ∨ i.op = .vitDecode ∨ i.op = .vitFrame ∨ i.op = .vitStrip ∨ i.op = .vitPack)

/-- R176: NoValidPath cannot occur: from a state with the invariant no step reports it. -/
def Obligations.NoValidPathNeverRaised : Prop :=
  ∀ s t : State, EngineInv s → s.status ≠ .noValidPath → step s = .next t → t.status ≠ .noValidPath

/-- R182: the metric is the least Hamming distance between RX and the code of any path of L steps from state 0 to state 0, whatever the
tie-break; the winner is such a path, and for K >= 1 the bytes are its inputs without the tail. -/
def Obligations.DecodeFindsNearestPath : Prop :=
  ∀ (s : State) (rx : List Bit), Ready s → (Instr.vitDecode rx).wf s.params = true → WholeFrame s rx →
    ∃ bytes m us, exec (.vitDecode rx) s = .next (s.endOperation .ok (.decoded bytes m)) ∧
      us.length = symbols s rx ∧ walkState s.kreg 0 us = 0 ∧ m = hamming (walkCode s.kreg s.taps 0 us) rx ∧
      (∀ us' : List Bit, us'.length = symbols s rx → walkState s.kreg 0 us' = 0 →
        m ≤ hamming (walkCode s.kreg s.taps 0 us') rx) ∧
      (1 ≤ s.kreg → bytes = pack (us.take (symbols s rx - s.kreg)))

/-- R200, R98: for K >= 1, decode(encode b), ENC.ENCODE b and then VIT.DECODE of exactly the bits it returned, gives the bytes back
with metric 0, whatever the tie-break. -/
def Obligations.RoundTrip : Prop :=
  ∀ (s : State) (bytes : List Byte), Ready s → 1 ≤ s.kreg → (Instr.encEncode bytes).wf s.params = true →
    within s.params.rMax (s.n * (8 * bytes.length + s.kreg)) = true →
    ∃ code t u, exec (.encEncode bytes) s = .next t ∧ t.result = .code code ∧
      exec (.vitDecode code) t = .next u ∧ runEncodeDecode bytes s = .next u ∧ u.result = .decoded bytes 0 ∧ u.status = .ok

/-- R203, R206: any stream of an encoding's length decodes with STATUS OK, to as many bytes, with a metric of at most the number of
positions in which it differs from the encoding. -/
def Obligations.RobustDecode : Prop :=
  ∀ (s : State) (bytes : List Byte) (rx : List Bit), Ready s → (Instr.encEncode bytes).wf s.params = true →
    rx.length = s.n * (8 * bytes.length + s.kreg) → (Instr.vitDecode rx).wf s.params = true →
    ∃ code t u bytes' m, exec (.encEncode bytes) s = .next t ∧ t.result = .code code ∧
      exec (.vitDecode rx) t = .next u ∧ u.status = .ok ∧ u.result = .decoded bytes' m ∧
      bytes'.length = bytes.length ∧ m ≤ hamming code rx

/-- R205: the empty byte sequence encodes to exactly K*n flush-only bits and decodes back to an empty byte sequence with metric 0, for
K = 0 as well. -/
def Obligations.EmptyFrame : Prop :=
  ∀ s : State, Ready s → within s.params.rMax (s.kreg * s.n) = true →
    ∃ t u, exec (.encEncode []) s = .next t ∧ t.result = .code (List.replicate (s.kreg * s.n) false) ∧
      exec (.vitDecode (List.replicate (s.kreg * s.n) false)) t = .next u ∧ u.result = .decoded [] 0 ∧ u.status = .ok

/-- R184 (f) (the spec's decision D12): for K = 0 a decoding gives L/8 zero bytes, and the metric is the sum over the symbols of the
lesser of a symbol's count of ones and its count of zeros. -/
def Obligations.DecodeAtKZero : Prop :=
  ∀ (s : State) (rx : List Bit), Ready s → (Instr.vitDecode rx).wf s.params = true → WholeFrame s rx → s.kreg = 0 →
    exec (.vitDecode rx) s = .next (s.endOperation .ok
      (.decoded (List.replicate (symbols s rx / 8) 0x00#8)
        ((List.range (symbols s rx)).map fun t =>
          min (((rx.drop (t * s.n)).take s.n).count true) (((rx.drop (t * s.n)).take s.n).count false)).sum))

/-! Errors, flags, frames. -/

/-- R224 (the spec's decision D23): a raise writes STATUS and SEQ, leaves no result and no call-scoped state, and touches nothing
else. -/
def Obligations.RaiseIsLocal : Prop :=
  ∀ (e : Status) (s : State), ∃ t, raise e s = .next t ∧ t.status = e ∧ t.seq = .idle ∧ t.result = .nothing ∧
    t.enc = none ∧ t.vit = none ∧ t.operand = .absent ∧
    t.n = s.n ∧ t.kreg = s.kreg ∧ t.taps = s.taps ∧ t.cfgValid = s.cfgValid ∧ t.tt = s.tt ∧ t.ttValid = s.ttValid ∧
    t.params = s.params ∧ t.hostIn = s.hostIn

/-- R39, R29: who writes what. The frame of every operation: the implementation's parameters and the commands still to come are written
by none; N, KREG, T[], CFG_VALID by CFG.BUILD alone; TT by TRB.BUILD and TRB.ENTRY alone, and by those only at the addresses they
build; TT_VALID by CFG.BUILD and TRB.BUILD alone; STATUS and the result only where an operation ends; each unit's call-scoped state
by that unit alone, or gone where an operation ends. -/
def Obligations.WhoWritesWhat : Prop :=
  ∀ (i : Instr) (s t : State), exec i s = .next t →
    t.params = s.params ∧ t.hostIn = s.hostIn ∧
    (i.op ≠ .cfgBuild → t.n = s.n ∧ t.kreg = s.kreg ∧ t.taps = s.taps ∧ t.cfgValid = s.cfgValid) ∧
    (i.op ≠ .trbBuild → i.op ≠ .trbEntry → t.tt = s.tt) ∧
    (i = .trbBuild → ∀ a, 2 ^ (s.kreg + 1) ≤ a → Memory.read t.tt a = Memory.read s.tt a) ∧
    (∀ st d, i = .trbEntry st d → ∀ a, a ≠ window st d → Memory.read t.tt a = Memory.read s.tt a) ∧
    (i.op ≠ .cfgBuild → i.op ≠ .trbBuild → t.ttValid = s.ttValid) ∧
    (t.status = s.status ∨ t.seq = .idle) ∧ (t.result = s.result ∨ t.seq = .idle) ∧
    (t.operand = s.operand ∨ (t.seq = .idle ∧ t.operand = .absent)) ∧
    (i.op ≠ .encLoad → i.op ≠ .encStep → t.enc = s.enc ∨ (t.seq = .idle ∧ t.enc = none)) ∧
    (i.op = .encLoad ∨ i.op = .encStep ∨ i.op = .trbEntry → t.vit = s.vit) ∧
    (i.isHost = true → t.seq = .idle ∧ t.enc = none ∧ t.vit = none)

/-- R38 (the spec's decisions D16, D18): over any step CFG_VALID is never cleared; TT_VALID is cleared only by a CFG.BUILD that ends OK and
set only by a TRB.BUILD. -/
def Obligations.FlagsOverSteps : Prop :=
  ∀ s t : State, step s = .next t →
    (s.cfgValid = true → t.cfgValid = true) ∧
    (s.ttValid = true → t.ttValid = false →
      t.status = .ok ∧ t.cfgValid = true ∧
        (s.seq = .cfgBuild ∨ ∃ gens rest, s.fetchHost = .command (.cfgBuild gens) rest)) ∧
    (s.ttValid = false → t.ttValid = true →
      t.status = .ok ∧ ((∃ st d, s.seq = .trbEntry st d) ∨ ∃ rest, s.fetchHost = .command .trbBuild rest))

/-- R233, R234 (the spec's decision D19), R266 (c), U5, U6, U11: a host operation with its precondition false, issued while another
runs (but CFG.BUILD at (CFG, BUILD, -), its own micro-operation), with an operand beyond a finite capacity or
under a metric register too narrow for its frames gets no step and no result; each is refused under its own name (the names and the order of the tests are the model's, log 13 to 15). -/
def Obligations.ViolatedPreconditionsRefused : Prop :=
  (∀ s : State, s.seq = .idle → s.cfgValid = false →
    exec .trbBuild s = .refused .notConfigured ∧
    (∀ bytes, exec (.encEncode bytes) s = .refused .notConfigured) ∧
    ∀ rx, exec (.vitDecode rx) s = .refused .notConfigured) ∧
  (∀ (s : State) (rx : List Bit), s.seq = .idle → s.cfgValid = true → s.ttValid = false →
    exec (.vitDecode rx) s = .refused .tableNotValid) ∧
  (∀ (s : State) (i : Instr), i.isHost = true → s.seq ≠ .idle → (s.seq = .cfgBuild → i.op ≠ .cfgBuild) →
    exec i s = .refused .engineBusy) ∧
  (∀ (s : State) (gens : List Int) (m : Nat), s.seq = .idle → s.params.nMax = some m → m < gens.length →
    exec (.cfgBuild gens) s = .refused .overCapacity) ∧
  (∀ (s : State) (gens : List Int) (k : Nat) (g : Int), s.seq = .idle → s.params.kMax = some k → g ∈ gens →
    (2 ^ (k + 1) : Int) ≤ g → exec (.cfgBuild gens) s = .refused .overCapacity) ∧
  (∀ (s : State) (bytes : List Byte) (m : Nat), s.seq = .idle → s.cfgValid = true → s.params.bMax = some m →
    m < bytes.length → exec (.encEncode bytes) s = .refused .overCapacity) ∧
  (∀ (s : State) (rx : List Bit) (m : Nat), s.seq = .idle → s.cfgValid = true → s.ttValid = true →
    s.params.rMax = some m → m < rx.length → exec (.vitDecode rx) s = .refused .overCapacity) ∧
  (∀ (s : State) (rx : List Bit), s.seq = .idle → s.cfgValid = true → s.ttValid = true →
    (Instr.vitDecode rx).wf s.params = true → s.params.metricFits s.n = false →
    exec (.vitDecode rx) s = .refused .metricTooNarrow)

/-- R201: each host operation is a function of its operands and of the persistent state R39 lets it read; two idle engines that agree on
that, whatever call-scoped state, result, status and table they hold otherwise, end with the same STATUS, result, configuration and
table. -/
def Obligations.OperationsAreFunctions : Prop :=
  ∀ (i : Instr) (s s' t : State), i.isHost = true → s.seq = .idle → s'.seq = .idle → s'.params = s.params →
    (i.op ≠ .cfgBuild → s'.n = s.n ∧ s'.kreg = s.kreg ∧ s'.taps = s.taps ∧ s'.cfgValid = s.cfgValid) →
    (i.op = .vitDecode → s'.tt = s.tt ∧ s'.ttValid = s.ttValid) →
    exec i s = .next t →
    ∃ t', exec i s' = .next t' ∧ t'.status = t.status ∧ t'.result = t.result ∧
      (t.status = .ok → t'.n = t.n ∧ t'.kreg = t.kreg ∧ t'.taps = t.taps ∧ t'.cfgValid = t.cfgValid ∧
        (i.op = .cfgBuild ∨ i.op = .trbBuild → t'.ttValid = t.ttValid) ∧
        (i.op = .trbBuild → ∀ st < 2 ^ t.kreg, ∀ d : Bit, t'.readTable st d = t.readTable st d))

/-- R63: every host operation is idempotent: issued again with the same operand it leaves the state it left the first time; decoding
does not change the table. -/
def Obligations.OperationsAreIdempotent : Prop :=
  ∀ (i : Instr) (s t : State), i.isHost = true → EngineInv s → s.seq = .idle → exec i s = .next t →
    exec i t = .next t ∧ (i.op = .vitDecode → t.tt = s.tt)
end

