-- ==== Sys2Proof/Laws/State.lean ====
section
/-! SUPPORT. One lemma per field and update of State, so that no proof unfolds a record update. -/

namespace Sys2Proof.Machine

/-! The fields after ending an operation (R253). -/

@[simp] theorem endOperation_params (s : State) (st : Status) (r : Result) : (s.endOperation st r).params = s.params := rfl
@[simp] theorem endOperation_n (s : State) (st : Status) (r : Result) : (s.endOperation st r).n = s.n := rfl
@[simp] theorem endOperation_kreg (s : State) (st : Status) (r : Result) : (s.endOperation st r).kreg = s.kreg := rfl
@[simp] theorem endOperation_taps (s : State) (st : Status) (r : Result) : (s.endOperation st r).taps = s.taps := rfl
@[simp] theorem endOperation_cfgValid (s : State) (st : Status) (r : Result) : (s.endOperation st r).cfgValid = s.cfgValid := rfl
@[simp] theorem endOperation_tt (s : State) (st : Status) (r : Result) : (s.endOperation st r).tt = s.tt := rfl
@[simp] theorem endOperation_ttValid (s : State) (st : Status) (r : Result) : (s.endOperation st r).ttValid = s.ttValid := rfl
@[simp] theorem endOperation_status (s : State) (st : Status) (r : Result) : (s.endOperation st r).status = st := rfl
@[simp] theorem endOperation_seq (s : State) (st : Status) (r : Result) : (s.endOperation st r).seq = .idle := rfl
@[simp] theorem endOperation_enc (s : State) (st : Status) (r : Result) : (s.endOperation st r).enc = none := rfl
@[simp] theorem endOperation_vit (s : State) (st : Status) (r : Result) : (s.endOperation st r).vit = none := rfl
@[simp] theorem endOperation_operand (s : State) (st : Status) (r : Result) : (s.endOperation st r).operand = .absent := rfl
@[simp] theorem endOperation_result (s : State) (st : Status) (r : Result) : (s.endOperation st r).result = r := rfl
@[simp] theorem endOperation_hostIn (s : State) (st : Status) (r : Result) : (s.endOperation st r).hostIn = s.hostIn := rfl

/-! The fields after the flags of a successful CFG.BUILD (R117). -/

@[simp] theorem flagConfigured_params (s : State) : (s.flagConfigured).params = s.params := rfl
@[simp] theorem flagConfigured_n (s : State) : (s.flagConfigured).n = s.n := rfl
@[simp] theorem flagConfigured_kreg (s : State) : (s.flagConfigured).kreg = s.kreg := rfl
@[simp] theorem flagConfigured_taps (s : State) : (s.flagConfigured).taps = s.taps := rfl
@[simp] theorem flagConfigured_cfgValid (s : State) : (s.flagConfigured).cfgValid = true := rfl
@[simp] theorem flagConfigured_tt (s : State) : (s.flagConfigured).tt = s.tt := rfl
@[simp] theorem flagConfigured_ttValid (s : State) : (s.flagConfigured).ttValid = false := rfl
@[simp] theorem flagConfigured_status (s : State) : (s.flagConfigured).status = s.status := rfl
@[simp] theorem flagConfigured_seq (s : State) : (s.flagConfigured).seq = s.seq := rfl
@[simp] theorem flagConfigured_enc (s : State) : (s.flagConfigured).enc = s.enc := rfl
@[simp] theorem flagConfigured_vit (s : State) : (s.flagConfigured).vit = s.vit := rfl
@[simp] theorem flagConfigured_operand (s : State) : (s.flagConfigured).operand = s.operand := rfl
@[simp] theorem flagConfigured_result (s : State) : (s.flagConfigured).result = s.result := rfl
@[simp] theorem flagConfigured_hostIn (s : State) : (s.flagConfigured).hostIn = s.hostIn := rfl

/-! The fields after the flag of TRB.BUILD (R145). -/

@[simp] theorem flagTableBuilt_params (s : State) : (s.flagTableBuilt).params = s.params := rfl
@[simp] theorem flagTableBuilt_n (s : State) : (s.flagTableBuilt).n = s.n := rfl
@[simp] theorem flagTableBuilt_kreg (s : State) : (s.flagTableBuilt).kreg = s.kreg := rfl
@[simp] theorem flagTableBuilt_taps (s : State) : (s.flagTableBuilt).taps = s.taps := rfl
@[simp] theorem flagTableBuilt_cfgValid (s : State) : (s.flagTableBuilt).cfgValid = s.cfgValid := rfl
@[simp] theorem flagTableBuilt_tt (s : State) : (s.flagTableBuilt).tt = s.tt := rfl
@[simp] theorem flagTableBuilt_ttValid (s : State) : (s.flagTableBuilt).ttValid = true := rfl
@[simp] theorem flagTableBuilt_status (s : State) : (s.flagTableBuilt).status = s.status := rfl
@[simp] theorem flagTableBuilt_seq (s : State) : (s.flagTableBuilt).seq = s.seq := rfl
@[simp] theorem flagTableBuilt_enc (s : State) : (s.flagTableBuilt).enc = s.enc := rfl
@[simp] theorem flagTableBuilt_vit (s : State) : (s.flagTableBuilt).vit = s.vit := rfl
@[simp] theorem flagTableBuilt_operand (s : State) : (s.flagTableBuilt).operand = s.operand := rfl
@[simp] theorem flagTableBuilt_result (s : State) : (s.flagTableBuilt).result = s.result := rfl
@[simp] theorem flagTableBuilt_hostIn (s : State) : (s.flagTableBuilt).hostIn = s.hostIn := rfl

/-! The fields after writing a table entry (R146). -/

@[simp] theorem writeTable_params (s : State) (st : Nat) (d : Bit) (e : TTEntry) : (s.writeTable st d e).params = s.params := rfl
@[simp] theorem writeTable_n (s : State) (st : Nat) (d : Bit) (e : TTEntry) : (s.writeTable st d e).n = s.n := rfl
@[simp] theorem writeTable_kreg (s : State) (st : Nat) (d : Bit) (e : TTEntry) : (s.writeTable st d e).kreg = s.kreg := rfl
@[simp] theorem writeTable_taps (s : State) (st : Nat) (d : Bit) (e : TTEntry) : (s.writeTable st d e).taps = s.taps := rfl
@[simp] theorem writeTable_cfgValid (s : State) (st : Nat) (d : Bit) (e : TTEntry) : (s.writeTable st d e).cfgValid = s.cfgValid := rfl
@[simp] theorem writeTable_tt (s : State) (st : Nat) (d : Bit) (e : TTEntry) : (s.writeTable st d e).tt = Memory.write s.tt (window st d) e := rfl
@[simp] theorem writeTable_ttValid (s : State) (st : Nat) (d : Bit) (e : TTEntry) : (s.writeTable st d e).ttValid = s.ttValid := rfl
@[simp] theorem writeTable_status (s : State) (st : Nat) (d : Bit) (e : TTEntry) : (s.writeTable st d e).status = s.status := rfl
@[simp] theorem writeTable_seq (s : State) (st : Nat) (d : Bit) (e : TTEntry) : (s.writeTable st d e).seq = s.seq := rfl
@[simp] theorem writeTable_enc (s : State) (st : Nat) (d : Bit) (e : TTEntry) : (s.writeTable st d e).enc = s.enc := rfl
@[simp] theorem writeTable_vit (s : State) (st : Nat) (d : Bit) (e : TTEntry) : (s.writeTable st d e).vit = s.vit := rfl
@[simp] theorem writeTable_operand (s : State) (st : Nat) (d : Bit) (e : TTEntry) : (s.writeTable st d e).operand = s.operand := rfl
@[simp] theorem writeTable_result (s : State) (st : Nat) (d : Bit) (e : TTEntry) : (s.writeTable st d e).result = s.result := rfl
@[simp] theorem writeTable_hostIn (s : State) (st : Nat) (d : Bit) (e : TTEntry) : (s.writeTable st d e).hostIn = s.hostIn := rfl

/-! The fields after writing the configuration slot (R112 to R114). -/

@[simp] theorem configured_params (s : State) (gens : List Int) : (s.configured gens).params = s.params := rfl
@[simp] theorem configured_n (s : State) (gens : List Int) : (s.configured gens).n = gens.length := rfl
@[simp] theorem configured_kreg (s : State) (gens : List Int) : (s.configured gens).kreg = constraintLength gens := rfl
@[simp] theorem configured_taps (s : State) (gens : List Int) : (s.configured gens).taps = tapVectors gens := rfl
@[simp] theorem configured_cfgValid (s : State) (gens : List Int) : (s.configured gens).cfgValid = s.cfgValid := rfl
@[simp] theorem configured_tt (s : State) (gens : List Int) : (s.configured gens).tt = s.tt := rfl
@[simp] theorem configured_ttValid (s : State) (gens : List Int) : (s.configured gens).ttValid = s.ttValid := rfl
@[simp] theorem configured_status (s : State) (gens : List Int) : (s.configured gens).status = s.status := rfl
@[simp] theorem configured_seq (s : State) (gens : List Int) : (s.configured gens).seq = s.seq := rfl
@[simp] theorem configured_enc (s : State) (gens : List Int) : (s.configured gens).enc = s.enc := rfl
@[simp] theorem configured_vit (s : State) (gens : List Int) : (s.configured gens).vit = s.vit := rfl
@[simp] theorem configured_operand (s : State) (gens : List Int) : (s.configured gens).operand = s.operand := rfl
@[simp] theorem configured_result (s : State) (gens : List Int) : (s.configured gens).result = s.result := rfl
@[simp] theorem configured_hostIn (s : State) (gens : List Int) : (s.configured gens).hostIn = s.hostIn := rfl

/-! The fields after power-on reset that the spec gives (R40, R250). -/

@[simp] theorem reset_cfgValid : State.reset.cfgValid = false := rfl
@[simp] theorem reset_ttValid : State.reset.ttValid = false := rfl
@[simp] theorem reset_status : State.reset.status = .ok := rfl
@[simp] theorem reset_seq : State.reset.seq = .idle := rfl
@[simp] theorem reset_tt : State.reset.tt = [] := rfl
@[simp] theorem reset_enc : State.reset.enc = none := rfl
@[simp] theorem reset_vit : State.reset.vit = none := rfl
@[simp] theorem reset_operand : State.reset.operand = .absent := rfl
@[simp] theorem reset_result : State.reset.result = .nothing := rfl
@[simp] theorem reset_hostIn : State.reset.hostIn = [] := rfl
@[simp] theorem reset_params : State.reset.params = Params.standard := rfl

/-! The operation a start leaves the persistent state alone (R39). -/

theorem started_keeps (s : State) (i : Instr) :
    (s.started i).params = s.params ∧ (s.started i).n = s.n ∧ (s.started i).kreg = s.kreg ∧
    (s.started i).taps = s.taps ∧ (s.started i).cfgValid = s.cfgValid ∧ (s.started i).tt = s.tt ∧
    (s.started i).ttValid = s.ttValid ∧ (s.started i).status = s.status ∧ (s.started i).enc = s.enc ∧
    (s.started i).vit = s.vit ∧ (s.started i).result = s.result ∧ (s.started i).hostIn = s.hostIn := by
  cases i <;> simp [State.started]

end Sys2Proof.Machine
end

