-- ==== Sys2Proof/Laws/Ops.lean ====
section
/-! SUPPORT. What each shared operation can do, said once: the table memory, sequencing, raising, ending and starting
an operation. -/

namespace Sys2Proof.Machine

/-! The transition-table memory. -/

theorem Memory.read_write_same (m : Memory) (x : Nat) (v : TTEntry) :
    Memory.read (Memory.write m x v) x = some v := by
  induction m with
  | nil => simp [Memory.write, Memory.read]
  | cons p m ih =>
    obtain ⟨a, e⟩ := p
    simp only [Memory.write]
    split
    · simp [Memory.read]
    · split
      · simp [Memory.read]
      · rename_i h
        simp [Memory.read, Ne.symm h, ih]

theorem Memory.read_write_other (m : Memory) {x y : Nat} (v : TTEntry) (h : y ≠ x) :
    Memory.read (Memory.write m x v) y = Memory.read m y := by
  induction m with
  | nil => simp [Memory.write, Memory.read, Ne.symm h]
  | cons p m ih =>
    obtain ⟨a, e⟩ := p
    simp only [Memory.write]
    split
    · simp [Memory.read, Ne.symm h]
    · split
      · rename_i hx
        subst hx
        simp [Memory.read, Ne.symm h]
      · by_cases hy : a = y <;> simp [Memory.read, hy, ih]

/-- Read after write, both cases. -/
theorem Memory.read_write (m : Memory) (x y : Nat) (v : TTEntry) :
    Memory.read (Memory.write m x v) y = if y = x then some v else Memory.read m y := by
  split
  · rename_i h
    subst h
    exact Memory.read_write_same m y v
  · exact Memory.read_write_other m v ‹_›

theorem Memory.wf_cons (a : Nat) (e : TTEntry) (m : Memory) :
    Memory.wf ((a, e) :: m) = true ↔ (∀ p ∈ m.head?, a < p.1) ∧ Memory.wf m = true := by
  cases m with
  | nil => simp [Memory.wf]
  | cons p m => simp [Memory.wf]

theorem Memory.head_write (m : Memory) (x : Nat) (v : TTEntry) :
    ∃ e : Nat × TTEntry, (Memory.write m x v).head? = some e ∧ (e.1 = x ∨ ∃ p ∈ m.head?, e.1 = p.1) := by
  cases m with
  | nil => exact ⟨(x, v), by simp [Memory.write]⟩
  | cons p m =>
    obtain ⟨a, e⟩ := p
    simp only [Memory.write]
    split
    · exact ⟨(x, v), by simp⟩
    · split
      · exact ⟨(x, v), by simp⟩
      · exact ⟨(a, e), by simp⟩

/-- A write keeps the canonical form. -/
theorem Memory.wf_write {m : Memory} (h : Memory.wf m = true) (x : Nat) (v : TTEntry) :
    Memory.wf (Memory.write m x v) = true := by
  induction m with
  | nil => rfl
  | cons p m ih =>
    obtain ⟨a, e⟩ := p
    have hc := (Memory.wf_cons a e m).mp h
    simp only [Memory.write]
    split
    · rw [Memory.wf_cons]
      exact ⟨by simpa using ‹x < a›, h⟩
    · split
      · rename_i hx
        subst hx
        rw [Memory.wf_cons]
        exact hc
      · rw [Memory.wf_cons]
        refine ⟨?_, ih hc.2⟩
        obtain ⟨e', he, hx | ⟨p, hp, hx⟩⟩ := Memory.head_write m x v
        · intro q hq
          rw [he] at hq
          simp at hq
          subst hq
          simp [hx]
          omega
        · intro q hq
          rw [he] at hq
          simp at hq
          subst hq
          simp [hx]
          exact hc.1 p hp

/-- The reset memory is in canonical form. -/
theorem reset_tt_wf : Memory.wf State.reset.tt = true := rfl

/-- Every key of a canonical memory below a cons is above its head. -/
theorem Memory.head_lt_of_read {a : Nat} {e : TTEntry} {m : Memory} (h : Memory.wf ((a, e) :: m) = true) {x : Nat}
    {v : TTEntry} (hr : Memory.read m x = some v) : a < x := by
  induction m generalizing a e with
  | nil => simp [Memory.read] at hr
  | cons p m ih =>
    obtain ⟨b, f⟩ := p
    have hc := (Memory.wf_cons a e _).mp h
    have hab : a < b := hc.1 (b, f) (by simp)
    simp only [Memory.read] at hr
    split at hr
    · omega
    · exact Nat.lt_trans hab (ih hc.2 hr)

/-- Two canonical memories that read alike are equal. -/
theorem Memory.ext_of_wf {m m' : Memory} (h : Memory.wf m = true) (h' : Memory.wf m' = true)
    (hr : ∀ x, Memory.read m x = Memory.read m' x) : m = m' := by
  induction m generalizing m' with
  | nil =>
    cases m' with
    | nil => rfl
    | cons p m' =>
      obtain ⟨b, f⟩ := p
      have := hr b
      simp [Memory.read] at this
  | cons p m ih =>
    obtain ⟨a, e⟩ := p
    cases m' with
    | nil =>
      have := hr a
      simp [Memory.read] at this
    | cons p' m' =>
      obtain ⟨b, f⟩ := p'
      have hab : a = b := by
        rcases Nat.lt_trichotomy a b with hlt | heq | hgt
        · have h1 := hr a
          simp only [Memory.read, if_true] at h1
          rw [if_neg (by omega)] at h1
          have := Memory.head_lt_of_read h' h1.symm
          omega
        · exact heq
        · have h1 := hr b
          simp only [Memory.read, if_true] at h1
          rw [if_neg (by omega)] at h1
          have := Memory.head_lt_of_read h h1
          omega
      subst hab
      have hef : e = f := by
        have h1 := hr a
        simpa [Memory.read] using h1
      subst hef
      have hm : m = m' := by
        refine ih ((Memory.wf_cons _ _ _).mp h).2 ((Memory.wf_cons _ _ _).mp h').2 fun x => ?_
        have h1 := hr x
        simp only [Memory.read] at h1
        by_cases hx : a = x
        · subst hx
          cases hm : Memory.read m a with
          | some v => exact absurd (Memory.head_lt_of_read h hm) (Nat.lt_irrefl _)
          | none =>
            cases hm' : Memory.read m' a with
            | some v => exact absurd (Memory.head_lt_of_read h' hm') (Nat.lt_irrefl _)
            | none => rfl
        · simpa [hx] using h1
      rw [hm]

/-- Writing what is already there changes nothing. -/
theorem Memory.write_read {m : Memory} (h : Memory.wf m = true) {x : Nat} {v : TTEntry}
    (hr : Memory.read m x = some v) : Memory.write m x v = m := by
  refine Memory.ext_of_wf (Memory.wf_write h x v) h fun y => ?_
  rw [Memory.read_write]
  split
  · rename_i hy
    subst hy
    exact hr.symm
  · rfl

/-! Sequencing. -/

@[simp] theorem andThen_fault (r : Fault) (f : State → Out) : andThen (.fault r) f = .fault r := rfl
@[simp] theorem andThen_refused (r : Refusal) (f : State → Out) : andThen (.refused r) f = .refused r := rfl

theorem andThen_next (s : State) (f : State → Out) :
    andThen (.next s) f = if s.seq = .idle then .next s else f s := rfl

@[simp] theorem andThen_idle {s : State} (h : s.seq = .idle) (f : State → Out) : andThen (.next s) f = .next s := by
  simp [andThen_next, h]

@[simp] theorem andThen_running {s : State} (h : s.seq ≠ .idle) (f : State → Out) : andThen (.next s) f = f s := by
  simp [andThen_next, h]

/-- All that a sequence can do when it answers a next state. -/
theorem andThen_eq_next {o : Out} {f : State → Out} {t : State} :
    andThen o f = .next t ↔ (o = .next t ∧ t.seq = .idle) ∨ ∃ s, o = .next s ∧ s.seq ≠ .idle ∧ f s = .next t := by
  cases o with
  | next s =>
    rw [andThen_next]
    by_cases h : s.seq = .idle
    · simp only [h, if_true]
      constructor
      · intro ht
        injection ht with ht
        subst ht
        exact .inl ⟨rfl, h⟩
      · rintro (⟨ht, _⟩ | ⟨u, hu, hne, _⟩)
        · exact ht
        · injection hu with hu
          subst hu
          exact absurd h hne
    · simp only [h, if_false]
      constructor
      · intro ht
        exact .inr ⟨s, rfl, h, ht⟩
      · rintro (⟨ht, hi⟩ | ⟨u, hu, _, hf⟩)
        · injection ht with ht
          subst ht
          exact absurd hi h
        · injection hu with hu
          subst hu
          exact hf
  | fault r => simp
  | refused r => simp

@[simp] theorem orFault_ok {α : Type} (a : α) (f : α → Out) : orFault (.ok a) f = f a := rfl
@[simp] theorem orFault_error {α : Type} (e : Fault) (f : α → Out) : orFault (.error e) f = .fault e := rfl

theorem orFault_eq_next {α : Type} {v : Except Fault α} {f : α → Out} {t : State} :
    orFault v f = .next t ↔ ∃ a, v = .ok a ∧ f a = .next t := by
  cases v <;> simp [orFault]

/-! Raising, ending, starting. -/

/-- R224: everything a raise does. -/
@[simp] theorem raise_eq (e : Status) (s : State) : raise e s = .next (s.endOperation e .nothing) := rfl

@[simp] theorem complete_eq (r : Result) (s : State) : complete r s = .next (s.endOperation .ok r) := rfl

theorem start_eq_next {i : Instr} {s t : State} :
    start i s = .next t ↔ s.refusalOf i = none ∧ t = s.started i := by
  unfold start
  cases s.refusalOf i with
  | none => simp [eq_comm]
  | some r => simp

theorem start_of_ready {i : Instr} {s : State} (h : s.refusalOf i = none) : start i s = .next (s.started i) := by
  simp [start, h]

theorem start_refused {i : Instr} {s : State} {r : Refusal} (h : s.refusalOf i = some r) :
    start i s = .refused r := by
  simp [start, h]

/-- R233: when each host operation's preconditions hold. -/
theorem refusalOf_cfgBuild {s : State} {gens : List Int} :
    s.refusalOf (.cfgBuild gens) = none ↔
      (s.seq = .idle ∨ s.seq = .cfgBuild) ∧ (Instr.cfgBuild gens).wf s.params = true := by
  unfold State.refusalOf State.mayIssue
  by_cases h1 : s.seq = .idle <;> by_cases h2 : s.seq = .cfgBuild <;> simp [Instr.isHost, h1, h2]

theorem refusalOf_trbBuild {s : State} :
    s.refusalOf .trbBuild = none ↔ s.seq = .idle ∧ s.cfgValid = true := by
  unfold State.refusalOf State.mayIssue
  by_cases h1 : s.seq = .idle <;> simp [Instr.isHost, h1]

theorem refusalOf_encEncode {s : State} {inputBytes : List Byte} :
    s.refusalOf (.encEncode inputBytes) = none ↔
      s.seq = .idle ∧ s.cfgValid = true ∧ (Instr.encEncode inputBytes).wf s.params = true := by
  unfold State.refusalOf State.mayIssue
  by_cases h1 : s.seq = .idle <;> cases h2 : s.cfgValid <;> simp [Instr.isHost, h1]

theorem refusalOf_vitDecode {s : State} {receivedBits : List Bit} :
    s.refusalOf (.vitDecode receivedBits) = none ↔
      s.seq = .idle ∧ s.cfgValid = true ∧ s.ttValid = true ∧ (Instr.vitDecode receivedBits).wf s.params = true ∧
        s.params.metricFits s.n = true := by
  unfold State.refusalOf State.mayIssue
  by_cases h1 : s.seq = .idle <;> cases h2 : s.cfgValid <;> cases h3 : s.ttValid <;>
    cases h4 : (Instr.vitDecode receivedBits).wf s.params <;> simp [Instr.isHost, h1]

/-! Reading the call-scoped state and the table. -/

theorem encCall_eq {s : State} {c : EncCall} : s.encCall = .ok c ↔ s.enc = some c := by
  unfold State.encCall
  cases s.enc <;> simp

theorem vitCall_eq {s : State} {c : VitCall} : s.vitCall = .ok c ↔ s.vit = some c := by
  unfold State.vitCall
  cases s.vit <;> simp

@[simp] theorem written_eq {α : Type} {o : Option α} {v : α} : written o = .ok v ↔ o = some v := by
  cases o <;> simp [written]

theorem readTable_eq {s : State} {st : Nat} {d : Bit} {e : TTEntry} :
    s.readTable st d = .ok e ↔ isState s.kreg st = true ∧ Memory.read s.tt (window st d) = some e := by
  unfold State.readTable
  cases isState s.kreg st <;> cases Memory.read s.tt (window st d) <;> simp

/-- A read depends on the geometry and the memory alone. -/
theorem readTable_congr {s t : State} (hk : s.kreg = t.kreg) (ht : s.tt = t.tt) (st : Nat) (d : Bit) :
    s.readTable st d = t.readTable st d := by
  simp [State.readTable, hk, ht]

end Sys2Proof.Machine
end

