-- ==== Sys2Proof/Laws/Operands.lean ====
section
/-! SUPPORT. The small lemmas of the data formats, the taps, the shift and the walks. -/

namespace Sys2Proof.Machine

/-! States and windows (R83, R84). -/

theorem isState_iff {k : Nat} {st : Nat} : isState k st = true ↔ st < 2 ^ k := by
  have h : 0 < 2 ^ k := Nat.two_pow_pos k
  simp only [isState, Bool.or_eq_true, beq_iff_eq, decide_eq_true_eq]
  omega

theorem toNat_le_one (d : Bit) : d.toNat ≤ 1 := by cases d <;> simp

@[simp] theorem window_div_two (st : Nat) (d : Bit) : window st d / 2 = st := by
  have := toNat_le_one d
  unfold window
  omega

@[simp] theorem window_mod_two (st : Nat) (d : Bit) : window st d % 2 = d.toNat := by
  have := toNat_le_one d
  unfold window
  omega

/-- A window names its state and its bit. -/
theorem window_inj {st st' : Nat} {d d' : Bit} (h : window st d = window st' d') : st = st' ∧ d = d' := by
  have h1 := window_div_two st d
  have h2 := window_mod_two st d
  rw [h] at h1 h2
  simp only [window_div_two, window_mod_two] at h1 h2
  refine ⟨h1.symm, ?_⟩
  cases d <;> cases d' <;> simp_all

@[simp] theorem window_testBit_zero (st : Nat) (d : Bit) : (window st d).testBit 0 = d := by
  rw [Nat.testBit_zero, window_mod_two]
  cases d <;> simp

@[simp] theorem window_testBit_succ (st : Nat) (d : Bit) (j : Nat) :
    (window st d).testBit (j + 1) = st.testBit j := by
  rw [Nat.testBit_succ, window_div_two]

theorem nextState_lt (k : Nat) (st : Nat) (d : Bit) : nextState k st d < 2 ^ k :=
  Nat.mod_lt _ (Nat.two_pow_pos k)

/-- While the trellis fills, the window is the next state (R169). -/
theorem nextState_eq_window {k : Nat} {st : Nat} {d : Bit} (h : window st d < 2 ^ k) :
    nextState k st d = window st d := Nat.mod_eq_of_lt h

theorem nextState_testBit (k : Nat) (st : Nat) (d : Bit) (j : Nat) :
    (nextState k st d).testBit j = (decide (j < k) && (window st d).testBit j) := by
  rw [nextState, Nat.testBit_mod_two_pow]

/-! The register and its state word (R26, R92). -/

theorem regState_cons (b : Bit) (sr : List Bit) : regState (b :: sr) = window (regState sr) b := by
  simp [regState, window, Nat.add_comm]

theorem regState_lt (sr : List Bit) : regState sr < 2 ^ sr.length := by
  induction sr with
  | nil => simp [regState]
  | cons b sr ih =>
    have := toNat_le_one b
    simp only [regState, List.length_cons, Nat.pow_succ]
    omega

theorem regState_testBit (sr : List Bit) (j : Nat) : (regState sr).testBit j = sr[j]?.getD false := by
  induction sr generalizing j with
  | nil => simp [regState]
  | cons b sr ih =>
    rw [regState_cons]
    cases j with
    | zero => simp
    | succ j => simp [ih]

@[simp] theorem regState_zeros (k : Nat) : regState (List.replicate k false) = 0 := by
  induction k with
  | zero => rfl
  | succ k ih => simp [List.replicate_succ, regState, ih]

@[simp] theorem shiftIn_length (sr : List Bit) (d : Bit) : (shiftIn sr d).length = sr.length := by
  simp [shiftIn]

/-- R130: the shift is the next-state function on the state word. -/
theorem regState_shiftIn (sr : List Bit) (d : Bit) :
    regState (shiftIn sr d) = nextState sr.length (regState sr) d := by
  apply Nat.eq_of_testBit_eq
  intro j
  rw [nextState_testBit, regState_testBit, ← regState_cons, regState_testBit, shiftIn, List.getElem?_dropLast]
  by_cases h : j < sr.length
  · simp [h]
  · simp [h]

/-! The taps (R128). -/

theorem xorSum_cons (b : Bit) (bs : List Bit) : xorSum (b :: bs) = Bool.xor b (xorSum bs) := rfl

theorem xorSum_append (as bs : List Bit) : xorSum (as ++ bs) = Bool.xor (xorSum as) (xorSum bs) := by
  induction as with
  | nil => simp [xorSum]
  | cons a as ih => rw [List.cons_append, xorSum_cons, xorSum_cons, ih, Bool.xor_assoc]

theorem xorSum_map_xor {α : Type} (f g : α → Bit) (xs : List α) :
    xorSum (xs.map fun x => Bool.xor (f x) (g x)) = Bool.xor (xorSum (xs.map f)) (xorSum (xs.map g)) := by
  induction xs with
  | nil => rfl
  | cons x xs ih =>
    simp only [List.map_cons, xorSum_cons, ih]
    cases f x <;> cases g x <;> simp

/-- R84, R128: the output bit is the sum modulo 2 of the window's bits under the taps. -/
theorem outbit_eq_window (k : Nat) (tap : Nat) (st : Nat) (d : Bit) :
    outbit k tap st d =
      xorSum ((List.range (k + 1)).map fun j => (window st d).testBit j && tap.testBit j) := by
  rw [List.range_succ_eq_map, List.map_cons, xorSum_cons, List.map_map]
  simp [outbit, Function.comp_def]

@[simp] theorem outputGroup_length (k : Nat) (taps : List Nat) (st : Nat) (d : Bit) :
    (outputGroup k taps st d).length = taps.length := by
  simp [outputGroup]

/-! Streams (R54, R55, R90, R91). -/

@[simp] theorem unpack_length (bytes : List Byte) : (unpack bytes).length = 8 * bytes.length := by
  induction bytes with
  | nil => rfl
  | cons b bytes ih =>
    have : unpack (b :: bytes) = unpackByte b ++ unpack bytes := rfl
    simp [this, ih, unpackByte]
    omega

@[simp] theorem inputBits_length (k : Nat) (bytes : List Byte) :
    (inputBits k bytes).length = 8 * bytes.length + k := by
  simp [inputBits]

theorem pack_length (bits : List Bit) : (pack bits).length = bits.length / 8 := by
  induction bits using pack.induct with
  | case1 a b c d e f g h rest ih =>
    simp only [pack, List.length_cons, ih]
    omega
  | case2 bits h =>
    match bits, h with
    | [], _ => simp [pack]
    | [_], _ => simp [pack]
    | [_, _], _ => simp [pack]
    | [_, _, _], _ => simp [pack]
    | [_, _, _, _], _ => simp [pack]
    | [_, _, _, _, _], _ => simp [pack]
    | [_, _, _, _, _, _], _ => simp [pack]
    | [_, _, _, _, _, _, _], _ => simp [pack]
    | a :: b :: c :: d :: e :: f :: g :: h :: rest, hn => exact absurd rfl (hn a b c d e f g h rest)

theorem symbolAt_eq {n : Nat} {rx : List Bit} {t : Nat} {y : List Bit} :
    symbolAt n rx t = some y ↔ y = (rx.drop (t * n)).take n ∧ y.length = n := by
  simp only [symbolAt]
  constructor
  · intro h
    split at h
    · injection h with h
      subst h
      exact ⟨rfl, ‹_›⟩
    · cases h
  · rintro ⟨rfl, hl⟩
    simp only [hl, if_true]

theorem symbolAt_of_le {n : Nat} {rx : List Bit} {t : Nat} (h : (t + 1) * n ≤ rx.length) :
    symbolAt n rx t = some ((rx.drop (t * n)).take n) := by
  rw [symbolAt_eq]
  refine ⟨rfl, ?_⟩
  have : (t + 1) * n = t * n + n := by ring
  simp only [List.length_take, List.length_drop]
  omega

/-! The Hamming distance of sequences put together (R14). -/

theorem hamming_cons (a b : Bit) (as bs : List Bit) :
    hamming (a :: as) (b :: bs) = (Bool.xor a b).toNat + hamming as bs := rfl

theorem hamming_append {as bs : List Bit} (h : as.length = bs.length) (cs ds : List Bit) :
    hamming (as ++ cs) (bs ++ ds) = hamming as bs + hamming cs ds := by
  induction as generalizing bs with
  | nil =>
    cases bs with
    | nil => simp [hamming]
    | cons b bs => simp at h
  | cons a as ih =>
    cases bs with
    | nil => simp at h
    | cons b bs =>
      simp only [List.cons_append, hamming_cons, ih (by simpa using h)]
      omega

/-! Walks. -/

@[simp] theorem walkPath_length (k : Nat) (st : Nat) (us : List Bit) :
    (walkPath k st us).length = us.length + 1 := by
  induction us generalizing st with
  | nil => rfl
  | cons d us ih => simp [walkPath, ih]

@[simp] theorem walkCode_length (k : Nat) (taps : List Nat) (st : Nat) (us : List Bit) :
    (walkCode k taps st us).length = us.length * taps.length := by
  induction us generalizing st with
  | nil => simp [walkCode]
  | cons d us ih =>
    simp only [walkCode, List.length_append, outputGroup_length, ih, List.length_cons]
    ring

theorem walkState_append (k : Nat) (st : Nat) (us vs : List Bit) :
    walkState k st (us ++ vs) = walkState k (walkState k st us) vs := by
  induction us generalizing st with
  | nil => rfl
  | cons d us ih => exact ih _

theorem walkCode_append (k : Nat) (taps : List Nat) (st : Nat) (us vs : List Bit) :
    walkCode k taps st (us ++ vs) = walkCode k taps st us ++ walkCode k taps (walkState k st us) vs := by
  induction us generalizing st with
  | nil => rfl
  | cons d us ih => simp [walkCode, walkState, ih]

theorem walkPath_snoc (k : Nat) (st : Nat) (us : List Bit) (d : Bit) :
    walkPath k st (us ++ [d]) = walkPath k st us ++ [nextState k (walkState k st us) d] := by
  induction us generalizing st with
  | nil => rfl
  | cons e us ih => simp [walkPath, walkState, ih]

theorem walkPath_ne_nil (k : Nat) (st : Nat) (us : List Bit) : walkPath k st us ≠ [] := by
  cases us <;> simp [walkPath]

/-- The last state of a walk. -/
theorem walkPath_getLast? (k : Nat) (st : Nat) (us : List Bit) :
    (walkPath k st us).getLast? = some (walkState k st us) := by
  induction us generalizing st with
  | nil => rfl
  | cons d us ih =>
    have hne := walkPath_ne_nil k (nextState k st d) us
    obtain ⟨a, l, hl⟩ := List.exists_cons_of_ne_nil hne
    simp only [walkPath, walkState]
    rw [← ih, hl, List.getLast?_cons_cons]

theorem walkState_lt {k : Nat} {st : Nat} (h : st < 2 ^ k) (us : List Bit) : walkState k st us < 2 ^ k := by
  induction us generalizing st with
  | nil => exact h
  | cons d us ih => exact ih (nextState_lt k st d)

end Sys2Proof.Machine
end

