-- ==== Sys2Proof/Laws/Units.lean ====
section
/-! SUPPORT. What each micro-operation can do when it answers a next state, said once; and the positions of the
candidate list and of the survivors. -/

namespace Sys2Proof.Machine

/-! Unit CFG. -/

theorem badGenerators_eq_false {gens : List Int} : badGenerators gens = false ↔ LegalGenerators gens := by
  unfold badGenerators LegalGenerators
  cases gens with
  | nil => simp
  | cons g gens => simp

theorem buildConfig_eq_next {gens : List Int} {s t : State} (h : buildConfig gens s = .next t) :
    (badGenerators gens = true ∧ t = s.endOperation .invalidGenerator .nothing) ∨
    (badGenerators gens = false ∧ t = ((s.configured gens).flagConfigured).endOperation .ok .nothing) := by
  unfold buildConfig at h
  cases hb : badGenerators gens with
  | true => simp [hb] at h; exact .inl ⟨rfl, h.symm⟩
  | false => simp [hb] at h; exact .inr ⟨rfl, h.symm⟩

/-! Unit TRB. -/

theorem execTrbEntry_eq_next {st : Nat} {d : Bit} {s t : State} :
    execTrbEntry st d s = .next t ↔ st < 2 ^ s.kreg ∧
      t = { s.writeTable st d (tableEntry s.kreg s.taps st d) with
            seq := .trbEntry (pairAfter st d).1 (pairAfter st d).2 } := by
  unfold execTrbEntry
  by_cases h : st < 2 ^ s.kreg
  · rw [if_pos (isState_iff.mpr h)]
    simp only [Host.Outcome.next.injEq, h, true_and]
    exact eq_comm
  · rw [if_neg (by rwa [isState_iff])]
    simp [h]

theorem window_pairAfter (st : Nat) (d : Bit) :
    window (pairAfter st d).1 (pairAfter st d).2 = window st d + 1 := by
  cases d
  · simp [pairAfter, window]
  · simp [pairAfter, window]
    omega

/-! Unit ENC. -/

theorem execEncStep_eq_next {s t : State} :
    execEncStep s = .next t ↔ ∃ c d, s.enc = some c ∧ c.u[c.ui]? = some d ∧
      t = { s with enc := some (c.stepped s.kreg s.taps d), seq := encNext c.u (c.ui + 1) } := by
  unfold execEncStep
  rw [orFault_eq_next]
  constructor
  · rintro ⟨c, hc, h⟩
    rw [encCall_eq] at hc
    cases hd : c.u[c.ui]? with
    | none => simp [hd] at h
    | some d =>
      simp [hd] at h
      exact ⟨c, d, hc, hd, h.symm⟩
  · rintro ⟨c, d, hc, hd, rfl⟩
    exact ⟨c, encCall_eq.mpr hc, by simp [hd]⟩

theorem execEncRet_eq_next {s t : State} :
    execEncRet s = .next t ↔ ∃ c, s.enc = some c ∧ t = s.endOperation .ok (.code c.code) := by
  unfold execEncRet
  simp only [orFault_eq_next, encCall_eq, complete_eq, Host.Outcome.next.injEq, eq_comm (b := t)]

/-! Unit VIT. -/

theorem extend_eq_ok {s : State} {y : List Bit} {tr c : Trail} {d : Bit} :
    extend s y tr d = .ok c ↔ ∃ st e, tr.current = some st ∧ s.readTable st d = .ok e ∧
      c = { path := tr.path ++ [e.next], metric := tr.metric + hamming e.out y } := by
  unfold extend
  cases hc : tr.current with
  | none => simp
  | some st => cases hr : s.readTable st d <;> simp [hr, eq_comm]

theorem branch_cons {s : State} {y : List Bit} {tr : Trail} {live cand : List Trail} :
    branch s y (tr :: live) = .ok cand ↔ ∃ c0 c1 cs, extend s y tr false = .ok c0 ∧ extend s y tr true = .ok c1 ∧
      branch s y live = .ok cs ∧ cand = c0 :: c1 :: cs := by
  simp only [branch]
  cases h0 : extend s y tr false with
  | error e => simp
  | ok c0 =>
    cases h1 : extend s y tr true with
    | error e => simp
    | ok c1 =>
      cases h2 : branch s y live with
      | error e => simp
      | ok cs => simp [eq_comm]

/-- R163: the branch step doubles the count. -/
theorem branch_length {s : State} {y : List Bit} {live cand : List Trail} (h : branch s y live = .ok cand) :
    cand.length = 2 * live.length := by
  induction live generalizing cand with
  | nil => simp [branch] at h; subst h; rfl
  | cons tr live ih =>
    obtain ⟨c0, c1, cs, -, -, hcs, rfl⟩ := branch_cons.mp h
    simp [ih hcs]
    omega

/-- R165: the candidate at position 2q+d extends the live trail at position q by hypothesis d. -/
theorem branch_getElem? {s : State} {y : List Bit} {live cand : List Trail} (h : branch s y live = .ok cand)
    (q : Nat) (d : Bit) : ∀ c, cand[window q d]? = some c → ∃ tr, live[q]? = some tr ∧ extend s y tr d = .ok c := by
  induction live generalizing cand q with
  | nil => simp [branch] at h; subst h; simp
  | cons tr live ih =>
    obtain ⟨c0, c1, cs, h0, h1, hcs, rfl⟩ := branch_cons.mp h
    intro c hc
    cases q with
    | zero => cases d <;> simp [window] at hc <;> subst hc <;> exact ⟨tr, by simp, by assumption⟩
    | succ q =>
      have hw : window (q + 1) d = window q d + 1 + 1 := by unfold window; omega
      rw [hw, List.getElem?_cons_succ, List.getElem?_cons_succ] at hc
      simpa using ih hcs q c hc

/-- The branch step answers whenever every live trail stands at a state whose two entries can be read. -/
theorem branch_ok {s : State} {y : List Bit} {live : List Trail}
    (h : ∀ tr ∈ live, ∃ st, tr.current = some st ∧ ∀ d, ∃ e, s.readTable st d = .ok e) :
    ∃ cand, branch s y live = .ok cand := by
  induction live with
  | nil => exact ⟨[], rfl⟩
  | cons tr live ih =>
    obtain ⟨cs, hcs⟩ := ih fun tr' htr => h tr' (List.mem_cons_of_mem _ htr)
    obtain ⟨st, hst, he⟩ := h tr List.mem_cons_self
    obtain ⟨e0, he0⟩ := he false
    obtain ⟨e1, he1⟩ := he true
    exact ⟨_, branch_cons.mpr ⟨_, _, cs, extend_eq_ok.mpr ⟨st, e0, hst, he0, rfl⟩,
      extend_eq_ok.mpr ⟨st, e1, hst, he1, rfl⟩, hcs, rfl⟩⟩

theorem execVitFrame_eq_next {rx : List Bit} {s t : State} (h : execVitFrame rx s = .next t) :
    (rx.length % s.n ≠ 0 ∧ t = s.endOperation .invalidLength .nothing) ∨
    (rx.length % s.n = 0 ∧ t = { s with vit := some (VitCall.start s.n rx), seq := .vitInit }) := by
  unfold execVitFrame at h
  by_cases hn : rx.length % s.n = 0
  · simp [hn] at h; exact .inr ⟨hn, h.symm⟩
  · simp [hn] at h; exact .inl ⟨hn, h.symm⟩

theorem execVitInit_eq_next {s t : State} :
    execVitInit s = .next t ↔ ∃ c, s.vit = some c ∧
      t = { s with vit := some { c with live := [Trail.initial], cand := [], ti := 0 }, seq := vitNext c.l 0 } := by
  unfold execVitInit
  simp only [orFault_eq_next, vitCall_eq, Host.Outcome.next.injEq, eq_comm (b := t)]

theorem execVitBranch_eq_next {s t : State} :
    execVitBranch s = .next t ↔ ∃ c y cand, s.vit = some c ∧ symbolAt s.n c.rx c.ti = some y ∧
      branch s y c.live = .ok cand ∧ t = { s with vit := some { c with cand := cand }, seq := .vitMerge c.ti } := by
  unfold execVitBranch
  rw [orFault_eq_next]
  constructor
  · rintro ⟨c, hc, h⟩
    rw [vitCall_eq] at hc
    cases hy : symbolAt s.n c.rx c.ti with
    | none => simp [hy] at h
    | some y =>
      simp only [hy, orFault_eq_next] at h
      obtain ⟨cand, hb, ht⟩ := h
      injection ht with ht
      exact ⟨c, y, cand, hc, hy, hb, ht.symm⟩
  · rintro ⟨c, y, cand, hc, hy, hb, rfl⟩
    exact ⟨c, vitCall_eq.mpr hc, by simp [hy, hb]⟩

theorem execVitMerge_eq_next {s t : State} :
    execVitMerge s = .next t ↔ ∃ c, s.vit = some c ∧
      t = { s with
            vit := some { c with live := merged s.params.laterWins s.kreg c.cand, cand := [], ti := c.ti + 1 }
            seq := vitNext c.l (c.ti + 1) } := by
  unfold execVitMerge
  simp only [orFault_eq_next, vitCall_eq, Host.Outcome.next.injEq, eq_comm (b := t)]

theorem execVitTerm_eq_next {s t : State} (h : execVitTerm s = .next t) :
    ∃ c, s.vit = some c ∧
      ((leastTrail false (trailsAt 0 c.live) = none ∧ t = s.endOperation .noValidPath .nothing) ∨
       ∃ w, leastTrail false (trailsAt 0 c.live) = some w ∧
         t = { s with vit := some { c with win := some w, metric := some w.metric }, seq := .vitTrace }) := by
  unfold execVitTerm at h
  rw [orFault_eq_next] at h
  obtain ⟨c, hc, h⟩ := h
  refine ⟨c, vitCall_eq.mp hc, ?_⟩
  cases hw : leastTrail false (trailsAt 0 c.live) with
  | none => simp [hw] at h; exact .inl ⟨rfl, h.symm⟩
  | some w => simp [hw] at h; exact .inr ⟨w, rfl, h.symm⟩

theorem execVitTrace_eq_next {s t : State} :
    execVitTrace s = .next t ↔ ∃ c w ds, s.vit = some c ∧ c.win = some w ∧ tracedBits s c.l w.path = .ok ds ∧
      t = { s with vit := some { c with dbits := some ds }, seq := .vitStrip } := by
  unfold execVitTrace
  simp only [orFault_eq_next, vitCall_eq, written_eq, Host.Outcome.next.injEq]
  constructor
  · rintro ⟨c, hc, w, hw, ds, hd, ht⟩
    exact ⟨c, w, ds, hc, hw, hd, ht.symm⟩
  · rintro ⟨c, w, ds, hc, hw, hd, ht⟩
    exact ⟨c, hc, w, hw, ds, hd, ht.symm⟩

theorem execVitStrip_eq_next {s t : State} (h : execVitStrip s = .next t) :
    ∃ c ds, s.vit = some c ∧ c.dbits = some ds ∧
      ((ds.length < s.kreg ∧ t = s.endOperation .invalidLength .nothing) ∨
       (s.kreg ≤ ds.length ∧
         t = { s with vit := some { c with dbits := some (ds.take (ds.length - s.kreg)) }, seq := .vitPack })) := by
  unfold execVitStrip at h
  simp only [orFault_eq_next, vitCall_eq, written_eq] at h
  obtain ⟨c, hc, ds, hd, h⟩ := h
  refine ⟨c, ds, hc, hd, ?_⟩
  by_cases hl : ds.length < s.kreg
  · simp [hl] at h; exact .inl ⟨hl, h.symm⟩
  · simp [hl] at h; exact .inr ⟨by omega, h.symm⟩

theorem execVitPack_eq_next {s t : State} (h : execVitPack s = .next t) :
    ∃ c ds, s.vit = some c ∧ c.dbits = some ds ∧
      ((ds.length % 8 ≠ 0 ∧ t = s.endOperation .invalidLength .nothing) ∨
       (ds.length % 8 = 0 ∧ t = { s with vit := some { c with bytes := some (pack ds) }, seq := .vitRet })) := by
  unfold execVitPack at h
  simp only [orFault_eq_next, vitCall_eq, written_eq] at h
  obtain ⟨c, hc, ds, hd, h⟩ := h
  refine ⟨c, ds, hc, hd, ?_⟩
  by_cases hl : ds.length % 8 = 0
  · simp [hl] at h; exact .inr ⟨hl, h.symm⟩
  · simp [hl] at h; exact .inl ⟨hl, h.symm⟩

theorem execVitRet_eq_next {s t : State} :
    execVitRet s = .next t ↔ ∃ c bytes m, s.vit = some c ∧ c.bytes = some bytes ∧ c.metric = some m ∧
      t = s.endOperation .ok (.decoded bytes m) := by
  unfold execVitRet
  simp only [orFault_eq_next, vitCall_eq, written_eq, complete_eq, Host.Outcome.next.injEq]
  constructor
  · rintro ⟨c, hc, b, hb, m, hm, ht⟩
    exact ⟨c, b, m, hc, hb, hm, ht.symm⟩
  · rintro ⟨c, b, m, hc, hb, hm, ht⟩
    exact ⟨c, hc, b, hb, m, hm, ht.symm⟩

/-! The selection (R167, R168). -/

theorem replaces_le {lw : Bool} {a b : Trail} (h : replaces lw a b = true) : a.metric ≤ b.metric := by
  simp only [replaces, Bool.or_eq_true, Bool.and_eq_true, decide_eq_true_eq] at h
  omega

theorem not_replaces_le {lw : Bool} {a b : Trail} (h : replaces lw a b = false) : b.metric ≤ a.metric := by
  simp only [replaces, Bool.or_eq_false_iff, decide_eq_false_iff_not] at h
  omega

theorem leastTrail_foldl (lw : Bool) (xs : List Trail) (b : Trail) :
    (xs.foldl (fun best c => if replaces lw c best then c else best) b = b ∨
      xs.foldl (fun best c => if replaces lw c best then c else best) b ∈ xs) ∧
    ∀ c ∈ b :: xs, (xs.foldl (fun best c => if replaces lw c best then c else best) b).metric ≤ c.metric := by
  induction xs generalizing b with
  | nil => simp
  | cons x xs ih =>
    simp only [List.foldl_cons]
    cases hr : replaces lw x b with
    | true =>
      simp only [if_true]
      obtain ⟨hm, hl⟩ := ih x
      have hx := replaces_le hr
      have hfx := hl x List.mem_cons_self
      refine ⟨.inr ?_, ?_⟩
      · rcases hm with hm | hm
        · rw [hm]; exact List.mem_cons_self
        · exact List.mem_cons_of_mem _ hm
      · intro c hc
        rcases List.mem_cons.mp hc with rfl | hc
        · exact Nat.le_trans hfx hx
        · exact hl c hc
    | false =>
      simp only [Bool.false_eq_true, if_false]
      obtain ⟨hm, hl⟩ := ih b
      have hx := not_replaces_le hr
      have hfb := hl b List.mem_cons_self
      refine ⟨?_, ?_⟩
      · rcases hm with hm | hm
        · exact .inl hm
        · exact .inr (List.mem_cons_of_mem _ hm)
      · intro c hc
        rcases List.mem_cons.mp hc with rfl | hc
        · exact hfb
        · rcases List.mem_cons.mp hc with rfl | hc
          · exact Nat.le_trans hfb hx
          · exact hl c (List.mem_cons_of_mem _ hc)

/-- Under any tie-break the chosen trail is one of the list and none of the list has a smaller metric. -/
theorem leastTrail_spec {lw : Bool} {xs : List Trail} {b : Trail} (h : leastTrail lw xs = some b) :
    b ∈ xs ∧ ∀ c ∈ xs, b.metric ≤ c.metric := by
  cases xs with
  | nil => simp [leastTrail] at h
  | cons x xs =>
    simp only [leastTrail, Option.some.injEq] at h
    obtain ⟨hm, hl⟩ := leastTrail_foldl lw xs x
    rw [h] at hm hl
    refine ⟨?_, hl⟩
    rcases hm with rfl | hm
    · exact List.mem_cons_self
    · exact List.mem_cons_of_mem _ hm

theorem leastTrail_eq_none {lw : Bool} {xs : List Trail} : leastTrail lw xs = none ↔ xs = [] := by
  cases xs <;> simp [leastTrail]

theorem mem_trailsAt {st : Nat} {xs : List Trail} {tr : Trail} :
    tr ∈ trailsAt st xs ↔ tr ∈ xs ∧ tr.current = some st := by
  simp [trailsAt]

theorem filterMap_range_getElem? {α : Type} (f : Nat → Option α) (m : Nat) (hf : ∀ i < m, (f i).isSome) (q : Nat) :
    ((List.range m).filterMap f)[q]? = if q < m then f q else none := by
  induction m with
  | zero => simp
  | succ m ih =>
    have hlen : ∀ m', (∀ i < m', (f i).isSome) → ((List.range m').filterMap f).length = m' := by
      intro m'
      induction m' with
      | zero => simp
      | succ m' ih' =>
        intro hm
        obtain ⟨v, hv⟩ := Option.isSome_iff_exists.mp (hm m' (by omega))
        rw [List.range_succ, List.filterMap_append, List.length_append, ih' fun i hi => hm i (by omega)]
        simp [hv]
    have hm := hlen m fun i hi => hf i (by omega)
    obtain ⟨v, hv⟩ := Option.isSome_iff_exists.mp (hf m (by omega))
    rw [List.range_succ, List.filterMap_append]
    by_cases hq : q < m
    · rw [List.getElem?_append_left (by omega), ih fun i hi => hf i (by omega)]
      simp [hq, Nat.lt_succ_of_lt hq]
    · rw [List.getElem?_append_right (by omega), hm]
      by_cases hqm : q = m
      · subst hqm
        simp [hv]
      · rw [if_neg (by omega)]
        simp [hv]
        omega

/-- R169: when every state has a candidate the survivors are indexed by state. -/
theorem survivors_getElem? {lw : Bool} {k : Nat} {cand : List Trail}
    (h : ∀ st < 2 ^ k, trailsAt st cand ≠ []) (q : Nat) :
    (survivors lw k cand)[q]? = if q < 2 ^ k then leastTrail lw (trailsAt q cand) else none := by
  refine filterMap_range_getElem? _ _ (fun i hi => ?_) q
  cases hl : leastTrail lw (trailsAt i cand) with
  | none => exact absurd (leastTrail_eq_none.mp hl) (h i hi)
  | some b => rfl

end Sys2Proof.Machine
end

