-- ==== Sys2Proof/Laws/Step.lean ====
section
/-! SUPPORT. What a step can do, said once. -/

namespace Sys2Proof.Machine

theorem step_idle {s : State} (h : s.seq = .idle) : step s = idleStep exec s := by simp [step, h]

theorem step_running {s : State} (h : s.seq ≠ .idle) : step s = sequencerStep s := by simp [step, h]

theorem microStep_idle {s : State} (h : s.seq = .idle) : microStep s = idleStep start s := by simp [microStep, h]

theorem microStep_running {s : State} (h : s.seq ≠ .idle) : microStep s = sequencerStep s := by
  simp [microStep, h]

theorem fetchHost_waiting {s : State} :
    s.fetchHost = .waiting ↔ decodeHost s.hostIn = .error .noWords ∨ decodeHost s.hostIn = .error .operandsMissing := by
  unfold State.fetchHost
  cases h : decodeHost s.hostIn with
  | ok p => simp
  | error e => cases e <;> simp

theorem fetchHost_command {s : State} {i : Instr} {rest : List Int} :
    s.fetchHost = .command i rest ↔ decodeHost s.hostIn = .ok (i, rest) := by
  unfold State.fetchHost
  cases h : decodeHost s.hostIn with
  | ok p => obtain ⟨j, r⟩ := p; simp
  | error e => cases e <;> simp

/-- A step at IDLE that answers a next state either waited or ran the command at the front of the stream. -/
theorem idleStep_eq_next {run : Instr → State → Out} {s t : State} (h : idleStep run s = .next t) :
    (s.fetchHost = .waiting ∧ t = s) ∨
    ∃ i rest, s.fetchHost = .command i rest ∧ run i { s with hostIn := rest } = .next t := by
  unfold idleStep at h
  cases hf : s.fetchHost with
  | waiting => simp [hf] at h; exact .inl ⟨rfl, h.symm⟩
  | command i rest => simp [hf] at h; exact .inr ⟨i, rest, rfl, h⟩
  | malformed e => simp [hf] at h

/-- What follows a micro-operation: the end of TRB.BUILD after its last pair, nothing otherwise. -/
theorem afterEntry_next (s : State) :
    afterEntry (.next s) = if s.tableDone then endTable s else .next s := rfl

theorem afterEntry_of_seq {s : State} (h : ∀ st d, s.seq ≠ .trbEntry st d) : afterEntry (.next s) = .next s := by
  rw [afterEntry_next]
  have : s.tableDone = false := by
    unfold State.tableDone
    split
    · rename_i st d hs
      exact absurd hs (h st d)
    · rfl
  simp [this]

theorem afterEntry_eq_next {o : Out} {t : State} (h : afterEntry o = .next t) :
    ∃ s, o = .next s ∧
      ((s.tableDone = true ∧ t = s.flagTableBuilt.endOperation .ok .nothing) ∨ (s.tableDone = false ∧ t = s)) := by
  cases o with
  | next s =>
    rw [afterEntry_next] at h
    refine ⟨s, rfl, ?_⟩
    cases hd : s.tableDone with
    | true => simp [hd, endTable] at h; exact .inl ⟨rfl, h.symm⟩
    | false => simp [hd] at h; exact .inr ⟨rfl, h.symm⟩
  | fault r => simp [afterEntry] at h
  | refused r => simp [afterEntry] at h

/-- A step inside an operation that answers a next state executed the operation its words decode to. -/
theorem sequencerStep_eq_next {s t : State} (h : sequencerStep s = .next t) :
    ∃ ws i rest, s.fetchMicro = .ok ws ∧ decode ws = .ok (i, rest) ∧ afterEntry (exec i s) = .next t := by
  unfold sequencerStep at h
  rw [orFault_eq_next] at h
  obtain ⟨ws, hws, h⟩ := h
  cases hd : decode ws with
  | error e => simp [hd] at h
  | ok p =>
    obtain ⟨i, rest⟩ := p
    simp [hd] at h
    exact ⟨ws, i, rest, hws, hd, h⟩

end Sys2Proof.Machine
end

