-- ==== Sys2Proof/Laws/PerInstr.lean ====
section
/-! SUPPORT. Statements made of every instruction, one lemma per constructor. -/

namespace Sys2Proof.Laws.CodeWord

/-- R93: the first word of an operation is its row's code, a format-H code (2 bits) for a host operation and a
format-M code (6 bits) otherwise, and the table gives that code to this row alone. -/
def Statement (i : Instr) : Prop :=
  (encode i).head? = some (Int.ofNat i.op.code) ∧ Op.ofCode i.op.code = some i.op ∧
    (if i.isHost then i.op.code < 2 ^ 2 else 2 ^ 4 ≤ i.op.code ∧ i.op.code < 2 ^ 6)

theorem cfgBuild (gens : List Int) : Statement (.cfgBuild gens) := ⟨rfl, rfl, by simp [Instr.isHost, Instr.op, Op.code]⟩
theorem trbBuild : Statement .trbBuild := ⟨rfl, rfl, by simp [Instr.isHost, Instr.op, Op.code]⟩
theorem encEncode (inputBytes : List Byte) : Statement (.encEncode inputBytes) := ⟨rfl, rfl, by simp [Instr.isHost, Instr.op, Op.code]⟩
theorem vitDecode (receivedBits : List Bit) : Statement (.vitDecode receivedBits) := ⟨rfl, rfl, by simp [Instr.isHost, Instr.op, Op.code]⟩
theorem encLoad (inputBytes : List Byte) : Statement (.encLoad inputBytes) := ⟨rfl, rfl, by simp [Instr.isHost, Instr.op, Op.code]⟩
theorem encStep : Statement .encStep := ⟨rfl, rfl, by simp [Instr.isHost, Instr.op, Op.code]⟩
theorem encRet : Statement .encRet := ⟨rfl, rfl, by simp [Instr.isHost, Instr.op, Op.code]⟩
theorem trbEntry (st : Nat) (d : Bit) : Statement (.trbEntry st d) := ⟨rfl, rfl, by simp [Instr.isHost, Instr.op, Op.code]⟩
theorem vitFrame (receivedBits : List Bit) : Statement (.vitFrame receivedBits) := ⟨rfl, rfl, by simp [Instr.isHost, Instr.op, Op.code]⟩
theorem vitInit : Statement .vitInit := ⟨rfl, rfl, by simp [Instr.isHost, Instr.op, Op.code]⟩
theorem vitBranch : Statement .vitBranch := ⟨rfl, rfl, by simp [Instr.isHost, Instr.op, Op.code]⟩
theorem vitMerge : Statement .vitMerge := ⟨rfl, rfl, by simp [Instr.isHost, Instr.op, Op.code]⟩
theorem vitTerm : Statement .vitTerm := ⟨rfl, rfl, by simp [Instr.isHost, Instr.op, Op.code]⟩
theorem vitTrace : Statement .vitTrace := ⟨rfl, rfl, by simp [Instr.isHost, Instr.op, Op.code]⟩
theorem vitStrip : Statement .vitStrip := ⟨rfl, rfl, by simp [Instr.isHost, Instr.op, Op.code]⟩
theorem vitPack : Statement .vitPack := ⟨rfl, rfl, by simp [Instr.isHost, Instr.op, Op.code]⟩
theorem vitRet : Statement .vitRet := ⟨rfl, rfl, by simp [Instr.isHost, Instr.op, Op.code]⟩

end Sys2Proof.Laws.CodeWord

namespace Sys2Proof

/-- No two rows of the table have the same code, and no operation stands in two rows (R93). -/
theorem opTable_codes_distinct : opTable.Pairwise fun r r' => r.code ≠ r'.code ∧ r.op ≠ r'.op := by decide

/-- Every row's code fits its format's width (R93). -/
theorem opTable_codes_fit : ∀ r ∈ opTable, r.code < 2 ^ r.width := by decide

theorem Op.ofCode_code (o : Op) : Op.ofCode o.code = some o := by cases o <;> rfl

end Sys2Proof
end

