-- ==== Sys2Proof/Laws/Pseudo.lean ====
section
/-! SUPPORT. What the expansions of R98 can do, said once. -/

namespace Sys2Proof.Machine

@[simp] theorem whenOk_next_ok {s : State} (h : s.status = .ok) (rest : State → Out) : whenOk (.next s) rest = rest s := by
  simp [whenOk, h]

@[simp] theorem whenOk_next_error {s : State} (h : s.status ≠ .ok) (rest : State → Out) : whenOk (.next s) rest = .next s := by
  simp [whenOk, h]

@[simp] theorem whenOk_fault (r : Fault) (rest : State → Out) : whenOk (.fault r) rest = .fault r := rfl

@[simp] theorem whenOk_refused (r : Refusal) (rest : State → Out) : whenOk (.refused r) rest = .refused r := rfl

/-- An expansion that answers a next state either ended with the first operation's error or went on from its success. -/
theorem whenOk_eq_next {o : Out} {rest : State → Out} {u : State} :
    whenOk o rest = .next u ↔
      ∃ t, o = .next t ∧ ((t.status ≠ .ok ∧ u = t) ∨ (t.status = .ok ∧ rest t = .next u)) := by
  cases o with
  | next t =>
    by_cases h : t.status = .ok
    · simp [h]
    · simp [h, eq_comm (a := u)]
  | fault r => simp
  | refused r => simp

@[simp] theorem codeBits_code (bits : List Bit) : (Result.code bits).codeBits = some bits := rfl

/-- Construction that answers a next state: CFG.BUILD failed and nothing followed, or TRB.BUILD followed (R98). -/
theorem runConstruction_eq_next {gens : List Int} {s u : State} :
    runConstruction gens s = .next u ↔
      ∃ t, exec (.cfgBuild gens) s = .next t ∧
        ((t.status ≠ .ok ∧ u = t) ∨ (t.status = .ok ∧ exec .trbBuild t = .next u)) := whenOk_eq_next

end Sys2Proof.Machine
end

