-- ==== Sys2Proof/Tests/Slice0.lean ====
section
/-! SUPPORT. The model's own tests: well-formedness refusals, decoding of written-out words, one step per test with
expected values from spec/ (the vector or rule is named), and for every statement with hypotheses a state and operands
that meet them all. -/

namespace Sys2Proof.Tests

open Sys2Proof Sys2Proof.Machine

/-! Helpers. -/

/-- The outcome is that next state. -/
def nextIs (o : Out) (t : State) : Bool :=
  match o with
  | .next s => decide (s = t)
  | .fault _ | .refused _ => false

theorem eq_next_of_nextIs {o : Out} {t : State} (h : nextIs o t = true) : o = .next t := by
  cases o <;> simp_all [nextIs]

/-- The outcome is that refusal. -/
def refusedAs (o : Out) (r : Refusal) : Bool :=
  match o with
  | .refused r' => decide (r' = r)
  | .fault _ | .next _ => false

/-- The outcome is that fault. -/
def faultedAs (o : Out) (f : Fault) : Bool :=
  match o with
  | .fault f' => decide (f' = f)
  | .refused _ | .next _ => false

/-- Bits from the digits of a numeral written in the spec's order, `len` of them. -/
def bitsOf (len v : Nat) : List Bit := (List.range len).map fun i => v.testBit (len - 1 - i)

/-- An IDLE engine with nothing on its ports. -/
def engine (p : Params) (n k : Nat) (taps : List Nat) (tt : Memory) (ttValid : Bool) : State :=
  { params := p, n := n, kreg := k, taps := taps, cfgValid := true, tt := tt, ttValid := ttValid, status := .ok
    seq := .idle, enc := none, vit := none, operand := .absent, result := .nothing, hostIn := [] }

/-- R153: the table of (5, 7). -/
def table57 : Memory :=
  [(0, ⟨[false, false], 0⟩), (1, ⟨[true, true], 1⟩), (2, ⟨[false, true], 2⟩), (3, ⟨[true, false], 3⟩),
   (4, ⟨[true, true], 0⟩), (5, ⟨[false, false], 1⟩), (6, ⟨[true, false], 2⟩), (7, ⟨[false, true], 3⟩)]

/-- The state after P1 line 1: (5, 7) configured, no table. -/
def configured57 : State := engine Params.standard 2 2 [5, 7] [] false

/-- The state after P1 line 2: (5, 7) with its table. -/
def ready57 : State := engine Params.standard 2 2 [5, 7] table57 true

/-- (3) with its table (V12, small tables). -/
def ready3 : State :=
  engine Params.standard 1 1 [3] [(0, ⟨[false], 0⟩), (1, ⟨[true], 1⟩), (2, ⟨[true], 0⟩), (3, ⟨[false], 1⟩)] true

/-- (1, 1) with its table, K = 0 (P5 line 2). -/
def ready11 : State :=
  engine Params.standard 2 0 [1, 1] [(0, ⟨[false, false], 0⟩), (1, ⟨[true, true], 0⟩)] true

/-- Every capacity finite, and a metric register wide enough for them. -/
def small : Params := { nMax := some 2, kMax := some 2, bMax := some 1, rMax := some 20, metricW := some 5, laterWins := false }

/-- The engine with other parameters. -/
def under (p : Params) (s : State) : State := { s with params := p }

/-- The call-scoped state of a decoding before anything is written. -/
def call (rx : List Bit) (l ti : Nat) (live cand : List Trail) : VitCall :=
  { rx := rx, l := l, ti := ti, live := live, cand := cand, win := none, dbits := none, bytes := none, metric := none }

/-- The engine inside a decoding. -/
def inVit (s : State) (c : VitCall) (seq : Seq) : State := { s with vit := some c, seq := seq }

/-- The engine inside an encoding. -/
def inEnc (s : State) (c : EncCall) (seq : Seq) : State := { s with enc := some c, seq := seq }

/-- V13: the received bits, those of V11 with bit 4 flipped. -/
def rx13 : List Bit := bitsOf 20 0b11011001111101000111

/-- V11: the code bits of A5 under (5, 7). -/
def code11 : List Bit := bitsOf 20 0b11010001111101000111

/-! WellFormed: each check refuses a term (R9, R81, R10). -/

theorem test_wf_standard_admits :
    (Instr.cfgBuild [-3, 0, 171]).wf Params.standard = true ∧ (Instr.encEncode [1, 2, 3]).wf Params.standard = true := by decide
theorem test_wf_refuses_n_max : (Instr.cfgBuild [1, 1, 1]).wf small = false ∧ (Instr.cfgBuild [1, 1]).wf small = true := by decide
theorem test_wf_refuses_generator_port :
    (Instr.cfgBuild [8]).wf small = false ∧ (Instr.cfgBuild [-9]).wf small = false ∧
    (Instr.cfgBuild [7, -8]).wf small = true := by decide
theorem test_wf_refuses_b_max :
    (Instr.encEncode [1, 2]).wf small = false ∧ (Instr.encLoad [1, 2]).wf small = false ∧ (Instr.encLoad [1]).wf small = true := by decide
theorem test_wf_refuses_r_max :
    (Instr.vitDecode (bitsOf 21 0)).wf small = false ∧ (Instr.vitFrame (bitsOf 21 0)).wf small = false ∧
    (Instr.vitFrame (bitsOf 20 0)).wf small = true := by decide
theorem test_wf_refuses_state_port :
    (Instr.trbEntry 4 false).wf small = false ∧ (Instr.trbEntry 3 true).wf small = true := by decide
theorem test_metric_width :
    small.metricFits 2 = true ∧ { small with metricW := some 4 }.metricFits 2 = false ∧
    { Params.standard with metricW := some 64 }.metricFits 2 = false ∧ Params.standard.metricFits 2 = true := by decide

/-! Decoding: words written out from R93, R88 and R96. -/

theorem test_decode_host :
    decode [0b00, 3, -3, 0, 7] = .ok (.cfgBuild [-3, 0, 7], []) ∧
    decode [0b01, 0b11] = .ok (.trbBuild, [0b11]) ∧
    decode [0b10, 2, 0xFE, 0xF0] = .ok (.encEncode [0xFE#8, 0xF0#8], []) ∧
    decode [0b11, 3, 1, 0, 1, 5] = .ok (.vitDecode [true, false, true], [5]) := by decide
theorem test_decode_enc :
    decode [0b100000, 1, 0xA0] = .ok (.encLoad [0xA0#8], []) ∧ decode [0b100001] = .ok (.encStep, []) ∧
    decode [0b100010] = .ok (.encRet, []) := by decide
theorem test_decode_trb : decode [0b010000, 3, 1] = .ok (.trbEntry 3 true, []) := by decide
theorem test_decode_vit :
    decode [0b110000, 2, 0, 1] = .ok (.vitFrame [false, true], []) ∧ decode [0b110001] = .ok (.vitInit, []) ∧
    decode [0b110010] = .ok (.vitBranch, []) ∧ decode [0b110011] = .ok (.vitMerge, []) ∧
    decode [0b110100] = .ok (.vitTerm, []) ∧ decode [0b110101] = .ok (.vitTrace, []) ∧
    decode [0b110110] = .ok (.vitStrip, []) ∧ decode [0b110111] = .ok (.vitPack, []) ∧
    decode [0b111000] = .ok (.vitRet, []) := by decide
/-- Codes of no row, items outside their types, and operand streams that are not whole are refused by name. -/
theorem test_decode_refuses :
    decode [0b010001] = .error (.reservedCode 0b010001) ∧ decode [0b111001] = .error (.reservedCode 0b111001) ∧
    decode [-1] = .error (.reservedCode (-1)) ∧ decode [0b10, 1, 256] = .error (.itemOutOfType 256) ∧
    decode [0b11, 1, 2] = .error (.itemOutOfType 2) ∧ decode [0b10, -1] = .error (.negativeCount (-1)) ∧
    decode [0b11, 2, 1] = .error .operandsMissing ∧ decode [] = .error .noWords := by decide
theorem test_decodeHost_refuses :
    decodeHost [0b110111] = .error (.notAHostOperation 0b110111) ∧
    decodeHost [0b100000, 1] = .error (.notAHostOperation 0b100000) ∧ decodeHost [0b10, 1] = .error .operandsMissing := by decide

/-! One step each. -/

/-- V10, line (3, 7, 13), from an engine that had (5, 7) and its table. -/
theorem test_cfgBuild_three : nextIs (exec (.cfgBuild [3, 7, 13]) ready57)
    (engine Params.standard 3 3 [0b0011, 0b0111, 0b1101] table57 false) = true := by decide
/-- V10, line (-3, 7); R116. -/
theorem test_cfgBuild_negative :
    nextIs (exec (.cfgBuild [-3, 7]) ready57) { ready57 with status := .invalidGenerator } = true := by decide
/-- R153. -/
theorem test_trbBuild : nextIs (exec .trbBuild configured57) ready57 = true := by decide
/-- R146: s = 3, d = 0. -/
theorem test_trbEntry : nextIs (exec (.trbEntry 3 false) { configured57 with seq := .trbEntry 3 false })
    { configured57 with tt := [(6, ⟨[true, false], 2⟩)], seq := .trbEntry 3 true } = true := by decide
/-- V12: s = 5, d = 0 of (3, 7, 13) has out 111 and next 2. -/
theorem test_trbEntry_seven : nextIs (exec (.trbEntry 5 false) (engine Params.standard 3 3 [3, 7, 13] [] false))
    { engine Params.standard 3 3 [3, 7, 13] [(10, ⟨[true, true, true], 2⟩)] false with seq := .trbEntry 5 true } = true := by
  decide
/-- V11. -/
theorem test_encEncode : nextIs (exec (.encEncode [0xA5#8]) configured57) { configured57 with result := .code code11 } = true := by
  decide
/-- V11: (1, 2), C1 gives 10 11 01 00 00 00 00 10 01. -/
theorem test_encEncode_delayed : nextIs (exec (.encEncode [0xC1#8]) (engine Params.standard 2 1 [1, 2] [] false))
    { engine Params.standard 2 1 [1, 2] [] false with result := .code (bitsOf 18 0b101101000000001001) } = true := by decide
/-- R126: A0 under K = 2 gives U = 1,0,1,0,0,0,0,0,0,0. -/
theorem test_encLoad : nextIs (exec (.encLoad [0xA0#8]) { configured57 with seq := .encLoad })
    (inEnc configured57 { sr := [false, false], u := bitsOf 10 0b1010000000, ui := 0, code := [] } (.encStep 0)) = true := by
  decide
/-- R126: no bit of U only when the input is empty and K = 0. -/
theorem test_encLoad_empty : nextIs (exec (.encLoad []) ready11)
    (inEnc ready11 { sr := [], u := [], ui := 0, code := [] } (.encRet 0)) = true := by decide
/-- R127: (5, 7), SR = [1, 1], d = 1 emits 0,1 and SR stays. -/
theorem test_encStep : nextIs
    (exec .encStep (inEnc configured57 { sr := [true, true], u := [true, false], ui := 0, code := [true] } (.encStep 0)))
    (inEnc configured57 { sr := [true, true], u := [true, false], ui := 1, code := [true, false, true] } (.encStep 1)) = true := by
  decide
/-- V2, step 7: state 3 = [1, 1], d = 0 emits 10 and the state after is 2 = [0, 1]; the last bit of U leads to ENC.RET. -/
theorem test_encStep_last : nextIs
    (exec .encStep (inEnc configured57 { sr := [true, true], u := [false], ui := 0, code := [] } (.encStep 0)))
    (inEnc configured57 { sr := [false, true], u := [false], ui := 1, code := [true, false] } (.encRet 1)) = true := by decide
/-- R131. -/
theorem test_encRet : nextIs
    (exec .encRet (inEnc { configured57 with status := .invalidLength }
      { sr := [false, false], u := [false, false], ui := 2, code := [false, false, false, false] } (.encRet 2)))
    { configured57 with result := .code [false, false, false, false] } = true := by decide
/-- V13. -/
theorem test_vitDecode : nextIs (exec (.vitDecode rx13) ready57) { ready57 with result := .decoded [0xA5#8] 1 } = true := by
  decide
/-- V15: under D10 the result is ([00], 3), under the opposite tie-break ([C0], 3). -/
theorem test_vitDecode_tie :
    nextIs (exec (.vitDecode (bitsOf 20 0b11100000000000000000)) ready57) { ready57 with result := .decoded [0x00#8] 3 } = true ∧
    nextIs (exec (.vitDecode (bitsOf 20 0b11100000000000000000)) (under { Params.standard with laterWins := true } ready57))
      { under { Params.standard with laterWins := true } ready57 with result := .decoded [0xC0#8] 3 } = true := by decide
/-- R161: n = 2, 67 received bits; R222, R224. -/
theorem test_vitFrame_odd : nextIs (exec (.vitFrame (bitsOf 67 0)) { ready57 with seq := .vitFrame })
    { ready57 with status := .invalidLength } = true := by decide
/-- R161, R40. -/
theorem test_vitFrame : nextIs (exec (.vitFrame (bitsOf 4 0b1101)) { ready57 with seq := .vitFrame })
    (inVit ready57 (call (bitsOf 4 0b1101) 2 0 [⟨[0], 0⟩] []) .vitInit) = true := by decide
/-- R162, L > 0 and L = 0. -/
theorem test_vitInit :
    nextIs (exec .vitInit (inVit ready57 (call (bitsOf 2 0b11) 1 5 [] [⟨[3], 9⟩]) .vitInit))
      (inVit ready57 (call (bitsOf 2 0b11) 1 0 [⟨[0], 0⟩] []) (.vitBranch 0)) = true ∧
    nextIs (exec .vitInit (inVit ready57 (call [] 0 0 [] []) .vitInit))
      (inVit ready57 (call [] 0 0 [⟨[0], 0⟩] []) (.vitTerm 0)) = true := by decide
/-- R163: (5, 7), LIVE = [([0], 0)], y = 1,1. -/
theorem test_vitBranch : nextIs (exec .vitBranch (inVit ready57 (call rx13 10 0 [⟨[0], 0⟩] []) (.vitBranch 0)))
    (inVit ready57 (call rx13 10 0 [⟨[0], 0⟩] [⟨[0, 0], 2⟩, ⟨[0, 1], 0⟩]) (.vitMerge 0)) = true := by decide
/-- V13, t = 2: CAND from LIVE. -/
theorem test_vitBranch_full : nextIs
    (exec .vitBranch (inVit ready57 (call rx13 10 2 [⟨[0, 0, 0], 3⟩, ⟨[0, 0, 1], 3⟩, ⟨[0, 1, 2], 0⟩, ⟨[0, 1, 3], 2⟩] []) (.vitBranch 2)))
    (inVit ready57 (call rx13 10 2 [⟨[0, 0, 0], 3⟩, ⟨[0, 0, 1], 3⟩, ⟨[0, 1, 2], 0⟩, ⟨[0, 1, 3], 2⟩]
      [⟨[0, 0, 0, 0], 4⟩, ⟨[0, 0, 0, 1], 4⟩, ⟨[0, 0, 1, 2], 5⟩, ⟨[0, 0, 1, 3], 3⟩, ⟨[0, 1, 2, 0], 1⟩, ⟨[0, 1, 2, 1], 1⟩,
       ⟨[0, 1, 3, 2], 2⟩, ⟨[0, 1, 3, 3], 4⟩]) (.vitMerge 2)) = true := by decide
/-- V13, t = 3: a tie at state 3 is kept by the earlier-created candidate. -/
theorem test_vitMerge_tie : nextIs
    (exec .vitMerge (inVit ready57 (call rx13 10 3 []
      [⟨[0, 1, 2, 0, 0], 2⟩, ⟨[0, 1, 2, 0, 1], 2⟩, ⟨[0, 1, 2, 1, 2], 1⟩, ⟨[0, 1, 2, 1, 3], 3⟩, ⟨[0, 1, 3, 2, 0], 3⟩,
       ⟨[0, 1, 3, 2, 1], 3⟩, ⟨[0, 0, 1, 3, 2], 5⟩, ⟨[0, 0, 1, 3, 3], 3⟩]) (.vitMerge 3)))
    (inVit ready57 (call rx13 10 4
      [⟨[0, 1, 2, 0, 0], 2⟩, ⟨[0, 1, 2, 0, 1], 2⟩, ⟨[0, 1, 2, 1, 2], 1⟩, ⟨[0, 1, 2, 1, 3], 3⟩] []) (.vitBranch 4)) = true := by
  decide
/-- R167: the trellis still filling, and the last symbol. -/
theorem test_vitMerge_filling : nextIs
    (exec .vitMerge (inVit ready57 (call (bitsOf 2 0b11) 1 0 [⟨[0], 0⟩] [⟨[0, 0], 2⟩, ⟨[0, 1], 0⟩]) (.vitMerge 0)))
    (inVit ready57 (call (bitsOf 2 0b11) 1 1 [⟨[0, 0], 2⟩, ⟨[0, 1], 0⟩] []) (.vitTerm 1)) = true := by decide
/-- V13: VIT.TERM takes the trail at state 0 although others may be lower. -/
theorem test_vitTerm : nextIs
    (exec .vitTerm (inVit ready57 (call [] 0 0 [⟨[0, 1, 3], 0⟩, ⟨[0, 2, 0], 4⟩] []) (.vitTerm 0)))
    (inVit ready57 { call [] 0 0 [⟨[0, 1, 3], 0⟩, ⟨[0, 2, 0], 4⟩] [] with win := some ⟨[0, 2, 0], 4⟩, metric := some 4 } .vitTrace)
      = true := by decide
/-- R174, R224: no trail at state 0. -/
theorem test_vitTerm_noValidPath : nextIs
    (exec .vitTerm (inVit ready57 (call [] 0 0 [⟨[0, 1], 0⟩] []) (.vitTerm 0))) { ready57 with status := .noValidPath } = true := by
  decide
/-- R177: (5, 7), path [0, 1, 3, 2, 0] gives bits 1, 1, 0, 0. -/
theorem test_vitTrace : nextIs
    (exec .vitTrace (inVit ready57 { call [] 4 4 [] [] with win := some ⟨[0, 1, 3, 2, 0], 0⟩ } .vitTrace))
    (inVit ready57 { call [] 4 4 [] [] with win := some ⟨[0, 1, 3, 2, 0], 0⟩, dbits := some [true, true, false, false] } .vitStrip)
      = true := by decide
/-- R179, R60: L = K leaves no bits, L < K raises. -/
theorem test_vitStrip :
    nextIs (exec .vitStrip (inVit ready57 { call [] 2 2 [] [] with dbits := some [true, true] } .vitStrip))
      (inVit ready57 { call [] 2 2 [] [] with dbits := some [] } .vitPack) = true ∧
    nextIs (exec .vitStrip (inVit ready57 { call [] 1 1 [] [] with dbits := some [true] } .vitStrip))
      { ready57 with status := .invalidLength } = true := by decide
/-- R180: bits 0,1,1,1,0,0,1,0 pack to byte 72 hexadecimal. -/
theorem test_vitPack : nextIs
    (exec .vitPack (inVit ready57 { call [] 0 0 [] [] with dbits := some (bitsOf 8 0b01110010) } .vitPack))
    (inVit ready57 { call [] 0 0 [] [] with dbits := some (bitsOf 8 0b01110010), bytes := some [0x72#8] } .vitRet) = true := by
  decide
/-- R180, V18: seven bits are no byte. -/
theorem test_vitPack_seven : nextIs
    (exec .vitPack (inVit ready57 { call [] 0 0 [] [] with dbits := some (bitsOf 7 0) } .vitPack))
    { ready57 with status := .invalidLength } = true := by decide
/-- R181. -/
theorem test_vitRet : nextIs
    (exec .vitRet (inVit ready57 { call [] 0 0 [] [] with bytes := some [0xA5#8], metric := some 1 } .vitRet))
    { ready57 with result := .decoded [0xA5#8] 1 } = true := by decide
/-- R94. -/
theorem test_statusCodes : Status.code .invalidGenerator = 0b01#2 ∧ Status.code .noValidPath = 0b11#2 := by decide
/-- R266 (a): the host reads nothing while an operation runs. -/
theorem test_hostView : ({ ready57 with seq := .vitInit } : State).hostView = none ∧
    ready57.hostView = some { status := .ok, cfgValid := true, ttValid := true, n := 2, k := 2, result := .nothing } := by decide
/-- R86, D8: entry 3 of the (5, 7) table, out 10 above next 11. -/
theorem test_packEntry : packEntry 2 ⟨[true, false], 3⟩ = 0b1011 := by decide
/-- R98, P3 line 7: a failed construction on a configured engine leaves the table valid and reports the error. -/
theorem test_construction_fails :
    nextIs (runConstruction [5, 0] ready57) { ready57 with status := .invalidGenerator } = true := by decide
/-- R98, P1 lines 1 and 2. -/
theorem test_construction : nextIs (runConstruction [5, 7] ready11) ready57 = true := by decide
/-- R98, P1 lines 3 and 4: decode(encode [A5]). -/
theorem test_encodeDecode : nextIs (runEncodeDecode [0xA5#8] ready57) { ready57 with result := .decoded [0xA5#8] 0 } = true := by
  decide
/-- The faults of micro-operations outside their operation. -/
theorem test_faults :
    faultedAs (exec .encStep ready57) .noCallState = true ∧
    faultedAs (exec .vitRet (inVit ready57 (call [] 0 0 [] []) .vitRet)) .itemUnwritten = true ∧
    faultedAs (exec (.trbEntry 4 false) ready57) .noSuchState = true ∧
    faultedAs (exec .vitBranch (inVit configured57 (call rx13 10 0 [⟨[0], 0⟩] []) (.vitBranch 0))) .tableEntryUnwritten = true := by
  decide
/-- R234: preconditions. -/
theorem test_refusals :
    refusedAs (exec (.vitDecode rx13) configured57) .tableNotValid = true ∧
    refusedAs (exec .trbBuild { ready57 with cfgValid := false }) .notConfigured = true ∧
    refusedAs (exec (.encEncode []) { ready57 with seq := .vitInit }) .engineBusy = true ∧
    refusedAs (exec (.vitDecode rx13) (under { small with metricW := some 4 } ready57)) .metricTooNarrow = true := by decide

/-! Witnesses: for every statement with hypotheses, a state and operands that meet all of them. -/

/-- The command stream of an IDLE engine. -/
def given (s : State) (ws : List Int) : State := { s with hostIn := ws }

theorem legal57 : LegalGenerators [5, 7] := by unfold LegalGenerators; decide

theorem inv_ready57 : EngineInv ready57 := by
  unfold EngineInv CfgInv TableInv TableBuilt EntryBuilt
  exact ⟨by decide, by decide, by decide, by decide, by decide⟩

theorem ready_ready57 : Ready ready57 := ⟨inv_ready57, by decide, by decide, by decide, by decide⟩

theorem inv_ready3 : EngineInv ready3 := by
  unfold EngineInv CfgInv TableInv TableBuilt EntryBuilt
  exact ⟨by decide, by decide, by decide, by decide, by decide⟩

theorem inv_ready11 : EngineInv ready11 := by
  unfold EngineInv CfgInv TableInv TableBuilt EntryBuilt
  exact ⟨by decide, by decide, by decide, by decide, by decide⟩

theorem ready_ready11 : Ready ready11 := ⟨inv_ready11, by decide, by decide, by decide, by decide⟩

/-- (3) inside the decoding of V21 at the step boundary after one symbol, where the trellis is full (t = K = 1). -/
def branching3 : State :=
  inVit ready3 (call (bitsOf 9 0b101000011) 9 1 [⟨[0, 0], 1⟩, ⟨[0, 1], 0⟩] []) (.vitBranch 1)

theorem inv_branching3 : EngineInv branching3 := by
  refine ⟨inv_ready3.1, inv_ready3.2.1, rfl, rfl, rfl, _, rfl, by unfold FrameInv; decide, rfl, by decide, rfl, rfl, ?_⟩
  intro q tr h
  match q with
  | 0 => cases h; exact ⟨rfl, [false], rfl, rfl, by decide⟩
  | 1 => cases h; exact ⟨rfl, [true], rfl, rfl, by decide⟩
  | n + 2 => simp [call] at h

/-- (5, 7) inside the decoding of no symbols, at VIT.TERM. -/
def terminating57 : State := inVit ready57 (call [] 0 0 [⟨[0], 0⟩] []) (.vitTerm 0)

theorem inv_terminating57 : EngineInv terminating57 := by
  refine ⟨inv_ready57.1, inv_ready57.2.1, rfl, rfl, rfl, _, rfl, by unfold FrameInv; decide, rfl, rfl, rfl, ?_⟩
  intro q tr h
  match q with
  | 0 => cases h; exact ⟨rfl, [], rfl, rfl, by decide⟩
  | n + 1 => simp [call] at h

/-- (5, 7) at the end of the encoding of no bytes. -/
def returning57 : State :=
  inEnc ready57 { sr := [false, false], u := [false, false], ui := 2, code := [false, false, false, false] } (.encRet 2)

theorem inv_returning57 : EngineInv returning57 :=
  ⟨inv_ready57.1, inv_ready57.2.1, rfl, rfl,
    ⟨_, rfl, rfl, by decide, ⟨[], by decide⟩, rfl, by decide, by decide⟩, _, rfl, by decide⟩

theorem witness_EncodeOfDecode : decode [0b10, 1, 0xA5, 0b01] = .ok (.encEncode [0xA5#8], [0b01]) := by decide
theorem witness_ReservedCodesRejected : ∀ o : Op, (17 : Int) ≠ Int.ofNat o.code := by intro o; cases o <;> decide
theorem witness_HostCannotIssueMicro : Instr.vitPack.isHost = false ∧ (given ready57 [0b110111, 0b01]).seq = .idle ∧
    (given ready57 [0b110111, 0b01]).hostIn = encode .vitPack ++ [0b01] := by decide
theorem witness_StepRunsDecoded_idle : (given ready57 [0b10, 0, 0b01]).seq = .idle ∧
    decodeHost (given ready57 [0b10, 0, 0b01]).hostIn = .ok (.encEncode [], [0b01]) := by decide
theorem witness_StepRunsDecoded_next : returning57.seq ≠ .idle ∧ returning57.fetchMicro = .ok [0b100010] ∧
    decode [0b100010] = .ok (.encRet, []) ∧
    ∃ t, exec .encRet returning57 = .next t ∧ t.tableDone = false :=
  ⟨by decide, rfl, by decide, { ready57 with result := .code [false, false, false, false] }, eq_next_of_nextIs (by decide), by decide⟩
theorem witness_StepRunsDecoded_lastEntry :
    let s : State := { ready57 with seq := .trbEntry 3 true }
    s.seq ≠ .idle ∧ s.fetchMicro = .ok [0b010000, 3, 1] ∧ decode [0b010000, 3, 1] = .ok (.trbEntry 3 true, []) ∧
      ∃ t, exec (.trbEntry 3 true) s = .next t ∧ t.tableDone = true :=
  ⟨by decide, rfl, by decide, { ready57 with seq := .trbEntry 4 false }, eq_next_of_nextIs (by decide), by decide⟩
theorem witness_StepRunsDecoded_fault :
    let s : State := { ready57 with seq := .encRet 0 }
    s.seq ≠ .idle ∧ s.fetchMicro = .ok [0b100010] ∧ decode [0b100010] = .ok (.encRet, []) ∧
      exec .encRet s = .fault .noCallState := ⟨by decide, rfl, by decide, rfl⟩
theorem witness_StepRunsDecoded_refused :
    let s : State := { under small ready57 with seq := .cfgBuild, operand := .gens [8] }
    s.seq ≠ .idle ∧ s.fetchMicro = .ok [0b00, 1, 8] ∧ decode [0b00, 1, 8] = .ok (.cfgBuild [8], []) ∧
      exec (.cfgBuild [8]) s = .refused .overCapacity := ⟨by decide, rfl, by decide, rfl⟩
theorem witness_EngineWaits : ready57.seq = .idle ∧ ready57.hostIn = [] ∧ (given ready57 [0b10]).seq = .idle ∧
    (given ready57 [0b10]).hostIn = [0b10] ∧ (given ready57 [0b11, 3, 1, 0]).seq = .idle ∧
    (given ready57 [0b11, 3, 1, 0]).hostIn = 0b11 :: 3 :: [1, 0] ∧ (([1, 0] : List Int).length : Int) < 3 := by decide
theorem witness_StepKeepsInv : EngineInv returning57 ∧
    step returning57 = .next { ready57 with result := .code [false, false, false, false] } :=
  ⟨inv_returning57, eq_next_of_nextIs (by decide)⟩
theorem witness_StepNeverFaults : EngineInv branching3 := inv_branching3
theorem witness_MicroStepKeepsInv : EngineInv terminating57 ∧ ∃ t, microStep terminating57 = .next t :=
  ⟨inv_terminating57,
    inVit ready57 { call [] 0 0 [⟨[0], 0⟩] [] with win := some ⟨[0], 0⟩, metric := some 0 } .vitTrace, eq_next_of_nextIs (by decide)⟩
theorem witness_StepwiseEqualsWhole : (given ready57 [0b10, 0]).seq = .idle ∧
    (given ready57 [0b10, 0]).fetchHost = .command (.encEncode []) [] ∧
    step (given ready57 [0b10, 0]) = .next { ready57 with result := .code [false, false, false, false] } :=
  ⟨by decide, by decide, eq_next_of_nextIs (by decide)⟩
theorem witness_CfgBuildLegal : ready57.seq = .idle ∧ LegalGenerators [5, 7] ∧ (Instr.cfgBuild [5, 7]).wf ready57.params = true :=
  ⟨by decide, legal57, by decide⟩
theorem witness_InvalidGeneratorExactly : ready57.seq = .idle ∧ (Instr.cfgBuild [5, 0]).wf ready57.params = true ∧
    (Instr.cfgBuild []).wf ready57.params = true ∧ (Instr.cfgBuild [1]).wf ready57.params = true := by decide
theorem witness_FailedBuildKeepsSlot : ready57.seq = .idle ∧ ¬ LegalGenerators [5, 0] ∧ ¬ LegalGenerators [] ∧
    exec (.cfgBuild [5, 0]) ready57 = .next { ready57 with status := .invalidGenerator } ∧
    exec (.cfgBuild []) ready57 = .next { ready57 with status := .invalidGenerator } :=
  ⟨by decide, by unfold LegalGenerators; decide, by unfold LegalGenerators; decide, eq_next_of_nextIs (by decide),
    eq_next_of_nextIs (by decide)⟩
theorem witness_ConstraintLengthIsTopBit : ready57.seq = .idle ∧ LegalGenerators [4, 1] ∧
    exec (.cfgBuild [4, 1]) ready57 = .next (engine Params.standard 2 2 [0b100, 0b001] table57 false) :=
  ⟨by decide, by unfold LegalGenerators; decide, eq_next_of_nextIs (by decide)⟩
theorem witness_TapVectorsInOrder : ready57.seq = .idle ∧ LegalGenerators [1, 2] ∧
    exec (.cfgBuild [1, 2]) ready57 = .next (engine Params.standard 2 1 [0b01, 0b10] table57 false) ∧
    ([1, 2] : List Int)[1]? = some 2 :=
  ⟨by decide, by unfold LegalGenerators; decide, eq_next_of_nextIs (by decide), rfl⟩
theorem witness_SuccessInvalidatesTable : ready57.seq = .idle ∧ LegalGenerators [5, 7] ∧
    (Instr.cfgBuild [5, 7]).wf ready57.params = true ∧ (Instr.encEncode [0xA5#8]).wf ready57.params = true :=
  ⟨by decide, legal57, by decide, by decide⟩
theorem witness_TrbEntryWrites : 3 < 2 ^ configured57.kreg ∧ 2 ^ configured57.kreg ≤ 4 ∧ (0 : Nat) ≠ 2 * 3 + true.toNat := by decide
theorem witness_TrbBuildMakesTable : configured57.seq = .idle ∧ configured57.cfgValid = true ∧ 3 < 2 ^ configured57.kreg ∧
    2 ^ (configured57.kreg + 1) ≤ 8 := by decide
theorem witness_EdgesOfTheTrellis : 1 ≤ 2 ∧ 3 < 2 ^ 2 ∧ 2 < 2 ^ 2 ∧ nextState 2 3 false = 2 := by decide
theorem witness_OutbitIsLinearParity : 7 < 2 ^ (2 + 1) := by decide
theorem witness_ConstructionMakesReady : EngineInv ready3 ∧ ready3.seq = .idle ∧ LegalGenerators [5, 7] ∧
    (Instr.cfgBuild [5, 7]).wf ready3.params = true ∧ ready3.params.metricFits ([5, 7] : List Int).length = true ∧
    ¬ LegalGenerators [5, 0] ∧ (Instr.cfgBuild [5, 0]).wf ready3.params = true :=
  ⟨inv_ready3, by decide, legal57, by decide, by decide, by unfold LegalGenerators; decide, by decide⟩
theorem witness_EncStepEmitsAndShifts :
    let c : EncCall := { sr := [true, false], u := [true], ui := 0, code := [] }
    (inEnc configured57 c (.encStep 0)).enc = some c ∧ c.sr.length = (inEnc configured57 c (.encStep 0)).kreg ∧
      c.u[c.ui]? = some true ∧ ({ c with ui := 1 } : EncCall).u[1]? = none := by decide
theorem witness_EncRetReturns : ∃ c, returning57.enc = some c := ⟨_, rfl⟩
theorem witness_EncodeIsTheWalk : ready57.seq = .idle ∧ ready57.cfgValid = true ∧
    (Instr.encEncode [0xA5#8]).wf ready57.params = true := by decide
theorem witness_LengthLaw : CfgInv ready57 ∧ ready57.seq = .idle ∧ ready57.cfgValid = true ∧
    (Instr.encEncode []).wf ready57.params = true := ⟨inv_ready57.1, by decide, by decide, by decide⟩
theorem witness_EncodeIsConvolution : CfgInv ready57 ∧ ready57.seq = .idle ∧ ready57.cfgValid = true ∧
    (Instr.encEncode [0xA5#8]).wf ready57.params = true ∧ 9 < 8 * ([0xA5#8] : List Byte).length + ready57.kreg ∧
    ready57.taps[1]? = some 7 := ⟨inv_ready57.1, by decide, by decide, by decide, by decide, by decide⟩
theorem witness_EncoderEndsAtZero : EngineInv returning57 ∧ returning57.seq = .encRet 2 := ⟨inv_returning57, rfl⟩
theorem witness_EncoderFollowsTable :
    let c : EncCall := { sr := [true, true], u := [true], ui := 0, code := [] }
    TableBuilt (inEnc ready57 c (.encStep 0)) ∧ (inEnc ready57 c (.encStep 0)).enc = some c ∧
      c.sr.length = (inEnc ready57 c (.encStep 0)).kreg ∧ c.u[c.ui]? = some true :=
  ⟨(inv_ready57.2.1.2 rfl).2, rfl, rfl, rfl⟩
theorem witness_ByteAndBitOrder : ([0xFE#8, 0xF0#8] : List Byte)[1]? = some 0xF0#8 ∧ 7 < 8 ∧ 1 < (bitsOf 17 0).length / 8 ∧
    (bitsOf 16 0).length % 8 = 0 := by decide
theorem witness_FrameChecksLength : (bitsOf 67 0).length % ready57.n ≠ 0 ∧ ([] : List Bit).length % ready57.n = 0 ∧
    (bitsOf 68 0).length % ready57.n = 0 := by decide
theorem witness_InitStartsAtZero : ∃ c, terminating57.vit = some c := ⟨_, rfl⟩
theorem witness_BranchExtendsEveryTrail :
    let c := call rx13 10 9 [⟨[0], 0⟩, ⟨[0, 3], 2⟩] []
    (inVit ready57 c (.vitBranch 9)).vit = some c ∧ (c.ti + 1) * ready57.n ≤ c.rx.length ∧
      (∀ tr ∈ c.live, ∃ st, tr.path.getLast? = some st ∧ ∀ d : Bit, ∃ e, (inVit ready57 c (.vitBranch 9)).readTable st d = .ok e) := by
  refine ⟨rfl, by decide, ?_⟩
  intro tr h
  simp only [call, List.mem_cons, List.not_mem_nil, or_false] at h
  obtain rfl | rfl := h
  · exact ⟨0, rfl, fun d => by cases d <;> exact ⟨_, rfl⟩⟩
  · exact ⟨3, rfl, fun d => by cases d <;> exact ⟨_, rfl⟩⟩
theorem witness_HammingCountsDifferences : (bitsOf 2 1).length = (bitsOf 2 2).length ∧ CfgInv ready57 ∧ ready57.cfgValid = true ∧
    symbolAt ready57.n rx13 9 = some [true, true] := ⟨by decide, inv_ready57.1, by decide, by decide⟩
theorem witness_MergeKeepsTheArgmin :
    let c := call rx13 10 3 [] [⟨[0, 0], 2⟩]
    let f := call rx13 10 3 [] (List.replicate 8 ⟨[0, 3], 2⟩)
    (inVit ready57 c (.vitMerge 3)).vit = some c ∧ ready57.params.laterWins = false ∧ c.cand.length ≠ 2 * 2 ^ ready57.kreg ∧
      (inVit ready57 f (.vitMerge 3)).vit = some f ∧ f.cand.length = 2 * 2 ^ ready57.kreg := by decide
theorem witness_MergeTieBreakParameter :
    let s := under { Params.standard with laterWins := true } ready57
    let c := call rx13 10 3 [] (List.replicate 8 ⟨[0, 3], 2⟩)
    let f := call rx13 10 9 [] [⟨[0, 0], 2⟩]
    (inVit s c (.vitMerge 3)).vit = some c ∧ s.params.laterWins = true ∧ c.cand.length = 2 * 2 ^ s.kreg ∧
      (inVit s f (.vitMerge 9)).vit = some f ∧ f.cand.length ≠ 2 * 2 ^ s.kreg := by decide
theorem witness_TermChoosesAtZero :
    (∃ c, terminating57.vit = some c ∧ ∃ tr ∈ c.live, tr.current = some 0) ∧
    ∃ c, (inVit ready57 (call [] 0 0 [⟨[0, 1], 0⟩] []) (.vitTerm 0)).vit = some c ∧ ∀ tr ∈ c.live, tr.current ≠ some 0 :=
  ⟨⟨_, rfl, by decide⟩, _, rfl, by decide⟩
theorem witness_TraceReadsTheInputs :
    let c := { call [] 4 4 [] [] with win := some ⟨[0, 1, 3, 2, 0], 0⟩ }
    let z := { call [] 2 2 [] [] with win := some ⟨[0, 0, 0], 0⟩ }
    (inVit ready57 c .vitTrace).vit = some c ∧ c.win = some ⟨[0, 1, 3, 2, 0], 0⟩ ∧ TableBuilt (inVit ready57 c .vitTrace) ∧
      [true, true, false, false].length = c.l ∧ [0, 1, 3, 2, 0] = walkPath 2 0 [true, true, false, false] ∧ 1 ≤ ready57.kreg ∧
    (inVit ready11 z .vitTrace).vit = some z ∧ z.win = some ⟨[0, 0, 0], 0⟩ ∧ TableBuilt (inVit ready11 z .vitTrace) ∧
      [true, false].length = z.l ∧ [0, 0, 0] = walkPath 0 0 [true, false] ∧ ready11.kreg = 0 :=
  ⟨rfl, rfl, (inv_ready57.2.1.2 rfl).2, rfl, by decide, by decide, rfl, rfl, (inv_ready11.2.1.2 rfl).2, rfl, by decide, rfl⟩
theorem witness_StripDropsTheTail :
    let c := { call [] 1 1 [] [] with dbits := some [true] }
    let f := { call [] 2 2 [] [] with dbits := some [true, false] }
    (inVit ready57 c .vitStrip).vit = some c ∧ [true].length < ready57.kreg ∧
      (inVit ready57 f .vitStrip).vit = some f ∧ [true, false] = [] ++ [true, false] ∧ [true, false].length = ready57.kreg := by decide
theorem witness_PackIsMsbFirst :
    let c := { call [] 1 1 [] [] with dbits := some (bitsOf 7 0) }
    let f := { call [] 2 2 [] [] with dbits := some (bitsOf 8 0) }
    (inVit ready57 c .vitPack).vit = some c ∧ (bitsOf 7 0).length % 8 ≠ 0 ∧
      (inVit ready57 f .vitPack).vit = some f ∧ (bitsOf 8 0).length % 8 = 0 ∧ 0 < (bitsOf 8 0).length / 8 := by decide
theorem witness_VitRetReturns :
    let c := { call [] 2 2 [] [] with bytes := some [0xA5#8], metric := some 1 }
    (inVit ready57 c .vitRet).vit = some c ∧ c.bytes = some [0xA5#8] ∧ c.metric = some 1 := by decide
theorem witness_MetricBound : (EngineInv branching3 ∧ branching3.seq = .vitBranch 1 ∧ ∃ c, branching3.vit = some c ∧ c.live ≠ []) ∧
    EngineInv terminating57 ∧ terminating57.seq = .vitTerm 0 ∧ ∃ c, terminating57.vit = some c ∧ c.live ≠ [] :=
  ⟨⟨inv_branching3, rfl, _, rfl, by decide⟩, inv_terminating57, rfl, _, rfl, by decide⟩
theorem witness_AddCompareSelectEquivalent : EngineInv branching3 ∧ branching3.seq = .vitBranch 1 ∧ (∃ c, branching3.vit = some c) ∧
    1 ≤ branching3.kreg ∧ branching3.params.laterWins = false := ⟨inv_branching3, rfl, ⟨_, rfl⟩, by decide, rfl⟩
/-- The hypotheses of DecodeEndsByLength, both clauses: no bits at all, L < K, L = K. -/
theorem witness_DecodeEndsByLength : Ready ready57 ∧ (Instr.vitDecode rx13).wf ready57.params = true ∧ ¬ WholeFrame ready57 [] ∧
    ¬ WholeFrame ready57 [true, true] ∧ WholeFrame ready57 (bitsOf 4 0b1101) :=
  ⟨ready_ready57, by decide, by unfold WholeFrame; decide, by unfold WholeFrame; decide, by unfold WholeFrame; decide⟩
theorem witness_DecodeEndsByLength_raise : exec (.vitFrame [true]) ready57 = .next { ready57 with status := .invalidLength } :=
  eq_next_of_nextIs (by decide)
theorem witness_NoValidPathNeverRaised : EngineInv terminating57 ∧ terminating57.status ≠ .noValidPath ∧
    ∃ t, step terminating57 = .next t :=
  ⟨inv_terminating57, by decide,
    inVit ready57 { call [] 0 0 [⟨[0], 0⟩] [] with win := some ⟨[0], 0⟩, metric := some 0 } .vitTrace, eq_next_of_nextIs (by decide)⟩
theorem witness_DecodeFindsNearestPath : Ready ready57 ∧ (Instr.vitDecode rx13).wf ready57.params = true ∧ WholeFrame ready57 rx13 :=
  ⟨ready_ready57, by decide, by unfold WholeFrame; decide⟩
theorem witness_RoundTrip : Ready ready57 ∧ 1 ≤ ready57.kreg ∧ (Instr.encEncode [0xA5#8]).wf ready57.params = true ∧
    within ready57.params.rMax (ready57.n * (8 * ([0xA5#8] : List Byte).length + ready57.kreg)) = true :=
  ⟨ready_ready57, by decide, by decide, by decide⟩
theorem witness_RobustDecode : Ready ready57 ∧ (Instr.encEncode [0xA5#8]).wf ready57.params = true ∧
    rx13.length = ready57.n * (8 * ([0xA5#8] : List Byte).length + ready57.kreg) ∧
    (Instr.vitDecode rx13).wf ready57.params = true := ⟨ready_ready57, by decide, by decide, by decide⟩
theorem witness_EmptyFrame : Ready ready57 ∧ within ready57.params.rMax (ready57.kreg * ready57.n) = true ∧
    Ready ready11 ∧ within ready11.params.rMax (ready11.kreg * ready11.n) = true :=
  ⟨ready_ready57, by decide, ready_ready11, by decide⟩
theorem witness_DecodeAtKZero : Ready ready11 ∧ (Instr.vitDecode (bitsOf 16 0b1011000111110000)).wf ready11.params = true ∧
    WholeFrame ready11 (bitsOf 16 0b1011000111110000) ∧ ready11.kreg = 0 :=
  ⟨ready_ready11, by decide, by unfold WholeFrame; decide, by decide⟩
theorem witness_WhoWritesWhat : exec .encRet returning57 = .next { ready57 with result := .code [false, false, false, false] } :=
  eq_next_of_nextIs (by decide)
theorem witness_WhoWritesWhat_entry : exec (.trbEntry 3 false) { configured57 with seq := .trbEntry 3 false } =
    .next { configured57 with tt := [(6, ⟨[true, false], 2⟩)], seq := .trbEntry 3 true } ∧ (5 : Nat) ≠ window 3 false :=
  ⟨eq_next_of_nextIs (by decide), by decide⟩
theorem witness_FlagsOverSteps_cleared : ready57.ttValid = true ∧
    step (given ready57 [0b00, 1, 3]) = .next (engine Params.standard 1 1 [3] table57 false) :=
  ⟨rfl, eq_next_of_nextIs (by decide)⟩
theorem witness_FlagsOverSteps_set : configured57.ttValid = false ∧ step (given configured57 [0b01]) = .next ready57 :=
  ⟨rfl, eq_next_of_nextIs (by decide)⟩
theorem witness_FlagsOverSteps_setByEntry :
    step { ready57 with ttValid := false, seq := .trbEntry 3 true } = .next ready57 := eq_next_of_nextIs (by decide)
theorem witness_ViolatedPreconditionsRefused :
    (({ ready57 with cfgValid := false } : State).seq = .idle ∧ ({ ready57 with cfgValid := false } : State).cfgValid = false) ∧
    (configured57.seq = .idle ∧ configured57.cfgValid = true ∧ configured57.ttValid = false) ∧
    (Instr.trbBuild.isHost = true ∧ returning57.seq ≠ .idle ∧ (returning57.seq = .cfgBuild → Instr.trbBuild.op ≠ .cfgBuild)) ∧
    (({ ready57 with seq := .cfgBuild } : State).seq ≠ .idle ∧
      (({ ready57 with seq := .cfgBuild } : State).seq = .cfgBuild → Instr.trbBuild.op ≠ .cfgBuild)) ∧
    (small.nMax = some 2 ∧ 2 < ([1, 1, 1] : List Int).length) ∧
    (small.kMax = some 2 ∧ (8 : Int) ∈ ([1, 8] : List Int) ∧ (2 ^ (2 + 1) : Int) ≤ 8) ∧
    (small.bMax = some 1 ∧ 1 < ([0#8, 0#8] : List Byte).length) ∧
    (small.rMax = some 20 ∧ 20 < (bitsOf 21 0).length) ∧
    ((Instr.vitDecode rx13).wf { small with metricW := some 4 } = true ∧ { small with metricW := some 4 }.metricFits ready57.n = false) := by
  decide
/-- An IDLE engine as `ready57`, with leftovers in everything R39 does not let VIT.DECODE read. -/
def dirty57 : State :=
  { inVit (inEnc ready57 { sr := [true], u := [], ui := 7, code := [true] } .idle) (call [true] 5 3 [] []) .idle with
    status := .noValidPath, operand := .bits [true], result := .code [true] }
theorem witness_OperationsAreFunctions : (Instr.vitDecode (bitsOf 4 0b1101)).isHost = true ∧ ready57.seq = .idle ∧ dirty57.seq = .idle ∧
    dirty57.params = ready57.params ∧ dirty57.n = ready57.n ∧ dirty57.kreg = ready57.kreg ∧ dirty57.taps = ready57.taps ∧
    dirty57.cfgValid = ready57.cfgValid ∧ dirty57.tt = ready57.tt ∧ dirty57.ttValid = ready57.ttValid ∧
    exec (.vitDecode (bitsOf 4 0b1101)) ready57 = .next { ready57 with result := .decoded [] 3 } :=
  ⟨rfl, rfl, rfl, rfl, rfl, rfl, rfl, rfl, rfl, rfl, eq_next_of_nextIs (by decide)⟩
theorem witness_OperationsAreIdempotent : (Instr.vitDecode (bitsOf 4 0b1101)).isHost = true ∧ EngineInv ready57 ∧ ready57.seq = .idle ∧
    exec (.vitDecode (bitsOf 4 0b1101)) ready57 = .next { ready57 with result := .decoded [] 3 } :=
  ⟨rfl, inv_ready57, rfl, eq_next_of_nextIs (by decide)⟩

end Sys2Proof.Tests
end

section
/-! PROOFS. Decoding an operation's own words gives it back (R96); hence at IDLE the words of a micro-operation are
refused by name (R16, R266 (c)). -/

namespace Sys2Proof

/-! Items: reading a word that was written gives what was written. -/

@[simp] theorem generatorItem_id (w : Int) : generatorItem (id w) = some w := rfl

@[simp] theorem byteItem_byteWord (b : Byte) : byteItem (byteWord b) = some b := by
  have hb : ((b.toNat : Nat) : Int) < 256 := by exact_mod_cast b.isLt
  simp [byteItem, byteWord, hb]

@[simp] theorem bitItem_bitWord (d : Bit) : bitItem (bitWord d) = some d := by cases d <;> rfl

@[simp] theorem stateItem_ofNat (st : Nat) : stateItem (Int.ofNat st) = some st := by simp [stateItem]

/-! Operand streams. -/

section
variable {α : Type} {item : Int → Option α} {word : α → Int} (hitem : ∀ v, item (word v) = some v)
include hitem

theorem decodeItems_map (vs : List α) : decodeItems item (vs.map word) = .ok vs := by
  induction vs with
  | nil => rfl
  | cons v vs ih => simp [decodeItems, hitem, ih]

theorem decodeCounted_encodeCounted (vs : List α) (rest : List Int) :
    decodeCounted item (encodeCounted word vs ++ rest) = .ok (vs, rest) := by
  have htake : (vs.map word ++ rest).take vs.length = vs.map word := List.take_left' (by simp)
  have hdrop : (vs.map word ++ rest).drop vs.length = rest := List.drop_left' (by simp)
  simp [decodeCounted, encodeCounted, htake, hdrop, decodeItems_map hitem]

end

theorem decodePair_words (st : Nat) (d : Bit) (rest : List Int) :
    decodePair (Int.ofNat st :: bitWord d :: rest) = .ok ((st, d), rest) := by
  simp only [decodePair, stateItem_ofNat, bitItem_bitWord]

/-- The operand words of an operation are read back by its own row, whatever follows them. -/
theorem decodeOperands_operandWords (i : Instr) (rest : List Int) :
    decodeOperands i.op (i.operandWords ++ rest) = .ok (i, rest) := by
  cases i with
  | cfgBuild gens =>
    simp [Instr.op, Instr.operandWords, decodeOperands, decodeCounted_encodeCounted generatorItem_id, withOperand]
  | encEncode inputBytes | encLoad inputBytes =>
    simp [Instr.op, Instr.operandWords, decodeOperands, decodeCounted_encodeCounted byteItem_byteWord, withOperand]
  | vitDecode receivedBits | vitFrame receivedBits =>
    simp [Instr.op, Instr.operandWords, decodeOperands, decodeCounted_encodeCounted bitItem_bitWord, withOperand]
  | trbEntry st d =>
    simp only [Instr.op, Instr.operandWords, decodeOperands, List.cons_append, List.nil_append, decodePair_words,
      withOperand]
  | trbBuild | encStep | encRet | vitInit | vitBranch | vitMerge | vitTerm | vitTrace | vitStrip | vitPack | vitRet =>
    rfl

/-! Commands. -/

theorem opOfWord_code (o : Op) : opOfWord (Int.ofNat o.code) = some o := by simp [opOfWord, Op.ofCode_code]

theorem decode_encode_append (i : Instr) (rest : List Int) : decode (encode i ++ rest) = .ok (i, rest) := by
  simp only [encode, List.cons_append, decode, opOfWord_code, decodeOperands_operandWords]

/-- At the front of the host's stream an operation's words are the command when it is a host operation, and otherwise
are rejected by the code word they begin with. -/
theorem decodeHost_encode_append (i : Instr) (rest : List Int) :
    decodeHost (encode i ++ rest) =
      if i.isHost then .ok (i, rest) else .error (.notAHostOperation (Int.ofNat i.op.code)) := by
  simp only [decodeHost, decode_encode_append]
  rfl

end Sys2Proof

namespace Sys2Proof.Machine

/-- An engine at IDLE refuses, by the code word it found, a stream the decoder calls no host operation. -/
theorem step_of_notAHostOperation {s : State} {c : Int} (hidle : s.seq = .idle)
    (hdec : decodeHost s.hostIn = .error (.notAHostOperation c)) :
    step s = .refused (.badCommand (.notAHostOperation c)) := by
  have hfetch : s.fetchHost = .malformed (.notAHostOperation c) := by simp [State.fetchHost, hdec]
  simp [step_idle hidle, idleStep, hfetch]

/-- Settles O5: a micro-operation's words decode to it, which the host's decoder rejects by its code. -/
theorem hostCannotIssueMicro : Obligations.HostCannotIssueMicro := by
  intro i rest s hmicro hidle hin
  apply step_of_notAHostOperation hidle
  simp [hin, decodeHost_encode_append, hmicro]

end Sys2Proof.Machine
end

section
/-! PROOFS. The frame of every operation (R39): what each leaves alone, said once for a micro-operation of ENC or VIT
and once for each host operation; hence the flags over a step (R38). -/

namespace Sys2Proof.Machine

/-! What a state change leaves alone. -/

/-- No operation of ENC or VIT writes these: the parameters, the configuration slot, the table, the flags and the
commands still to come (R39). -/
structure Persists (s t : State) : Prop where
  params : t.params = s.params
  n : t.n = s.n
  kreg : t.kreg = s.kreg
  taps : t.taps = s.taps
  cfgValid : t.cfgValid = s.cfgValid
  tt : t.tt = s.tt
  ttValid : t.ttValid = s.ttValid
  hostIn : t.hostIn = s.hostIn

/-- R20, R253: between two host operations there is no call-scoped state and no operand. -/
structure AtRest (t : State) : Prop where
  seq : t.seq = .idle
  enc : t.enc = none
  vit : t.vit = none
  operand : t.operand = .absent

/-- The persistent state is kept, and if the engine is IDLE then it is at rest. -/
structure Moves (s t : State) : Prop extends Persists s t where
  atRest : t.seq = .idle → AtRest t

theorem Moves.trans (s t u : State) (h : Moves s t) (h' : Moves t u) : Moves s u :=
  { params := h'.params.trans h.params
    n := h'.n.trans h.n
    kreg := h'.kreg.trans h.kreg
    taps := h'.taps.trans h.taps
    cfgValid := h'.cfgValid.trans h.cfgValid
    tt := h'.tt.trans h.tt
    ttValid := h'.ttValid.trans h.ttValid
    hostIn := h'.hostIn.trans h.hostIn
    atRest := h'.atRest }

theorem atRest_endOperation (s : State) (st : Status) (r : Result) : AtRest (s.endOperation st r) :=
  ⟨rfl, rfl, rfl, rfl⟩

theorem moves_endOperation (s : State) (st : Status) (r : Result) : Moves s (s.endOperation st r) :=
  { params := rfl, n := rfl, kreg := rfl, taps := rfl, cfgValid := rfl, tt := rfl, ttValid := rfl, hostIn := rfl
    atRest := fun _ => atRest_endOperation s st r }

theorem moves_refl {s : State} (hrun : s.seq ≠ .idle) : Moves s s :=
  ⟨⟨rfl, rfl, rfl, rfl, rfl, rfl, rfl, rfl⟩, fun hidle => absurd hidle hrun⟩

theorem started_ne_idle {i : Instr} (hi : i.isHost = true) (s : State) : (s.started i).seq ≠ .idle := by
  cases i <;> simp_all [State.started, Instr.isHost]

theorem moves_of_start {i : Instr} (hi : i.isHost = true) {s t : State} (h : start i s = .next t) : Moves s t := by
  obtain ⟨-, rfl⟩ := start_eq_next.mp h
  obtain ⟨hp, hn, hk, hta, hc, htt, htv, -, -, -, -, hh⟩ := started_keeps s i
  exact ⟨⟨hp, hn, hk, hta, hc, htt, htv, hh⟩, fun hidle => absurd hidle (started_ne_idle hi s)⟩

/-! Sequencing. -/

/-- A transitive relation that holds over both parts of a sequence holds over the whole. -/
theorem andThen_rel {R : State → State → Prop} (htrans : ∀ s t u, R s t → R t u → R s u) {o : Out} {f : State → Out}
    {s t : State} (ho : ∀ u, o = .next u → R s u) (hf : ∀ u, u.seq ≠ .idle → f u = .next t → R u t)
    (h : andThen o f = .next t) : R s t := by
  obtain ⟨hot, -⟩ | ⟨u, hou, hrun, hft⟩ := andThen_eq_next.mp h
  · exact ho t hot
  · exact htrans s u t (ho u hou) (hf u hrun hft)

/-- A sequence ends at IDLE when its second part does. -/
theorem andThen_seq_idle {o : Out} {f : State → Out} {t : State} (hf : ∀ u, f u = .next t → t.seq = .idle)
    (h : andThen o f = .next t) : t.seq = .idle := by
  obtain ⟨-, hidle⟩ | ⟨u, -, -, hft⟩ := andThen_eq_next.mp h
  · exact hidle
  · exact hf u hft

/-! A micro-operation of ENC or VIT. -/

theorem encNext_unit (u : List Bit) (ui : Nat) : (encNext u ui).unit = .enc := by
  unfold encNext
  split <;> rfl

theorem vitNext_unit (l ti : Nat) : (vitNext l ti).unit = .vit := by
  unfold vitNext
  split <;> rfl

/-- A micro-operation of ENC or VIT ends its operation, or writes its own unit's call-scoped state and goes on to
another phase of the same unit. -/
inductive UnitStep (s : State) : UnitId → State → Prop
  | ends (unit : UnitId) (st : Status) (r : Result) : UnitStep s unit (s.endOperation st r)
  | enc (c : EncCall) (q : Seq) (hq : q.unit = .enc) : UnitStep s .enc { s with enc := some c, seq := q }
  | vit (c : VitCall) (q : Seq) (hq : q.unit = .vit) : UnitStep s .vit { s with vit := some c, seq := q }

theorem execEncLoad_eq_next {inputBytes : List Byte} {s t : State} :
    execEncLoad inputBytes s = .next t ↔
      t = { s with enc := some (EncCall.start s.kreg inputBytes), seq := encNext (inputBits s.kreg inputBytes) 0 } := by
  simp [execEncLoad, eq_comm]

theorem unitStep_encLoad {inputBytes : List Byte} {s t : State} (h : execEncLoad inputBytes s = .next t) :
    UnitStep s .enc t := by
  rw [execEncLoad_eq_next.mp h]
  exact .enc _ _ (encNext_unit _ _)

theorem unitStep_encStep {s t : State} (h : execEncStep s = .next t) : UnitStep s .enc t := by
  obtain ⟨c, d, -, -, rfl⟩ := execEncStep_eq_next.mp h
  exact .enc _ _ (encNext_unit _ _)

theorem unitStep_encRet {s t : State} (h : execEncRet s = .next t) : UnitStep s .enc t := by
  obtain ⟨c, -, rfl⟩ := execEncRet_eq_next.mp h
  exact .ends _ _ _

theorem unitStep_vitFrame {rx : List Bit} {s t : State} (h : execVitFrame rx s = .next t) : UnitStep s .vit t := by
  obtain ⟨-, rfl⟩ | ⟨-, rfl⟩ := execVitFrame_eq_next h
  · exact .ends _ _ _
  · exact .vit _ _ rfl

theorem unitStep_vitInit {s t : State} (h : execVitInit s = .next t) : UnitStep s .vit t := by
  obtain ⟨c, -, rfl⟩ := execVitInit_eq_next.mp h
  exact .vit _ _ (vitNext_unit _ _)

theorem unitStep_vitBranch {s t : State} (h : execVitBranch s = .next t) : UnitStep s .vit t := by
  obtain ⟨c, y, cand, -, -, -, rfl⟩ := execVitBranch_eq_next.mp h
  exact .vit _ _ rfl

theorem unitStep_vitMerge {s t : State} (h : execVitMerge s = .next t) : UnitStep s .vit t := by
  obtain ⟨c, -, rfl⟩ := execVitMerge_eq_next.mp h
  exact .vit _ _ (vitNext_unit _ _)

theorem unitStep_vitTerm {s t : State} (h : execVitTerm s = .next t) : UnitStep s .vit t := by
  obtain ⟨c, -, ⟨-, rfl⟩ | ⟨w, -, rfl⟩⟩ := execVitTerm_eq_next h
  · exact .ends _ _ _
  · exact .vit _ _ rfl

theorem unitStep_vitTrace {s t : State} (h : execVitTrace s = .next t) : UnitStep s .vit t := by
  obtain ⟨c, w, ds, -, -, -, rfl⟩ := execVitTrace_eq_next.mp h
  exact .vit _ _ rfl

theorem unitStep_vitStrip {s t : State} (h : execVitStrip s = .next t) : UnitStep s .vit t := by
  obtain ⟨c, ds, -, -, ⟨-, rfl⟩ | ⟨-, rfl⟩⟩ := execVitStrip_eq_next h
  · exact .ends _ _ _
  · exact .vit _ _ rfl

theorem unitStep_vitPack {s t : State} (h : execVitPack s = .next t) : UnitStep s .vit t := by
  obtain ⟨c, ds, -, -, ⟨-, rfl⟩ | ⟨-, rfl⟩⟩ := execVitPack_eq_next h
  · exact .ends _ _ _
  · exact .vit _ _ rfl

theorem unitStep_vitRet {s t : State} (h : execVitRet s = .next t) : UnitStep s .vit t := by
  obtain ⟨c, bytes, m, -, -, -, rfl⟩ := execVitRet_eq_next.mp h
  exact .ends _ _ _

/-- The unit of a row that is a micro-operation of ENC or VIT (R93). -/
def streamUnit : Op → Option UnitId
  | .encLoad | .encStep | .encRet => some .enc
  | .vitFrame | .vitInit | .vitBranch | .vitMerge | .vitTerm | .vitTrace | .vitStrip | .vitPack | .vitRet => some .vit
  | .cfgBuild | .trbBuild | .encEncode | .vitDecode | .trbEntry => none

theorem unitStep_of_exec {i : Instr} {s t : State} {unit : UnitId} (hu : streamUnit i.op = some unit)
    (h : exec i s = .next t) : UnitStep s unit t := by
  cases i <;> cases hu
  case encLoad => exact unitStep_encLoad h
  case encStep => exact unitStep_encStep h
  case encRet => exact unitStep_encRet h
  case vitFrame => exact unitStep_vitFrame h
  case vitInit => exact unitStep_vitInit h
  case vitBranch => exact unitStep_vitBranch h
  case vitMerge => exact unitStep_vitMerge h
  case vitTerm => exact unitStep_vitTerm h
  case vitTrace => exact unitStep_vitTrace h
  case vitStrip => exact unitStep_vitStrip h
  case vitPack => exact unitStep_vitPack h
  case vitRet => exact unitStep_vitRet h

theorem UnitStep.moves {s t : State} {unit : UnitId} (h : UnitStep s unit t) : Moves s t := by
  cases h with
  | ends _ st r => exact moves_endOperation s st r
  | enc c q hq | vit c q hq =>
    exact ⟨⟨rfl, rfl, rfl, rfl, rfl, rfl, rfl, rfl⟩, fun (hidle : q = .idle) => by simp [hidle, Seq.unit] at hq⟩

theorem UnitStep.seq_unit {s t : State} {unit : UnitId} (h : UnitStep s unit t) :
    t.seq.unit = .idle ∨ t.seq.unit = unit := by
  cases h with
  | ends => exact .inl rfl
  | enc c q hq | vit c q hq => exact .inr hq

/-! ENC.ENCODE and VIT.DECODE run whole. -/

theorem moves_encSteps (fuel : Nat) {s t : State} (hrun : s.seq ≠ .idle) (h : encSteps fuel s = .next t) :
    Moves s t := by
  induction fuel generalizing s with
  | zero =>
    cases h
    exact moves_refl hrun
  | succ fuel ih =>
    unfold encSteps at h
    split at h
    · exact andThen_rel Moves.trans (fun u hu => (unitStep_encStep hu).moves) (fun u hu hut => ih hu hut) h
    · cases h
      exact moves_refl hrun

theorem moves_vitSymbols (l : Nat) {s t : State} (hrun : s.seq ≠ .idle) (h : vitSymbols l s = .next t) :
    Moves s t := by
  induction l generalizing s with
  | zero =>
    cases h
    exact moves_refl hrun
  | succ l ih =>
    refine andThen_rel Moves.trans (fun u hu => (unitStep_vitBranch hu).moves) (fun u _ hut => ?_) h
    exact andThen_rel Moves.trans (fun v hv => (unitStep_vitMerge hv).moves) (fun v hv hvt => ih hv hvt) hut

theorem moves_vitFinish {s t : State} (h : vitFinish s = .next t) : Moves s t := by
  refine andThen_rel Moves.trans (fun u hu => (unitStep_vitTerm hu).moves) (fun u _ hut => ?_) h
  refine andThen_rel Moves.trans (fun v hv => (unitStep_vitTrace hv).moves) (fun v _ hvt => ?_) hut
  refine andThen_rel Moves.trans (fun w hw => (unitStep_vitStrip hw).moves) (fun w _ hwt => ?_) hvt
  exact andThen_rel Moves.trans (fun x hx => (unitStep_vitPack hx).moves) (fun x _ hxt => (unitStep_vitRet hxt).moves) hwt

theorem execEncRet_seq {s t : State} (h : execEncRet s = .next t) : t.seq = .idle := by
  obtain ⟨c, -, rfl⟩ := execEncRet_eq_next.mp h
  rfl

theorem execVitRet_seq {s t : State} (h : execVitRet s = .next t) : t.seq = .idle := by
  obtain ⟨c, bytes, m, -, -, -, rfl⟩ := execVitRet_eq_next.mp h
  rfl

theorem vitFinish_seq {s t : State} (h : vitFinish s = .next t) : t.seq = .idle :=
  andThen_seq_idle (fun _ => andThen_seq_idle fun _ => andThen_seq_idle fun _ => andThen_seq_idle fun _ => execVitRet_seq) h

/-- R39, R253: an ENC.ENCODE run whole keeps the persistent state and leaves the engine at rest. -/
theorem execEncEncode_frame {inputBytes : List Byte} {s t : State} (h : execEncEncode inputBytes s = .next t) :
    Persists s t ∧ AtRest t := by
  have hmoves : Moves s t := by
    refine andThen_rel Moves.trans (fun u hu => moves_of_start rfl hu) (fun u _ hut => ?_) h
    refine andThen_rel Moves.trans (fun v hv => (unitStep_encLoad hv).moves) (fun v hrun hvt => ?_) hut
    exact andThen_rel Moves.trans (fun w hw => moves_encSteps _ hrun hw) (fun w _ hwt => (unitStep_encRet hwt).moves) hvt
  have hidle : t.seq = .idle :=
    andThen_seq_idle (fun _ => andThen_seq_idle fun _ => andThen_seq_idle fun _ => execEncRet_seq) h
  exact ⟨hmoves.toPersists, hmoves.atRest hidle⟩

/-- R39, R253: a VIT.DECODE run whole keeps the persistent state and leaves the engine at rest. -/
theorem execVitDecode_frame {rx : List Bit} {s t : State} (h : execVitDecode rx s = .next t) :
    Persists s t ∧ AtRest t := by
  have hmoves : Moves s t := by
    refine andThen_rel Moves.trans (fun u hu => moves_of_start rfl hu) (fun u _ hut => ?_) h
    refine andThen_rel Moves.trans (fun v hv => (unitStep_vitFrame hv).moves) (fun v _ hvt => ?_) hut
    refine andThen_rel Moves.trans (fun w hw => (unitStep_vitInit hw).moves) (fun w hrun hwt => ?_) hvt
    exact andThen_rel Moves.trans (fun x hx => moves_vitSymbols _ hrun hx) (fun x _ hxt => moves_vitFinish hxt) hwt
  have hidle : t.seq = .idle :=
    andThen_seq_idle (fun _ => andThen_seq_idle fun _ => andThen_seq_idle fun _ => andThen_seq_idle fun _ =>
      vitFinish_seq) h
  exact ⟨hmoves.toPersists, hmoves.atRest hidle⟩

/-! CFG.BUILD and TRB.BUILD run whole. -/

/-- R110: all that an accepted CFG.BUILD can do. -/
theorem execCfgBuild_eq_next {gens : List Int} {s t : State} (h : execCfgBuild gens s = .next t) :
    (badGenerators gens = true ∧ t = s.endOperation .invalidGenerator .nothing) ∨
    (badGenerators gens = false ∧ t = ((s.configured gens).flagConfigured).endOperation .ok .nothing) := by
  obtain ⟨hu, hidle⟩ | ⟨u, hu, -, hb⟩ := andThen_eq_next.mp h
  · obtain ⟨-, rfl⟩ := start_eq_next.mp hu
    cases hidle
  · obtain ⟨-, rfl⟩ := start_eq_next.mp hu
    exact buildConfig_eq_next hb

/-- The table memory after the entries of a list of pairs have been written, in order (R145, R146). -/
def writeEntries (k : Nat) (taps : List Nat) (pairs : List (Nat × Bit)) (m : Memory) : Memory :=
  pairs.foldl (fun m p => Memory.write m (window p.1 p.2) (tableEntry k taps p.1 p.2)) m

@[simp] theorem writeEntries_nil (k : Nat) (taps : List Nat) (m : Memory) : writeEntries k taps [] m = m := rfl

@[simp] theorem writeEntries_cons (k : Nat) (taps : List Nat) (p : Nat × Bit) (pairs : List (Nat × Bit)) (m : Memory) :
    writeEntries k taps (p :: pairs) m =
      writeEntries k taps pairs (Memory.write m (window p.1 p.2) (tableEntry k taps p.1 p.2)) := rfl

theorem wf_writeEntries {k : Nat} {taps : List Nat} (pairs : List (Nat × Bit)) {m : Memory}
    (h : Memory.wf m = true) : Memory.wf (writeEntries k taps pairs m) = true := by
  induction pairs generalizing m with
  | nil => exact h
  | cons p pairs ih => exact ih (Memory.wf_write h _ _)

/-- Writing entries touches their own addresses only. -/
theorem read_writeEntries_other {k : Nat} {taps : List Nat} (pairs : List (Nat × Bit)) {m : Memory} {a : Nat}
    (h : ∀ p ∈ pairs, a ≠ window p.1 p.2) : Memory.read (writeEntries k taps pairs m) a = Memory.read m a := by
  induction pairs generalizing m with
  | nil => rfl
  | cons p pairs ih =>
    rw [List.forall_mem_cons] at h
    rw [writeEntries_cons, ih h.2, Memory.read_write_other _ _ h.1]

/-- What has been written is there, whatever pairs were written after it: a pair has one entry (R151). -/
theorem read_writeEntries_same {k : Nat} {taps : List Nat} (pairs : List (Nat × Bit)) {m : Memory} {st : Nat} {d : Bit}
    (h : (st, d) ∈ pairs ∨ Memory.read m (window st d) = some (tableEntry k taps st d)) :
    Memory.read (writeEntries k taps pairs m) (window st d) = some (tableEntry k taps st d) := by
  induction pairs generalizing m with
  | nil => simpa using h
  | cons p pairs ih =>
    refine ih (or_iff_not_imp_left.mpr fun hmem => ?_)
    rw [Memory.read_write]
    split
    · rename_i hw
      obtain ⟨rfl, rfl⟩ := window_inj hw
      rfl
    · rename_i hw
      rcases h with hp | hr
      · rcases List.mem_cons.mp hp with rfl | hp
        · exact absurd rfl hw
        · exact absurd hp hmem
      · exact hr

theorem mem_tablePairs {k : Nat} {p : Nat × Bit} : p ∈ tablePairs k ↔ p.1 < 2 ^ k := by
  obtain ⟨st, d⟩ := p
  cases d <;> simp [tablePairs]

/-- R51: the addresses of the table of degree k are below 2^(k+1). -/
theorem window_lt {k st : Nat} (h : st < 2 ^ k) (d : Bit) : window st d < 2 ^ (k + 1) := by
  have := toNat_le_one d
  rw [pow_succ]
  unfold window
  omega

theorem buildEntries_eq_next (pairs : List (Nat × Bit)) {s t : State} (h : buildEntries pairs s = .next t) :
    ∃ q, t = { s with tt := writeEntries s.kreg s.taps pairs s.tt, seq := q } ∧ (q = s.seq ∨ q.unit = .trb) := by
  induction pairs generalizing s with
  | nil =>
    cases h
    exact ⟨_, rfl, .inl rfl⟩
  | cons p pairs ih =>
    obtain ⟨hu, hidle⟩ | ⟨u, hu, -, hut⟩ := andThen_eq_next.mp h
    · obtain ⟨-, rfl⟩ := execTrbEntry_eq_next.mp hu
      cases hidle
    · obtain ⟨-, rfl⟩ := execTrbEntry_eq_next.mp hu
      obtain ⟨q, rfl, hq⟩ := ih hut
      refine ⟨q, rfl, .inr ?_⟩
      rcases hq with hq | hq
      · rw [hq]
        rfl
      · exact hq

/-- R145: all that an accepted TRB.BUILD can do. -/
theorem execTrbBuild_eq_next {s t : State} (h : execTrbBuild s = .next t) :
    s.cfgValid = true ∧
      t = ({ s with tt := writeEntries s.kreg s.taps (tablePairs s.kreg) s.tt }.flagTableBuilt).endOperation .ok .nothing := by
  obtain ⟨hu, hidle⟩ | ⟨u, hu, -, hloop⟩ := andThen_eq_next.mp h
  · obtain ⟨-, rfl⟩ := start_eq_next.mp hu
    cases hidle
  · obtain ⟨hready, rfl⟩ := start_eq_next.mp hu
    refine ⟨(refusalOf_trbBuild.mp hready).2, ?_⟩
    obtain ⟨hb, hidle⟩ | ⟨v, hb, -, hend⟩ := andThen_eq_next.mp hloop
    · obtain ⟨q, rfl, hq | hq⟩ := buildEntries_eq_next _ hb
      · cases hq.symm.trans hidle
      · cases hidle
        cases hq
    · obtain ⟨q, rfl, -⟩ := buildEntries_eq_next _ hb
      cases hend
      rfl

/-! Who writes what (R39). -/

/-- ENC.LOAD and ENC.STEP write the encoder's call-scoped state and SEQ and nothing else (R126, R127). -/
theorem encWrites_of_exec {i : Instr} {s t : State} (hi : i.op = .encLoad ∨ i.op = .encStep)
    (h : exec i s = .next t) : ∃ c q, t = { s with enc := some c, seq := q } := by
  cases i <;> simp only [Instr.op, reduceCtorEq, or_self, or_true, true_or] at hi
  case encLoad => exact ⟨_, _, execEncLoad_eq_next.mp h⟩
  case encStep =>
    obtain ⟨c, d, -, -, rfl⟩ := execEncStep_eq_next.mp h
    exact ⟨_, _, rfl⟩

/-- R39, R253: ENC.ENCODE and VIT.DECODE keep the persistent state and leave the engine at rest. -/
theorem streamHost_frame {i : Instr} {s t : State} (hi : i.op = .encEncode ∨ i.op = .vitDecode)
    (h : exec i s = .next t) : Persists s t ∧ AtRest t := by
  cases i <;> simp only [Instr.op, reduceCtorEq, or_self, or_true, true_or] at hi
  case encEncode => exact execEncEncode_frame h
  case vitDecode => exact execVitDecode_frame h

/-- R253, R266: a host operation that answers a next state leaves the engine at rest. -/
theorem atRest_of_exec_host {i : Instr} {s t : State} (hi : i.isHost = true) (h : exec i s = .next t) : AtRest t := by
  cases i <;> simp only [Instr.isHost, Bool.false_eq_true] at hi
  case cfgBuild gens =>
    obtain ⟨-, rfl⟩ | ⟨-, rfl⟩ := execCfgBuild_eq_next h <;> exact atRest_endOperation _ _ _
  case trbBuild =>
    obtain ⟨-, rfl⟩ := execTrbBuild_eq_next h
    exact atRest_endOperation _ _ _
  case encEncode => exact (execEncEncode_frame h).2
  case vitDecode => exact (execVitDecode_frame h).2

/-- Settles O56, by cases on the operation: each writes what its inversion lemma or its frame says. -/
theorem whoWritesWhat : Obligations.WhoWritesWhat := by
  intro i s t h
  cases i with
  | cfgBuild gens =>
    obtain ⟨-, rfl⟩ | ⟨-, rfl⟩ := execCfgBuild_eq_next h <;> simp [Instr.op]
  | trbBuild =>
    obtain ⟨-, rfl⟩ := execTrbBuild_eq_next h
    have hother : ∀ a, 2 ^ (s.kreg + 1) ≤ a →
        Memory.read (writeEntries s.kreg s.taps (tablePairs s.kreg) s.tt) a = Memory.read s.tt a := fun a ha =>
      read_writeEntries_other _ fun p hp => by
        have := window_lt (mem_tablePairs.mp hp) p.2
        omega
    simpa [Instr.op] using hother
  | encEncode | vitDecode =>
    obtain ⟨hkeep, hrest⟩ := streamHost_frame (by simp [Instr.op]) h
    simp [Instr.op, hkeep.params, hkeep.n, hkeep.kreg, hkeep.taps, hkeep.cfgValid, hkeep.tt, hkeep.ttValid,
      hkeep.hostIn, hrest.seq, hrest.enc, hrest.vit, hrest.operand]
  | trbEntry st d =>
    obtain ⟨-, rfl⟩ := execTrbEntry_eq_next.mp h
    simp +contextual [Instr.op, Instr.isHost, Memory.read_write_other]
  | encLoad | encStep =>
    obtain ⟨c, q, rfl⟩ := encWrites_of_exec (by simp [Instr.op]) h
    simp [Instr.op, Instr.isHost]
  | encRet =>
    obtain ⟨c, -, rfl⟩ := execEncRet_eq_next.mp h
    simp [Instr.op, Instr.isHost]
  | vitFrame | vitInit | vitBranch | vitMerge | vitTerm | vitTrace | vitStrip | vitPack | vitRet =>
    cases unitStep_of_exec rfl h <;> simp [Instr.op, Instr.isHost]

/-! The flags over a step (R38). -/

/-- The row of the micro-operation at SEQ (R93); at IDLE there is none. -/
def Seq.op : Seq → Option Op
  | .idle => none
  | .cfgBuild => some .cfgBuild
  | .trbEntry _ _ => some .trbEntry
  | .encLoad => some .encLoad
  | .encStep _ => some .encStep
  | .encRet _ => some .encRet
  | .vitFrame => some .vitFrame
  | .vitInit => some .vitInit
  | .vitBranch _ => some .vitBranch
  | .vitMerge _ => some .vitMerge
  | .vitTerm _ => some .vitTerm
  | .vitTrace => some .vitTrace
  | .vitStrip => some .vitStrip
  | .vitPack => some .vitPack
  | .vitRet => some .vitRet

theorem seq_of_op_trbEntry {q : Seq} (h : q.op = some .trbEntry) : ∃ st d, q = .trbEntry st d := by
  cases q <;> simp_all [Seq.op]

theorem seq_of_op_cfgBuild {q : Seq} (h : q.op = some .cfgBuild) : q = .cfgBuild := by
  cases q <;> simp_all [Seq.op]

/-- No micro-operation at SEQ is TRB.BUILD. -/
theorem seq_op_ne_trbBuild (q : Seq) : q.op ≠ some .trbBuild := by
  cases q <;> simp [Seq.op]

/-- The words at SEQ are those of an operation of its row. -/
theorem fetchMicro_eq_ok {s : State} {ws : List Int} (hrun : s.seq ≠ .idle) (h : s.fetchMicro = .ok ws) :
    ∃ i : Instr, ws = encode i ∧ s.seq.op = some i.op := by
  cases hseq : s.seq with
  | idle => exact absurd hseq hrun
  | cfgBuild | encLoad | vitFrame =>
    simp only [State.fetchMicro, hseq] at h
    split at h <;> cases h
    exact ⟨_, rfl, rfl⟩
  | trbEntry | encStep | encRet | vitInit | vitBranch | vitMerge | vitTerm | vitTrace | vitStrip | vitPack | vitRet =>
    simp only [State.fetchMicro, hseq, Except.ok.injEq] at h
    exact ⟨_, h.symm, rfl⟩

/-- At SEQ inside an operation the engine runs the micro-operation whose words are there. -/
theorem sequencerStep_of_fetch {s : State} {i : Instr} (h : s.fetchMicro = .ok (encode i)) :
    sequencerStep s = afterEntry (exec i s) := by
  have hdec := decode_encode_append i []
  rw [List.append_nil] at hdec
  simp [sequencerStep, h, hdec]

/-- A step inside an operation runs an operation of the row at SEQ. -/
theorem sequencerStep_runs {s t : State} (hrun : s.seq ≠ .idle) (h : sequencerStep s = .next t) :
    ∃ i : Instr, s.seq.op = some i.op ∧ afterEntry (exec i s) = .next t := by
  obtain ⟨ws, -, -, hws, -, -⟩ := sequencerStep_eq_next h
  obtain ⟨i, rfl, hop⟩ := fetchMicro_eq_ok hrun hws
  exact ⟨i, hop, sequencerStep_of_fetch hws ▸ h⟩

/-- The flags and status after an operation: both flags kept, or those of a CFG.BUILD that ends OK, or those of a
TRB.BUILD (R38). -/
theorem exec_flags {i : Instr} {s t : State} (h : exec i s = .next t) :
    (t.cfgValid = s.cfgValid ∧ t.ttValid = s.ttValid) ∨
    (i.op = .cfgBuild ∧ t.status = .ok ∧ t.cfgValid = true ∧ t.ttValid = false) ∨
    (i.op = .trbBuild ∧ t.status = .ok ∧ t.cfgValid = s.cfgValid ∧ t.ttValid = true) := by
  obtain ⟨-, -, hcfg, -, -, -, htt, -⟩ := whoWritesWhat i s t h
  by_cases hc : i.op = .cfgBuild
  · cases i <;> cases hc
    obtain ⟨-, rfl⟩ | ⟨-, rfl⟩ := execCfgBuild_eq_next h
    · exact .inl ⟨rfl, rfl⟩
    · exact .inr (.inl ⟨rfl, rfl, rfl, rfl⟩)
  · obtain ⟨-, -, -, hkeep⟩ := hcfg hc
    by_cases hb : i.op = .trbBuild
    · cases i <;> cases hb
      obtain ⟨-, rfl⟩ := execTrbBuild_eq_next h
      exact .inr (.inr ⟨rfl, rfl, rfl, rfl⟩)
    · exact .inl ⟨hkeep, htt hc hb⟩

/-- Only TRB.ENTRY leaves SEQ at a pair of the table. -/
theorem op_of_exec_tableDone {i : Instr} {s u : State} (h : exec i s = .next u) (hdone : u.tableDone = true) :
    i.op = .trbEntry := by
  have hunit : u.seq.unit = .trb := by
    unfold State.tableDone at hdone
    split at hdone
    · rename_i hseq
      rw [hseq]
      rfl
    · cases hdone
  cases i with
  | trbEntry => rfl
  | cfgBuild | trbBuild | encEncode | vitDecode =>
    rw [(atRest_of_exec_host rfl h).seq] at hunit
    cases hunit
  | encLoad | encStep | encRet | vitFrame | vitInit | vitBranch | vitMerge | vitTerm | vitTrace | vitStrip | vitPack
  | vitRet =>
    obtain hu | hu := (unitStep_of_exec rfl h).seq_unit <;> cases hu.symm.trans hunit

/-- SEQ or the command stream stands at a CFG.BUILD. -/
def State.atCfgBuild (s : State) : Prop := s.seq = .cfgBuild ∨ ∃ gens rest, s.fetchHost = .command (.cfgBuild gens) rest

/-- SEQ stands at a TRB.ENTRY, or the command stream at a TRB.BUILD. -/
def State.atTrbBuild (s : State) : Prop :=
  (∃ st d, s.seq = .trbEntry st d) ∨ ∃ rest, s.fetchHost = .command .trbBuild rest

/-- The flags and status after a step, as `exec_flags`. -/
theorem step_flags {s t : State} (h : step s = .next t) :
    (t.cfgValid = s.cfgValid ∧ t.ttValid = s.ttValid) ∨
    (s.atCfgBuild ∧ t.status = .ok ∧ t.cfgValid = true ∧ t.ttValid = false) ∨
    (s.atTrbBuild ∧ t.status = .ok ∧ t.cfgValid = s.cfgValid ∧ t.ttValid = true) := by
  by_cases hidle : s.seq = .idle
  · rw [step_idle hidle] at h
    obtain ⟨-, rfl⟩ | ⟨i, rest, hfetch, hexec⟩ := idleStep_eq_next h
    · exact .inl ⟨rfl, rfl⟩
    · obtain hkeep | ⟨hop, hflags⟩ | ⟨hop, hflags⟩ := exec_flags hexec
      · exact .inl hkeep
      · cases i <;> cases hop
        exact .inr (.inl ⟨.inr ⟨_, _, hfetch⟩, hflags⟩)
      · cases i <;> cases hop
        exact .inr (.inr ⟨.inr ⟨_, hfetch⟩, hflags⟩)
  · rw [step_running hidle] at h
    obtain ⟨i, hop, hafter⟩ := sequencerStep_runs hidle h
    obtain ⟨u, hexec, ⟨hdone, rfl⟩ | ⟨-, rfl⟩⟩ := afterEntry_eq_next hafter
    · have hentry := op_of_exec_tableDone hexec hdone
      obtain ⟨-, -, hcfg, -⟩ := whoWritesWhat i s u hexec
      obtain ⟨-, -, -, hkeep⟩ := hcfg (by simp [hentry])
      rw [hentry] at hop
      exact .inr (.inr ⟨.inl (seq_of_op_trbEntry hop), rfl, hkeep, rfl⟩)
    · obtain hkeep | ⟨hcfg, hflags⟩ | ⟨htrb, -⟩ := exec_flags hexec
      · exact .inl hkeep
      · rw [hcfg] at hop
        exact .inr (.inl ⟨.inl (seq_of_op_cfgBuild hop), hflags⟩)
      · rw [htrb] at hop
        exact absurd hop (seq_op_ne_trbBuild _)

/-- Settles O57: each clause reads off which of the three changes of the flags the step made. -/
theorem flagsOverSteps : Obligations.FlagsOverSteps := by
  intro s t h
  obtain ⟨hc, ht⟩ | ⟨hat, hok, hc, ht⟩ | ⟨hat, hok, hc, ht⟩ := step_flags h
  · exact ⟨hc.trans, fun hset hclear => by simp [ht, hset] at hclear, fun hclear hset => by simp [ht, hclear] at hset⟩
  · exact ⟨fun _ => hc, fun _ _ => ⟨hok, hc, hat⟩, fun _ hset => by simp [ht] at hset⟩
  · exact ⟨hc.trans, fun _ hclear => by simp [ht] at hclear, fun _ _ => ⟨hok, hat⟩⟩

end Sys2Proof.Machine
end

section
/-! PROOFS. The engine at reset: the values of R40, and the invariant. -/

namespace Sys2Proof.Machine

theorem fetchHost_nil {s : State} (h : s.hostIn = []) : s.fetchHost = .waiting := by
  simp [State.fetchHost, h, decodeHost, decode]

theorem step_waiting {s : State} (hidle : s.seq = .idle) (h : s.fetchHost = .waiting) : step s = .next s := by
  simp [step_idle hidle, idleStep, h]

/-- Settles O9: each value is `State.reset`'s own, and with no command on the stream the step waits. -/
theorem resetValues : Obligations.ResetValues :=
  ⟨reset_cfgValid, reset_ttValid, reset_status, reset_seq, reset_enc, reset_vit,
    step_waiting reset_seq (fetchHost_nil reset_hostIn)⟩

/-- Settles O10: no configuration and no table are valid, and nothing is running. -/
theorem invAtReset : Obligations.InvAtReset := by
  refine ⟨fun hcfg => ?_, ⟨reset_tt_wf, fun htt => ?_⟩, ?_⟩
  · simp at hcfg
  · simp at htt
  · exact ⟨reset_enc, reset_vit, reset_operand⟩

end Sys2Proof.Machine
end

section
/-! PROOFS. The invariant of the engine: what it rests on, and that the operations of CFG, TRB and ENC keep it and do
not fault, one lemma per value of SEQ. -/

namespace Sys2Proof.Machine

/-- The outcome is no fault, and a next state has the invariant. -/
def Safe (o : Out) : Prop := (∀ t, o = .next t → EngineInv t) ∧ ∀ f, o ≠ .fault f

@[simp] theorem safe_next {s : State} : Safe (.next s) ↔ EngineInv s := by simp [Safe]

@[simp] theorem safe_refused (r : Refusal) : Safe (.refused r) := by simp [Safe]

/-! The invariant rests on the persistent state and on what holds at SEQ. -/

theorem entryBuilt_iff {s : State} {st : Nat} {d : Bit} :
    EntryBuilt s st d ↔ st < 2 ^ s.kreg ∧ Memory.read s.tt (window st d) = some (tableEntry s.kreg s.taps st d) := by
  rw [EntryBuilt, readTable_eq, isState_iff]

theorem cfgInv_of_persists {s t : State} (h : Persists s t) (hs : CfgInv s) : CfgInv t := by
  simpa only [CfgInv, h.cfgValid, h.n, h.taps, h.kreg] using hs

theorem tableInv_of_persists {s t : State} (h : Persists s t) (hs : TableInv s) : TableInv t := by
  simpa only [TableInv, TableBuilt, entryBuilt_iff, h.cfgValid, h.tt, h.ttValid, h.taps, h.kreg] using hs

theorem seqInv_of_atRest {t : State} (h : AtRest t) : SeqInv t := by
  simp [SeqInv, h.seq, h.enc, h.vit, h.operand]

theorem engineInv_of_persists {s t : State} (h : Persists s t) (hs : EngineInv s) (ht : SeqInv t) : EngineInv t :=
  ⟨cfgInv_of_persists h hs.1, tableInv_of_persists h hs.2.1, ht⟩

/-- R253: ending an operation leaves the invariant of the persistent state and nothing at SEQ. -/
theorem engineInv_endOperation {s : State} (hcfg : CfgInv s) (htable : TableInv s) (st : Status) (r : Result) :
    EngineInv (s.endOperation st r) :=
  ⟨hcfg, htable, seqInv_of_atRest (atRest_endOperation s st r)⟩

/-! CFG.BUILD (R21 to R23). -/

theorem lt_two_pow_bitlen (v : Nat) : v < 2 ^ bitlen v := by
  unfold bitlen
  split
  · omega
  · exact Nat.lt_log2_self

theorem bitlen_pos {v : Nat} (h : 0 < v) : bitlen v = v.log2 + 1 := if_neg (by omega)

/-- R112: every generator fits the constraint length, and one has its top bit. -/
theorem lt_of_constraintLength {gens : List Int} (h : LegalGenerators gens) {g : Int} (hg : g ∈ gens) :
    g.toNat < 2 ^ (constraintLength gens + 1) := by
  have hmem : bitlen g.toNat ∈ gens.map fun g => bitlen g.toNat := List.mem_map_of_mem hg
  have hle : bitlen g.toNat ≤ (gens.map fun g => bitlen g.toNat).foldr max 0 := List.le_max_of_le hmem le_rfl
  have hpos : 0 < bitlen g.toNat := by have := h.2 g hg; rw [bitlen_pos (by omega)]; omega
  calc g.toNat < 2 ^ bitlen g.toNat := lt_two_pow_bitlen _
    _ ≤ 2 ^ (constraintLength gens + 1) := Nat.pow_le_pow_right (by omega) (by unfold constraintLength; omega)

theorem exists_testBit_constraintLength {gens : List Int} (h : LegalGenerators gens) :
    ∃ g ∈ gens, g.toNat.testBit (constraintLength gens) = true := by
  have hne : (gens.map fun g => bitlen g.toNat) ≠ [] := by simpa using h.1
  obtain ⟨g, hg, hlen⟩ := List.mem_map.mp (List.maximum_mem (List.foldr_max_of_ne_nil hne).symm)
  have hpos : 0 < g.toNat := by have := h.2 g hg; omega
  rw [bitlen_pos hpos] at hlen
  have hk : constraintLength gens = g.toNat.log2 := by
    have hlen' : g.toNat.log2 + 1 = (gens.map fun g => bitlen g.toNat).foldr max 0 := hlen
    unfold constraintLength
    omega
  exact ⟨g, hg, by rw [hk]; exact Nat.testBit_log2 (by omega)⟩

theorem cfgInv_configured (s : State) {gens : List Int} (h : LegalGenerators gens) :
    CfgInv (s.configured gens).flagConfigured := by
  intro _
  refine ⟨List.length_pos_iff.mpr h.1, by simp [tapVectors], ?_, ?_⟩
  · simp only [flagConfigured_taps, flagConfigured_kreg, configured_taps, configured_kreg, tapVectors, List.forall_mem_map]
    intro g hg
    have := h.2 g hg
    exact ⟨by omega, lt_of_constraintLength h hg⟩
  · simpa [tapVectors] using exists_testBit_constraintLength h

theorem engineInv_of_execCfgBuild {gens : List Int} {s t : State} (hs : EngineInv s)
    (h : execCfgBuild gens s = .next t) : EngineInv t := by
  obtain ⟨hcfg, htable, -⟩ := hs
  obtain ⟨-, rfl⟩ | ⟨hgood, rfl⟩ := execCfgBuild_eq_next h
  · exact engineInv_endOperation hcfg htable _ _
  · have hclear : TableInv (s.configured gens).flagConfigured := ⟨htable.1, fun hvalid => by cases hvalid⟩
    exact engineInv_endOperation (cfgInv_configured s (badGenerators_eq_false.mp hgood)) hclear _ _

theorem start_ne_fault (i : Instr) (s : State) (f : Fault) : start i s ≠ .fault f := by
  unfold start
  split <;> simp

theorem buildConfig_ne_fault (gens : List Int) (s : State) (f : Fault) : buildConfig gens s ≠ .fault f := by
  unfold buildConfig
  split <;> simp

theorem andThen_ne_fault {o : Out} {rest : State → Out} {f : Fault} (ho : o ≠ .fault f) (hrest : ∀ s, rest s ≠ .fault f) :
    andThen o rest ≠ .fault f := by
  cases o with
  | next s =>
    rw [andThen_next]
    split
    · simp
    · exact hrest s
  | fault r => exact ho
  | refused r => simp

theorem safe_execCfgBuild (gens : List Int) {s : State} (hs : EngineInv s) : Safe (execCfgBuild gens s) :=
  ⟨fun _ => engineInv_of_execCfgBuild hs, fun f =>
    andThen_ne_fault (start_ne_fault _ s f) fun u => buildConfig_ne_fault gens u f⟩

/-! TRB (R28, R145, R146). -/

theorem window_lt_window {st st' : Nat} (h : st < st') (d d' : Bit) : window st d < window st' d' := by
  have := toNat_le_one d
  unfold window
  omega

theorem engineInv_of_execTrbBuild {s t : State} (hs : EngineInv s) (h : execTrbBuild s = .next t) : EngineInv t := by
  obtain ⟨hcfg, htable, -⟩ := hs
  obtain ⟨hvalid, rfl⟩ := execTrbBuild_eq_next h
  refine engineInv_endOperation ?_ ?_ _ _
  · exact hcfg
  · refine ⟨wf_writeEntries _ htable.1, fun _ => ⟨hvalid, fun st hst d => ?_⟩⟩
    exact entryBuilt_iff.mpr ⟨hst, read_writeEntries_same _ (.inl (mem_tablePairs.mpr hst))⟩

/-- Writing the entry of one pair builds it and keeps every entry that was built (R151). -/
theorem entryBuilt_written {s : State} {st st' : Nat} {d d' : Bit} (hst : st < 2 ^ s.kreg) (q : Seq)
    (h : (st', d') = (st, d) ∨ EntryBuilt s st' d') :
    EntryBuilt { s.writeTable st d (tableEntry s.kreg s.taps st d) with seq := q } st' d' := by
  rw [entryBuilt_iff] at h ⊢
  refine ⟨?_, ?_⟩
  · rcases h with h | h
    · cases h
      exact hst
    · exact h.1
  · refine read_writeEntries_same (pairs := [(st, d)]) ?_
    simpa using h.imp_right And.right

theorem eq_or_window_lt_of_lt_pairAfter {st st' : Nat} {d d' : Bit}
    (h : window st' d' < window (pairAfter st d).1 (pairAfter st d).2) :
    (st', d') = (st, d) ∨ window st' d' < window st d := by
  rw [window_pairAfter] at h
  rcases Nat.lt_succ_iff_lt_or_eq.mp h with hlt | heq
  · exact .inr hlt
  · obtain ⟨rfl, rfl⟩ := window_inj heq
    exact .inl rfl

theorem safe_afterEntry_trbEntry {s : State} {st : Nat} {d : Bit} (hs : EngineInv s) (hseq : s.seq = .trbEntry st d) :
    Safe (afterEntry (execTrbEntry st d s)) := by
  obtain ⟨hcfg, htable, hat⟩ := hs
  simp only [SeqInv, hseq] at hat
  obtain ⟨hvalid, henc, hvit, hst, hbuilt⟩ := hat
  rw [execTrbEntry_eq_next.mpr ⟨hst, rfl⟩, afterEntry_next]
  set q : Seq := .trbEntry (pairAfter st d).1 (pairAfter st d).2 with hq
  have hnext : ∀ st' < 2 ^ s.kreg, ∀ d', window st' d' < window (pairAfter st d).1 (pairAfter st d).2 →
      EntryBuilt { s.writeTable st d (tableEntry s.kreg s.taps st d) with seq := q } st' d' := fun st' hst' d' hw =>
    entryBuilt_written hst q ((eq_or_window_lt_of_lt_pairAfter hw).imp_right (hbuilt st' hst' d'))
  have hwf : Memory.wf (Memory.write s.tt (window st d) (tableEntry s.kreg s.taps st d)) = true :=
    Memory.wf_write htable.1 _ _
  split
  · rename_i hdone
    have hlast : 2 ^ s.kreg ≤ (pairAfter st d).1 := by
      simpa [State.tableDone, hq, Bool.eq_false_iff, isState_iff] using hdone
    refine safe_next.mpr (engineInv_endOperation ?_ ?_ _ _)
    · exact hcfg
    · refine ⟨hwf, fun _ => ⟨hvalid, fun st' hst' d' => ?_⟩⟩
      exact hnext st' hst' d' (window_lt_window (Nat.lt_of_lt_of_le hst' hlast) _ _)
  · rename_i hgo
    have hmore : (pairAfter st d).1 < 2 ^ s.kreg := by
      simpa [State.tableDone, hq, isState_iff] using hgo
    refine safe_next.mpr ⟨hcfg, ⟨hwf, fun htt => ⟨hvalid, fun st' hst' d' => ?_⟩⟩, hvalid, henc, hvit, hmore, hnext⟩
    exact entryBuilt_written hst q (.inr ((htable.2 htt).2 st' hst' d'))

/-- After any other micro-operation TRB.BUILD does not end: SEQ is at no pair outside the table. -/
theorem Safe.afterEntry {o : Out} (h : Safe o) : Safe (afterEntry o) := by
  cases o with
  | next u =>
    obtain ⟨-, -, hat⟩ := safe_next.mp h
    have hnot : u.tableDone = false := by
      unfold State.tableDone
      split
      · rename_i hseq
        simp only [SeqInv, hseq] at hat
        simpa [isState_iff] using hat.2.2.2.1
      · rfl
    simpa [afterEntry_next, hnot] using h
  | fault r => exact h
  | refused r => exact h

/-! ENC (R25, R27, R126 to R131). -/

theorem seqInv_encNext {s : State} {c : EncCall} {i : Nat} (hcfg : s.cfgValid = true) (hvit : s.vit = none)
    (henc : s.enc = some c) (hinv : EncInv s i) (hseq : s.seq = encNext c.u i) : SeqInv s := by
  obtain ⟨c', henc', -, hi, -⟩ := id hinv
  cases henc.symm.trans henc'
  unfold encNext at hseq
  split at hseq
  · rename_i hlt
    simp only [SeqInv, hseq]
    exact ⟨hcfg, hvit, hinv, c, henc, hlt⟩
  · simp only [SeqInv, hseq]
    exact ⟨hcfg, hvit, hinv, c, henc, by omega⟩

theorem safe_execEncLoad (bytes : List Byte) {s : State} (hs : EngineInv s) (hseq : s.seq = .encLoad) :
    Safe (execEncLoad bytes s) := by
  obtain ⟨hcfg, htable, hat⟩ := hs
  simp only [SeqInv, hseq] at hat
  obtain ⟨hvalid, -, hvit, -⟩ := hat
  refine safe_next.mpr ⟨hcfg, htable, seqInv_encNext (i := 0) hvalid hvit rfl ?_ rfl⟩
  exact ⟨_, rfl, rfl, Nat.zero_le _, ⟨bytes, rfl⟩, by simp [EncCall.start], by simp [EncCall.start, walkState],
    by simp [EncCall.start, walkCode]⟩

/-- R127: one step of the encoder is one step of the walk. -/
theorem encInv_stepped {s : State} {c : EncCall} {d : Bit} {q : Seq} (henc : s.enc = some c) (hinv : EncInv s c.ui)
    (hd : c.u[c.ui]? = some d) :
    EncInv { s with enc := some (c.stepped s.kreg s.taps d), seq := q } (c.ui + 1) := by
  obtain ⟨c', henc', -, -, hbytes, hlen, hstate, hcode⟩ := hinv
  cases henc.symm.trans henc'
  obtain ⟨hlt, -⟩ := List.getElem?_eq_some_iff.mp hd
  have htake : c.u.take (c.ui + 1) = c.u.take c.ui ++ [d] := by rw [List.take_add_one, hd]; rfl
  refine ⟨_, rfl, rfl, hlt, hbytes, by simpa [EncCall.stepped] using hlen, ?_, ?_⟩
  · change regState (shiftIn c.sr d) = walkState s.kreg 0 (c.u.take (c.ui + 1))
    rw [regState_shiftIn, hlen, hstate, htake, walkState_append]
    rfl
  · change c.code ++ outputGroup s.kreg s.taps (regState c.sr) d = walkCode s.kreg s.taps 0 (c.u.take (c.ui + 1))
    rw [htake, walkCode_append, ← hcode, ← hstate]
    simp [walkCode]

theorem safe_execEncStep {s : State} {i : Nat} (hs : EngineInv s) (hseq : s.seq = .encStep i) :
    Safe (execEncStep s) := by
  obtain ⟨hcfg, htable, hat⟩ := hs
  simp only [SeqInv, hseq] at hat
  obtain ⟨hvalid, hvit, hinv, c, henc, hlt⟩ := hat
  obtain ⟨c', henc', rfl, -⟩ := id hinv
  cases henc.symm.trans henc'
  have hd : c.u[c.ui]? = some c.u[c.ui] := List.getElem?_eq_getElem hlt
  rw [execEncStep_eq_next.mpr ⟨c, _, henc, hd, rfl⟩]
  exact safe_next.mpr ⟨hcfg, htable, seqInv_encNext hvalid hvit rfl (encInv_stepped henc hinv hd) rfl⟩

theorem safe_execEncRet {s : State} {i : Nat} (hs : EngineInv s) (hseq : s.seq = .encRet i) : Safe (execEncRet s) := by
  obtain ⟨hcfg, htable, hat⟩ := hs
  simp only [SeqInv, hseq] at hat
  obtain ⟨-, -, -, c, henc, -⟩ := hat
  rw [execEncRet_eq_next.mpr ⟨c, henc, rfl⟩]
  exact safe_next.mpr (engineInv_endOperation hcfg htable _ _)

end Sys2Proof.Machine
end

section
/-! PROOFS. The invariant of the engine inside a VIT.DECODE: each micro-operation establishes what holds at the next
one (R171) and does not fault. -/

namespace Sys2Proof.Machine

/-! Trails (R32, R163, R182). -/

theorem trail_current_append (path : List Nat) (st m : Nat) :
    Trail.current { path := path ++ [st], metric := m } = some st := by
  simp [Trail.current]

theorem isTrail_initial (s : State) (rx : List Bit) : IsTrail s rx 0 Trail.initial :=
  ⟨[], rfl, rfl, by simp [Trail.initial, walkCode, hamming]⟩

theorem current_of_walkPath {tr : Trail} {k : Nat} {us : List Bit} (h : tr.path = walkPath k 0 us) :
    tr.current = some (walkState k 0 us) := by
  rw [Trail.current, h, walkPath_getLast?]

/-- R163, R164: a trail after `t` symbols, extended by a hypothesis under symbol `t`, is a trail after `t + 1`. -/
theorem IsTrail.extend {s : State} {rx : List Bit} {t : Nat} {tr : Trail} (h : IsTrail s rx t tr)
    (htaps : s.taps.length = s.n) (hfit : (t + 1) * s.n ≤ rx.length) {st : Nat} (hst : tr.current = some st) (d : Bit) :
    IsTrail s rx (t + 1)
      { path := tr.path ++ [nextState s.kreg st d]
        metric := tr.metric + hamming (outputGroup s.kreg s.taps st d) ((rx.drop (t * s.n)).take s.n) } := by
  obtain ⟨us, hlen, hpath, hmetric⟩ := h
  have hstate : walkState s.kreg 0 us = st := Option.some.inj ((current_of_walkPath hpath).symm.trans hst)
  have hmul : (t + 1) * s.n = t * s.n + s.n := Nat.succ_mul t s.n
  have hsame : (walkCode s.kreg s.taps 0 us).length = (rx.take (t * s.n)).length := by
    rw [walkCode_length, hlen, htaps, List.length_take]
    omega
  refine ⟨us ++ [d], by simp [hlen], ?_, ?_⟩
  · rw [walkPath_snoc, hstate, hpath]
  · rw [hmul, List.take_add, walkCode_append, hamming_append hsame, hstate, hmetric]
    simp [walkCode]

theorem liveInv_initial (s : State) {c : VitCall} (h : c.live = [Trail.initial]) : LiveInv s c 0 := by
  refine ⟨by simp [h], fun q tr hq => ?_⟩
  rw [h] at hq
  cases q with
  | zero =>
    cases hq
    exact ⟨rfl, isTrail_initial s c.rx⟩
  | succ q => simp at hq

/-- The state at a position of the live set is a state of the trellis, and there is a trail at every position (R171). -/
theorem LiveInv.lt_of_mem {s : State} {c : VitCall} {t : Nat} (h : LiveInv s c t) {tr : Trail} (hmem : tr ∈ c.live) :
    ∃ q < 2 ^ s.kreg, tr.current = some q ∧ IsTrail s c.rx t tr := by
  obtain ⟨hlen, hat⟩ := h
  obtain ⟨q, hq⟩ := List.mem_iff_getElem?.mp hmem
  obtain ⟨hlt, -⟩ := List.getElem?_eq_some_iff.mp hq
  have hle : 2 ^ min t s.kreg ≤ 2 ^ s.kreg := Nat.pow_le_pow_right (by omega) (Nat.min_le_right _ _)
  exact ⟨q, by omega, hat q tr hq⟩

/-! The branch step (R163, R165). -/

theorem branch_of_tableBuilt {s : State} {c : VitCall} {t : Nat} (htable : TableBuilt s) (hlive : LiveInv s c t)
    (y : List Bit) : ∃ cand, branch s y c.live = .ok cand :=
  branch_ok fun tr hmem => by
    obtain ⟨q, hq, hcur, -⟩ := hlive.lt_of_mem hmem
    exact ⟨q, hcur, fun d => ⟨_, htable q hq d⟩⟩

theorem candInv_of_branch {s : State} {c : VitCall} {t : Nat} {cand : List Trail} (htable : TableBuilt s)
    (htaps : s.taps.length = s.n) (hfit : (t + 1) * s.n ≤ c.rx.length) (hlive : LiveInv s c t)
    (h : branch s ((c.rx.drop (t * s.n)).take s.n) c.live = .ok cand) : CandInv s { c with cand := cand } t := by
  refine ⟨by rw [← hlive.1]; exact branch_length h, fun q d tr hq => ?_⟩
  obtain ⟨tr0, hq0, hext⟩ := branch_getElem? h q d tr hq
  obtain ⟨st, e, hst, hread, rfl⟩ := extend_eq_ok.mp hext
  obtain ⟨hcur, htrail⟩ := hlive.2 q tr0 hq0
  cases hcur.symm.trans hst
  obtain ⟨q', hq', hcur', -⟩ := hlive.lt_of_mem (List.mem_of_getElem? hq0)
  cases hcur.symm.trans hcur'
  cases hread.symm.trans (htable q hq' d)
  exact ⟨trail_current_append _ _ _, htrail.extend htaps hfit hcur d⟩

theorem symbol_fits {s : State} {c : VitCall} {t : Nat} (hframe : FrameInv s c) (ht : t < c.l) :
    (t + 1) * s.n ≤ c.rx.length := by
  rw [hframe]
  exact Nat.mul_le_mul_right _ ht

theorem safe_execVitBranch {s : State} {t : Nat} (hs : EngineInv s) (hseq : s.seq = .vitBranch t) :
    Safe (execVitBranch s) := by
  obtain ⟨hcfg, htable, hat⟩ := hs
  simp only [SeqInv, hseq] at hat
  obtain ⟨hvalid, hready, henc, c, hvit, hframe, rfl, ht, -, hlive⟩ := hat
  obtain ⟨-, htaps, -⟩ := hcfg hvalid
  obtain ⟨-, hbuilt⟩ := htable.2 hready
  have hfit := symbol_fits hframe ht
  obtain ⟨cand, hcand⟩ := branch_of_tableBuilt hbuilt hlive ((c.rx.drop (c.ti * s.n)).take s.n)
  rw [execVitBranch_eq_next.mpr ⟨c, _, cand, hvit, symbolAt_of_le hfit, hcand, rfl⟩]
  have hcandInv := candInv_of_branch hbuilt htaps hfit hlive hcand
  exact safe_next.mpr ⟨hcfg, htable, hvalid, hready, henc, _, rfl, hframe, rfl, ht, hlive, hcandInv⟩

/-! The merge step (R167, R169, R171). -/

/-- Every position of the candidate list is 2q + d for one q and one d (R165). -/
theorem exists_eq_window (i : Nat) : ∃ q d, i = window q d := by
  refine ⟨i / 2, i.testBit 0, ?_⟩
  rw [window, Nat.testBit_zero]
  rcases Nat.mod_two_eq_zero_or_one i with h | h <;> simp [h] <;> omega

theorem CandInv.getElem? {s : State} {c : VitCall} {t i : Nat} {tr : Trail} (h : CandInv s c t)
    (hi : c.cand[i]? = some tr) : tr.current = some (i % 2 ^ s.kreg) ∧ IsTrail s c.rx (t + 1) tr := by
  obtain ⟨q, d, rfl⟩ := exists_eq_window i
  exact h.2 q d tr hi

/-- Once the trellis is full every state has a candidate (R166). -/
theorem CandInv.trailsAt_ne_nil {s : State} {c : VitCall} {t : Nat} (h : CandInv s c t)
    (hfull : c.cand.length = 2 * 2 ^ s.kreg) {st : Nat} (hst : st < 2 ^ s.kreg) : trailsAt st c.cand ≠ [] := by
  have hi : c.cand[st]? = some c.cand[st] := List.getElem?_eq_getElem (by omega)
  obtain ⟨hcur, -⟩ := h.getElem? hi
  rw [Nat.mod_eq_of_lt hst] at hcur
  exact List.ne_nil_of_mem (mem_trailsAt.mpr ⟨List.mem_of_getElem? hi, hcur⟩)

theorem survivors_length {lw : Bool} {k : Nat} {cand : List Trail} (h : ∀ st < 2 ^ k, trailsAt st cand ≠ []) :
    (survivors lw k cand).length = 2 ^ k := by
  have hat := survivors_getElem? (lw := lw) h
  refine Nat.le_antisymm (List.getElem?_eq_none_iff.mp (by simp [hat])) (Nat.le_of_not_lt fun hshort => ?_)
  have hnone : (survivors lw k cand)[(survivors lw k cand).length]? = none := List.getElem?_eq_none_iff.mpr le_rfl
  rw [hat, if_pos hshort, leastTrail_eq_none] at hnone
  exact h _ hshort hnone

theorem CandInv.liveInv_merged {s : State} {c c' : VitCall} {t : Nat} (h : CandInv s c t) (lw : Bool)
    (hrx : c'.rx = c.rx) (hlive : c'.live = merged lw s.kreg c.cand) : LiveInv s c' (t + 1) := by
  have hlen := h.1
  rw [LiveInv, hlive, hrx]
  unfold merged
  split
  · rename_i hfull
    have hne := fun st hst => h.trailsAt_ne_nil hfull (st := st) hst
    have hk : min t s.kreg = s.kreg := by
      have := hlen.symm.trans hfull
      exact Nat.pow_right_injective (le_refl 2) (by simpa using this)
    refine ⟨by rw [survivors_length hne, show min (t + 1) s.kreg = s.kreg by omega], fun q tr hq => ?_⟩
    rw [survivors_getElem? hne] at hq
    split at hq
    · obtain ⟨hmem, hcur⟩ := mem_trailsAt.mp (leastTrail_spec hq).1
      obtain ⟨i, hi⟩ := List.mem_iff_getElem?.mp hmem
      exact ⟨hcur, (h.getElem? hi).2⟩
    · cases hq
  · rename_i hfilling
    have hk : t < s.kreg := by
      by_contra hge
      rw [Nat.min_eq_right (by omega)] at hlen
      exact hfilling hlen
    rw [Nat.min_eq_left (by omega)] at hlen
    have hle : 2 ^ (t + 1) ≤ 2 ^ s.kreg := Nat.pow_le_pow_right (by omega) hk
    rw [pow_succ] at hle
    refine ⟨by rw [hlen, Nat.min_eq_left hk, pow_succ, Nat.mul_comm], fun q tr hq => ?_⟩
    obtain ⟨hlt, -⟩ := List.getElem?_eq_some_iff.mp hq
    have := h.getElem? hq
    rwa [Nat.mod_eq_of_lt (by omega)] at this

theorem seqInv_vitNext {s : State} {c : VitCall} {t : Nat} (hvalid : s.cfgValid = true) (hready : s.ttValid = true)
    (henc : s.enc = none) (hvit : s.vit = some c) (hframe : FrameInv s c) (hti : c.ti = t) (ht : t ≤ c.l)
    (hcand : c.cand = []) (hlive : LiveInv s c t) (hseq : s.seq = vitNext c.l t) : SeqInv s := by
  unfold vitNext at hseq
  split at hseq
  · rename_i hlt
    simp only [SeqInv, hseq]
    exact ⟨hvalid, hready, henc, c, hvit, hframe, hti, hlt, hcand, hlive⟩
  · simp only [SeqInv, hseq]
    exact ⟨hvalid, hready, henc, c, hvit, hframe, hti, by omega, hlive⟩

theorem safe_execVitMerge {s : State} {t : Nat} (hs : EngineInv s) (hseq : s.seq = .vitMerge t) :
    Safe (execVitMerge s) := by
  obtain ⟨hcfg, htable, hat⟩ := hs
  simp only [SeqInv, hseq] at hat
  obtain ⟨hvalid, hready, henc, c, hvit, hframe, rfl, ht, -, hcand⟩ := hat
  rw [execVitMerge_eq_next.mpr ⟨c, hvit, rfl⟩]
  exact safe_next.mpr ⟨hcfg, htable, seqInv_vitNext hvalid hready henc rfl hframe rfl ht rfl
    (hcand.liveInv_merged s.params.laterWins rfl rfl) rfl⟩

/-! The start of a decoding (R161, R162). -/

theorem safe_execVitFrame (rx : List Bit) {s : State} (hs : EngineInv s) (hseq : s.seq = .vitFrame) :
    Safe (execVitFrame rx s) := by
  obtain ⟨hcfg, htable, hat⟩ := hs
  simp only [SeqInv, hseq] at hat
  obtain ⟨hvalid, hready, henc, -⟩ := hat
  unfold execVitFrame
  split
  · exact safe_next.mpr (engineInv_endOperation hcfg htable _ _)
  · rename_i hwhole
    have hframe : FrameInv s (VitCall.start s.n rx) :=
      (Nat.div_mul_cancel (Nat.dvd_of_mod_eq_zero (not_not.mp hwhole))).symm
    exact safe_next.mpr ⟨hcfg, htable, hvalid, hready, henc, _, rfl, hframe⟩

theorem safe_execVitInit {s : State} (hs : EngineInv s) (hseq : s.seq = .vitInit) : Safe (execVitInit s) := by
  obtain ⟨hcfg, htable, hat⟩ := hs
  simp only [SeqInv, hseq] at hat
  obtain ⟨hvalid, hready, henc, c, hvit, hframe⟩ := hat
  rw [execVitInit_eq_next.mpr ⟨c, hvit, rfl⟩]
  exact safe_next.mpr ⟨hcfg, htable, seqInv_vitNext hvalid hready henc rfl hframe rfl (Nat.zero_le _) rfl
    (liveInv_initial _ rfl) rfl⟩

/-! The end of a decoding (R174 to R181). -/

theorem safe_execVitTerm {s : State} {t : Nat} (hs : EngineInv s) (hseq : s.seq = .vitTerm t) :
    Safe (execVitTerm s) := by
  obtain ⟨hcfg, htable, hat⟩ := hs
  simp only [SeqInv, hseq] at hat
  obtain ⟨hvalid, hready, henc, c, hvit, hframe, -, rfl, hlive⟩ := hat
  simp only [execVitTerm, vitCall_eq.mpr hvit, orFault_ok]
  split
  · exact safe_next.mpr (engineInv_endOperation hcfg htable _ _)
  · rename_i w hw
    obtain ⟨hmem, hcur⟩ := mem_trailsAt.mp (leastTrail_spec hw).1
    obtain ⟨q, -, -, htrail⟩ := hlive.lt_of_mem hmem
    exact safe_next.mpr ⟨hcfg, htable, hvalid, hready, henc, _, w, rfl, hframe, rfl, rfl, hcur, htrail⟩

/-- R177: between a state and one of its successors a bit can be traced. -/
theorem tracedBit_ok {s : State} (htable : TableBuilt s) {st : Nat} (hst : st < 2 ^ s.kreg) (d : Bit) :
    ∃ e, tracedBit s st (nextState s.kreg st d) = .ok e := by
  have h0 := htable st hst false
  have h1 := htable st hst true
  rw [EntryBuilt] at h0 h1
  cases d <;> simp only [tracedBit, h0, h1, tableEntry]
  · exact ⟨false, by simp⟩
  · split
    · exact ⟨false, rfl⟩
    · exact ⟨true, by simp⟩

theorem walkPath_eq_cons (k st : Nat) (us : List Bit) : ∃ path, walkPath k st us = st :: path := by
  cases us with
  | nil => exact ⟨[], rfl⟩
  | cons d us => exact ⟨_, rfl⟩

/-- R177: tracing back a walk gives one bit for each of its steps. -/
theorem tracedBits_walkPath {s : State} (htable : TableBuilt s) {st : Nat} (hst : st < 2 ^ s.kreg) (us : List Bit) :
    ∃ ds, tracedBits s us.length (walkPath s.kreg st us) = .ok ds ∧ ds.length = us.length := by
  induction us generalizing st with
  | nil => exact ⟨[], rfl, rfl⟩
  | cons d us ih =>
    obtain ⟨e, he⟩ := tracedBit_ok htable hst d
    obtain ⟨ds, hds, hlen⟩ := ih (nextState_lt s.kreg st d)
    obtain ⟨path, hpath⟩ := walkPath_eq_cons s.kreg (nextState s.kreg st d) us
    rw [hpath] at hds
    refine ⟨e :: ds, ?_, by simp [hlen]⟩
    simp only [walkPath, hpath, List.length_cons, tracedBits, he, hds]

theorem hamming_le_length (as bs : List Bit) : hamming as bs ≤ as.length := by
  induction as generalizing bs with
  | nil => simp [hamming]
  | cons a as ih =>
    cases bs with
    | nil => simp [hamming]
    | cons b bs =>
      have := toNat_le_one (Bool.xor a b)
      have := ih bs
      rw [hamming_cons, List.length_cons]
      omega

/-- R207: a trail's metric counts at most the bits it compared. -/
theorem IsTrail.metric_le {s : State} {rx : List Bit} {t : Nat} {tr : Trail} (h : IsTrail s rx t tr)
    (htaps : s.taps.length = s.n) : tr.metric ≤ s.n * t := by
  obtain ⟨us, rfl, -, hmetric⟩ := h
  calc tr.metric ≤ (walkCode s.kreg s.taps 0 us).length := hmetric ▸ hamming_le_length _ _
    _ = s.n * us.length := by rw [walkCode_length, htaps, Nat.mul_comm]

theorem safe_execVitTrace {s : State} (hs : EngineInv s) (hseq : s.seq = .vitTrace) : Safe (execVitTrace s) := by
  obtain ⟨hcfg, htable, hat⟩ := hs
  simp only [SeqInv, hseq] at hat
  obtain ⟨hvalid, hready, henc, c, w, hvit, hframe, hwin, hmetric, -, htrail⟩ := hat
  obtain ⟨-, htaps, -⟩ := hcfg hvalid
  obtain ⟨us, hlen, hpath, -⟩ := id htrail
  obtain ⟨ds, hds, hdlen⟩ := tracedBits_walkPath (htable.2 hready).2 (Nat.two_pow_pos _) us
  rw [hlen] at hds hdlen
  rw [← hpath] at hds
  rw [execVitTrace_eq_next.mpr ⟨c, w, ds, hvit, hwin, hds, rfl⟩]
  exact safe_next.mpr ⟨hcfg, htable, hvalid, hready, henc, _, ds, w.metric, rfl, hframe, rfl, hdlen, hmetric,
    htrail.metric_le htaps⟩

theorem safe_execVitStrip {s : State} (hs : EngineInv s) (hseq : s.seq = .vitStrip) : Safe (execVitStrip s) := by
  obtain ⟨hcfg, htable, hat⟩ := hs
  simp only [SeqInv, hseq] at hat
  obtain ⟨hvalid, hready, henc, c, ds, m, hvit, hframe, hbits, hlen, hmetric, hm⟩ := hat
  simp only [execVitStrip, vitCall_eq.mpr hvit, written_eq.mpr hbits, orFault_ok]
  split
  · exact safe_next.mpr (engineInv_endOperation hcfg htable _ _)
  · rename_i hlong
    have hstripped : (ds.take (ds.length - s.kreg)).length + s.kreg = c.l := by
      rw [List.length_take]
      omega
    exact safe_next.mpr ⟨hcfg, htable, hvalid, hready, henc, _, _, m, rfl, hframe, rfl, hstripped, hmetric, hm⟩

theorem safe_execVitPack {s : State} (hs : EngineInv s) (hseq : s.seq = .vitPack) : Safe (execVitPack s) := by
  obtain ⟨hcfg, htable, hat⟩ := hs
  simp only [SeqInv, hseq] at hat
  obtain ⟨hvalid, hready, henc, c, ds, m, hvit, hframe, hbits, -, hmetric, hm⟩ := hat
  simp only [execVitPack, vitCall_eq.mpr hvit, written_eq.mpr hbits, orFault_ok]
  split
  · exact safe_next.mpr (engineInv_endOperation hcfg htable _ _)
  · exact safe_next.mpr ⟨hcfg, htable, hvalid, hready, henc, _, _, m, rfl, hframe, rfl, hmetric, hm⟩

theorem safe_execVitRet {s : State} (hs : EngineInv s) (hseq : s.seq = .vitRet) : Safe (execVitRet s) := by
  obtain ⟨hcfg, htable, hat⟩ := hs
  simp only [SeqInv, hseq] at hat
  obtain ⟨-, -, -, c, bytes, m, hvit, -, hbytes, hmetric, -⟩ := hat
  rw [execVitRet_eq_next.mpr ⟨c, bytes, m, hvit, hbytes, hmetric, rfl⟩]
  exact safe_next.mpr (engineInv_endOperation hcfg htable _ _)

end Sys2Proof.Machine
end

section
/-! PROOFS. Every step, of either view, keeps the invariant. -/

namespace Sys2Proof.Machine

theorem safe_sequencerStep_of_fetch {s : State} {i : Instr} (hfetch : s.fetchMicro = .ok (encode i))
    (h : Safe (exec i s)) : Safe (sequencerStep s) := by
  rw [sequencerStep_of_fetch hfetch]
  exact h.afterEntry

theorem safe_sequencerStep {s : State} (hs : EngineInv s) (hrun : s.seq ≠ .idle) : Safe (sequencerStep s) := by
  have hat := hs.2.2
  cases hseq : s.seq with
  | idle => exact absurd hseq hrun
  | cfgBuild =>
    simp only [SeqInv, hseq] at hat
    obtain ⟨-, -, gens, hop⟩ := hat
    exact safe_sequencerStep_of_fetch (i := .cfgBuild gens) (by simp [State.fetchMicro, hseq, hop])
      (safe_execCfgBuild gens hs)
  | trbEntry st d =>
    rw [sequencerStep_of_fetch (i := .trbEntry st d) (by simp [State.fetchMicro, hseq])]
    exact safe_afterEntry_trbEntry hs hseq
  | encLoad =>
    simp only [SeqInv, hseq] at hat
    obtain ⟨-, -, -, bytes, hop⟩ := hat
    exact safe_sequencerStep_of_fetch (i := .encLoad bytes) (by simp [State.fetchMicro, hseq, hop])
      (safe_execEncLoad bytes hs hseq)
  | encStep i =>
    exact safe_sequencerStep_of_fetch (i := .encStep) (by simp [State.fetchMicro, hseq]) (safe_execEncStep hs hseq)
  | encRet i =>
    exact safe_sequencerStep_of_fetch (i := .encRet) (by simp [State.fetchMicro, hseq]) (safe_execEncRet hs hseq)
  | vitFrame =>
    simp only [SeqInv, hseq] at hat
    obtain ⟨-, -, -, -, rx, hop⟩ := hat
    exact safe_sequencerStep_of_fetch (i := .vitFrame rx) (by simp [State.fetchMicro, hseq, hop])
      (safe_execVitFrame rx hs hseq)
  | vitInit =>
    exact safe_sequencerStep_of_fetch (i := .vitInit) (by simp [State.fetchMicro, hseq]) (safe_execVitInit hs hseq)
  | vitBranch t =>
    exact safe_sequencerStep_of_fetch (i := .vitBranch) (by simp [State.fetchMicro, hseq]) (safe_execVitBranch hs hseq)
  | vitMerge t =>
    exact safe_sequencerStep_of_fetch (i := .vitMerge) (by simp [State.fetchMicro, hseq]) (safe_execVitMerge hs hseq)
  | vitTerm t =>
    exact safe_sequencerStep_of_fetch (i := .vitTerm) (by simp [State.fetchMicro, hseq]) (safe_execVitTerm hs hseq)
  | vitTrace =>
    exact safe_sequencerStep_of_fetch (i := .vitTrace) (by simp [State.fetchMicro, hseq]) (safe_execVitTrace hs hseq)
  | vitStrip =>
    exact safe_sequencerStep_of_fetch (i := .vitStrip) (by simp [State.fetchMicro, hseq]) (safe_execVitStrip hs hseq)
  | vitPack =>
    exact safe_sequencerStep_of_fetch (i := .vitPack) (by simp [State.fetchMicro, hseq]) (safe_execVitPack hs hseq)
  | vitRet =>
    exact safe_sequencerStep_of_fetch (i := .vitRet) (by simp [State.fetchMicro, hseq]) (safe_execVitRet hs hseq)

/-- Taking a command's words off the stream leaves the invariant: no part of it speaks of the stream. -/
theorem engineInv_hostIn {s : State} (hs : EngineInv s) (rest : List Int) : EngineInv { s with hostIn := rest } := hs

/-- The command at the front of the stream is a host operation (R16). -/
theorem isHost_of_fetchHost {s : State} {i : Instr} {rest : List Int} (h : s.fetchHost = .command i rest) :
    i.isHost = true := by
  rw [fetchHost_command, decodeHost] at h
  split at h
  · split at h <;> cases h
  · cases h
  · split at h
    · cases h
      assumption
    · cases h

/-- R20 to R28: a host operation run whole keeps the invariant. -/
theorem engineInv_of_exec_host {i : Instr} (hi : i.isHost = true) {s t : State} (hs : EngineInv s)
    (h : exec i s = .next t) : EngineInv t := by
  cases i <;> simp only [Instr.isHost, Bool.false_eq_true] at hi
  case cfgBuild gens => exact engineInv_of_execCfgBuild hs h
  case trbBuild => exact engineInv_of_execTrbBuild hs h
  case encEncode bytes =>
    obtain ⟨hkeep, hrest⟩ := execEncEncode_frame h
    exact engineInv_of_persists hkeep hs (seqInv_of_atRest hrest)
  case vitDecode rx =>
    obtain ⟨hkeep, hrest⟩ := execVitDecode_frame h
    exact engineInv_of_persists hkeep hs (seqInv_of_atRest hrest)

/-- R266: starting a host operation establishes what holds at its first micro-operation. -/
theorem safe_start {i : Instr} (hi : i.isHost = true) {s : State} (hs : EngineInv s) (hidle : s.seq = .idle) :
    Safe (start i s) := by
  refine ⟨fun t h => ?_, fun f => start_ne_fault i s f⟩
  obtain ⟨hready, rfl⟩ := start_eq_next.mp h
  refine engineInv_of_persists (moves_of_start hi h).toPersists hs ?_
  have hat := hs.2.2
  simp only [SeqInv, hidle] at hat
  obtain ⟨henc, hvit, -⟩ := hat
  cases i <;> simp only [Instr.isHost, Bool.false_eq_true] at hi
  case cfgBuild gens => exact ⟨henc, hvit, gens, rfl⟩
  case trbBuild =>
    obtain ⟨-, hvalid⟩ := refusalOf_trbBuild.mp hready
    exact ⟨hvalid, henc, hvit, Nat.two_pow_pos _, fun st _ d hw => by simp [window] at hw⟩
  case encEncode bytes =>
    obtain ⟨-, hvalid, -⟩ := refusalOf_encEncode.mp hready
    exact ⟨hvalid, henc, hvit, bytes, rfl⟩
  case vitDecode rx =>
    obtain ⟨-, hvalid, htable, -⟩ := refusalOf_vitDecode.mp hready
    exact ⟨hvalid, htable, henc, hvit, rx, rfl⟩

theorem safe_microStep {s : State} (hs : EngineInv s) : Safe (microStep s) := by
  by_cases hidle : s.seq = .idle
  · rw [microStep_idle hidle, idleStep]
    split
    · exact safe_next.mpr hs
    · rename_i i rest hfetch
      exact safe_start (isHost_of_fetchHost hfetch) (engineInv_hostIn hs rest) hidle
    · exact safe_refused _
  · rw [microStep_running hidle]
    exact safe_sequencerStep hs hidle

/-- Settles O13, by the phase SEQ stands at: starting an operation establishes the invariant of its first phase, and
each micro-operation that of the next one. -/
theorem microStepKeepsInv : Obligations.MicroStepKeepsInv := fun _ hs => safe_microStep hs

/-- Settles O11: inside an operation as for the step-wise view; at IDLE a host operation run whole keeps the persistent
state, or makes a legal configuration or the whole table, and leaves the engine at rest. -/
theorem stepKeepsInv : Obligations.StepKeepsInv := by
  intro s t hs h
  by_cases hidle : s.seq = .idle
  · rw [step_idle hidle] at h
    obtain ⟨-, rfl⟩ | ⟨i, rest, hfetch, hexec⟩ := idleStep_eq_next h
    · exact hs
    · exact engineInv_of_exec_host (isHost_of_fetchHost hfetch) (engineInv_hostIn hs rest) hexec
  · rw [step_running hidle] at h
    exact (safe_sequencerStep hs hidle).1 t h

end Sys2Proof.Machine
end

section
/-! PROOFS. Byte and bit order (R54, R55): the packed byte read bit by bit, and hence packing and unpacking as each
other's inverse. -/

namespace Sys2Proof.Machine

/-! One byte. -/

/-- R85: a packed group is the register that holds it last bit first. -/
theorem packGroup_eq_regState (bits : List Bit) : packGroup bits = regState bits.reverse := by
  induction bits using List.reverseRecOn with
  | nil => rfl
  | append_singleton bits b ih =>
    rw [List.reverse_append, List.reverse_singleton, List.singleton_append, regState, ← ih, packGroup,
      List.foldl_append, Nat.add_comm]
    rfl

theorem packByte_eq_ofNat (bits : List Bit) : packByte bits = BitVec.ofNat 8 (regState bits.reverse) := by
  rw [← packGroup_eq_regState]
  rfl

/-- R55: the last bit of the group is bit 0 of the byte. -/
theorem packByte_getLsbD (bits : List Bit) (j : Nat) :
    (packByte bits).getLsbD j = (decide (j < 8) && bits.reverse[j]?.getD false) := by
  rw [packByte_eq_ofNat, BitVec.getLsbD_ofNat, regState_testBit]

/-- R55: the sum over the eight bits of a group. -/
theorem packByte_toNat {bits : List Bit} (h : bits.length = 8) :
    (packByte bits).toNat = ((List.range 8).map fun i => (bits.getD i false).toNat * 2 ^ (7 - i)).sum := by
  have hlt : regState bits.reverse < 2 ^ 8 := by simpa [h] using regState_lt bits.reverse
  rw [packByte_eq_ofNat, BitVec.toNat_ofNat, Nat.mod_eq_of_lt hlt]
  match bits, h with
  | [a, b, c, d, e, f, g, h], _ =>
    simp [regState, List.range_succ]
    omega

/-- R54: bit 7 first, bit 0 last. -/
theorem unpackByte_getElem? (b : Byte) {i : Nat} (hi : i < 8) : (unpackByte b)[i]? = some (b.getLsbD (7 - i)) := by
  interval_cases i <;> rfl

@[simp] theorem unpackByte_length (b : Byte) : (unpackByte b).length = 8 := rfl

theorem packByte_unpackByte (b : Byte) : packByte (unpackByte b) = b := by
  refine BitVec.eq_of_getLsbD_eq fun i hi => ?_
  have hrev : (unpackByte b).reverse[i]? = (unpackByte b)[7 - i]? := List.getElem?_reverse hi
  rw [packByte_getLsbD, decide_eq_true hi, Bool.true_and, hrev, unpackByte_getElem? b (by omega),
    Option.getD_some, Nat.sub_sub_self (by omega)]

theorem unpackByte_packByte {bits : List Bit} (h : bits.length = 8) : unpackByte (packByte bits) = bits := by
  match bits, h with
  | [a, b, c, d, e, f, g, h], _ =>
    simp only [unpackByte, packByte_getLsbD]
    rfl

/-! Streams of bytes. -/

theorem unpack_cons (b : Byte) (bytes : List Byte) : unpack (b :: bytes) = unpackByte b ++ unpack bytes := rfl

theorem unpack_getElem? {bytes : List Byte} {q i : Nat} {b : Byte} (hb : bytes[q]? = some b) (hi : i < 8) :
    (unpack bytes)[8 * q + i]? = some (b.getLsbD (7 - i)) := by
  induction bytes generalizing q with
  | nil => simp at hb
  | cons b' bytes ih =>
    rw [unpack_cons]
    cases q with
    | zero =>
      obtain rfl : b' = b := by simpa using hb
      rw [Nat.mul_zero, Nat.zero_add, List.getElem?_append_left (by simpa using hi)]
      exact unpackByte_getElem? b' hi
    | succ q =>
      have hidx : 8 * (q + 1) + i - (unpackByte b').length = 8 * q + i := by rw [unpackByte_length]; omega
      rw [List.getElem?_append_right (by rw [unpackByte_length]; omega), hidx, ih (by simpa using hb)]

theorem pack_unpack (bytes : List Byte) : pack (unpack bytes) = bytes := by
  induction bytes with
  | nil => rfl
  | cons b bytes ih =>
    calc pack (unpack (b :: bytes)) = packByte (unpackByte b) :: pack (unpack bytes) := rfl
      _ = b :: bytes := by rw [packByte_unpackByte, ih]

/-- R55: byte q of a packed stream is its group of eight bits packed. -/
theorem pack_getElem? {bits : List Bit} {q : Nat} (hq : q < bits.length / 8) :
    (pack bits)[q]? = some (packByte ((bits.drop (8 * q)).take 8)) := by
  induction bits using pack.induct generalizing q with
  | case1 a b c d e f g h rest ih =>
    cases q with
    | zero => rfl
    | succ q =>
      rw [pack, List.getElem?_cons_succ, ih (by simp at hq; omega)]
      rfl
  | case2 bits hshort =>
    have hlen : bits.length / 8 = 0 := by rw [← pack_length, pack.eq_2 bits hshort, List.length_nil]
    omega

theorem unpack_pack {bits : List Bit} (h : bits.length % 8 = 0) : unpack (pack bits) = bits := by
  induction bits using pack.induct with
  | case1 a b c d e f g h' rest ih =>
    rw [pack, unpack_cons, unpackByte_packByte rfl, ih (by simp at h; omega)]
    rfl
  | case2 bits hshort =>
    have hlen : bits.length / 8 = 0 := by rw [← pack_length, pack.eq_2 bits hshort, List.length_nil]
    obtain rfl : bits = [] := List.length_eq_zero_iff.mp (by omega)
    rfl

/-- Settles O34: byte by byte, by the one-byte facts. -/
theorem byteAndBitOrder : Obligations.ByteAndBitOrder := by
  refine ⟨fun _ _ _ _ hb hi => unpack_getElem? hb hi, fun bits q hq => ?_, pack_unpack, fun _ => unpack_pack⟩
  have hlen : ((bits.drop (8 * q)).take 8).length = 8 := by simp; omega
  rw [pack_getElem? hq, Option.map_some, packByte_toNat hlen]
  congr 2
  refine List.map_congr_left fun i hi => ?_
  have hi8 : i < 8 := List.mem_range.mp hi
  simp [List.getD_eq_getElem?_getD, hi8]

end Sys2Proof.Machine
end

section
/-! PROOFS. Repetition (R63). What ENC.ENCODE and VIT.DECODE answer does not depend on the status and the result that an
earlier operation left; a second TRB.BUILD writes the entries that are there. Hence each host operation, issued again,
leaves the state it left the first time. -/

namespace Sys2Proof.Machine

/-! A run that began with another status and result. -/

/-- The engine with another status and another result on its ports. -/
def State.reporting (s : State) (st : Status) (r : Result) : State := { s with status := st, result := r }

/-- The outcome, had the run begun with another status and result: an operation that goes on still has them, one that
has ended has its own (R253). -/
def carryReport (st : Status) (r : Result) : Out → Out
  | .next s => .next (if s.seq = .idle then s else s.reporting st r)
  | .fault f => .fault f
  | .refused f => .refused f

/-- A part of an operation that reads neither `STATUS` nor the result ports. -/
def IgnoresReport (f : State → Out) : Prop :=
  ∀ s st r, s.seq ≠ .idle → f (s.reporting st r) = carryReport st r (f s)

section
variable {st : Status} {r : Result}

theorem carryReport_idle {s : State} (h : s.seq = .idle) : carryReport st r (.next s) = .next s := by
  simp [carryReport, h]

theorem next_carryReport {s t : State} (h : s.seq ≠ .idle) (ht : t = s.reporting st r) :
    .next t = carryReport st r (.next s) := by
  simp [carryReport, h, ht]

theorem andThen_carryReport {o o' : Out} {f : State → Out} (ho : o' = carryReport st r o) (hf : IgnoresReport f) :
    andThen o' f = carryReport st r (andThen o f) := by
  subst ho
  cases o with
  | fault | refused => rfl
  | next s =>
    by_cases hidle : s.seq = .idle
    · rw [carryReport_idle hidle, andThen_idle hidle, carryReport_idle hidle]
    · have hrun : (s.reporting st r).seq ≠ .idle := hidle
      rw [← next_carryReport hidle rfl, andThen_running hidle, andThen_running hrun, hf s st r hidle]

theorem ignoresReport_andThen {g f : State → Out} (hg : IgnoresReport g) (hf : IgnoresReport f) :
    IgnoresReport fun s => andThen (g s) f :=
  fun s st r hrun => andThen_carryReport (hg s st r hrun) hf

theorem orFault_carryReport {α : Type} (v : Except Fault α) {f f' : α → Out}
    (h : ∀ a, f' a = carryReport st r (f a)) : orFault v f' = carryReport st r (orFault v f) := by
  cases v with
  | ok a => exact h a
  | error e => rfl

theorem ite_carryReport (p : Prop) [Decidable p] {a a' b b' : Out} (ha : a' = carryReport st r a)
    (hb : b' = carryReport st r b) : (if p then a' else b') = carryReport st r (if p then a else b) := by
  rw [ha, hb, apply_ite (carryReport st r)]

/-! The micro-operations of ENC and VIT. -/

theorem encNext_ne_idle (u : List Bit) (ui : Nat) : encNext u ui ≠ .idle := fun h => by
  cases h ▸ encNext_unit u ui

theorem vitNext_ne_idle (l ti : Nat) : vitNext l ti ≠ .idle := fun h => by
  cases h ▸ vitNext_unit l ti

theorem ignoresReport_encLoad (bytes : List Byte) : IgnoresReport (execEncLoad bytes) := fun _ _ _ _ =>
  next_carryReport (encNext_ne_idle _ _) rfl

theorem ignoresReport_encStep : IgnoresReport execEncStep := fun s _ _ _ =>
  orFault_carryReport s.encCall fun c => by
    cases c.u[c.ui]? with
    | none => rfl
    | some d => exact next_carryReport (encNext_ne_idle _ _) rfl

theorem ignoresReport_encRet : IgnoresReport execEncRet := fun s _ _ _ =>
  orFault_carryReport s.encCall fun _ => rfl

theorem ignoresReport_vitFrame (rx : List Bit) : IgnoresReport (execVitFrame rx) := fun s _ _ _ =>
  ite_carryReport (rx.length % s.n ≠ 0) rfl rfl

theorem ignoresReport_vitInit : IgnoresReport execVitInit := fun s _ _ _ =>
  orFault_carryReport s.vitCall fun _ => next_carryReport (vitNext_ne_idle _ _) rfl

/-- R163: the candidates are made from the table alone. -/
theorem branch_reporting (s : State) (y : List Bit) (live : List Trail) :
    branch (s.reporting st r) y live = branch s y live := by
  induction live with
  | nil => rfl
  | cons tr live ih =>
    rw [branch, ih]
    rfl

theorem ignoresReport_vitBranch : IgnoresReport execVitBranch := fun s st r _ =>
  orFault_carryReport s.vitCall fun c => by
    have hn : (s.reporting st r).n = s.n := rfl
    simp only [hn, branch_reporting]
    cases symbolAt s.n c.rx c.ti with
    | none => rfl
    | some y => exact orFault_carryReport (branch s y c.live) fun _ => rfl

theorem ignoresReport_vitMerge : IgnoresReport execVitMerge := fun s _ _ _ =>
  orFault_carryReport s.vitCall fun _ => next_carryReport (vitNext_ne_idle _ _) rfl

theorem ignoresReport_vitTerm : IgnoresReport execVitTerm := fun s _ _ _ =>
  orFault_carryReport s.vitCall fun c => by
    cases leastTrail false (trailsAt 0 c.live) <;> rfl

/-- R177: the bits are traced in the table alone. -/
theorem tracedBits_reporting (s : State) (l : Nat) (path : List Nat) :
    tracedBits (s.reporting st r) l path = tracedBits s l path := by
  induction l generalizing path with
  | zero => rfl
  | succ l ih =>
    match path with
    | [] | [_] => rfl
    | a :: b :: path =>
      rw [tracedBits, ih]
      rfl

theorem ignoresReport_vitTrace : IgnoresReport execVitTrace := fun s _ _ _ =>
  orFault_carryReport s.vitCall fun c => orFault_carryReport (written c.win) fun w => by
    rw [tracedBits_reporting]
    exact orFault_carryReport (tracedBits s c.l w.path) fun _ => rfl

theorem ignoresReport_vitStrip : IgnoresReport execVitStrip := fun s _ _ _ =>
  orFault_carryReport s.vitCall fun c => orFault_carryReport (written c.dbits) fun ds =>
    ite_carryReport (ds.length < s.kreg) rfl rfl

theorem ignoresReport_vitPack : IgnoresReport execVitPack := fun s _ _ _ =>
  orFault_carryReport s.vitCall fun c => orFault_carryReport (written c.dbits) fun ds =>
    ite_carryReport (ds.length % 8 ≠ 0) rfl rfl

theorem ignoresReport_vitRet : IgnoresReport execVitRet := fun s _ _ _ =>
  orFault_carryReport s.vitCall fun c => orFault_carryReport (written c.bytes) fun _ =>
    orFault_carryReport (written c.metric) fun _ => rfl

/-! ENC.ENCODE and VIT.DECODE run whole. -/

theorem start_reporting {i : Instr} (hi : i.isHost = true) (s : State) :
    start i (s.reporting st r) = carryReport st r (start i s) := by
  have hrefusal : (s.reporting st r).refusalOf i = s.refusalOf i := by cases i <;> rfl
  have hstarted : (s.reporting st r).started i = (s.started i).reporting st r := by cases i <;> rfl
  unfold start
  rw [hrefusal]
  cases s.refusalOf i with
  | some e => rfl
  | none => exact next_carryReport (started_ne_idle hi s) hstarted

theorem ignoresReport_encSteps (fuel : Nat) : IgnoresReport (encSteps fuel) := by
  induction fuel with
  | zero => exact fun s st r hrun => next_carryReport hrun rfl
  | succ fuel ih =>
    intro s st r hrun
    have hseq : (s.reporting st r).seq = s.seq := rfl
    simp only [encSteps, hseq]
    split
    · exact ignoresReport_andThen ignoresReport_encStep ih s st r hrun
    · exact next_carryReport hrun rfl

theorem ignoresReport_vitSymbols (l : Nat) : IgnoresReport (vitSymbols l) := by
  induction l with
  | zero => exact fun s st r hrun => next_carryReport hrun rfl
  | succ l ih => exact ignoresReport_andThen ignoresReport_vitBranch (ignoresReport_andThen ignoresReport_vitMerge ih)

theorem ignoresReport_vitFinish : IgnoresReport vitFinish :=
  ignoresReport_andThen ignoresReport_vitTerm <| ignoresReport_andThen ignoresReport_vitTrace <|
  ignoresReport_andThen ignoresReport_vitStrip <| ignoresReport_andThen ignoresReport_vitPack ignoresReport_vitRet

theorem execEncEncode_reporting (bytes : List Byte) (s : State) :
    execEncEncode bytes (s.reporting st r) = carryReport st r (execEncEncode bytes s) :=
  andThen_carryReport (start_reporting rfl s) <| ignoresReport_andThen (ignoresReport_encLoad bytes) <|
  ignoresReport_andThen (ignoresReport_encSteps _) ignoresReport_encRet

theorem execVitDecode_reporting (rx : List Bit) (s : State) :
    execVitDecode rx (s.reporting st r) = carryReport st r (execVitDecode rx s) :=
  andThen_carryReport (start_reporting rfl s) <| ignoresReport_andThen (ignoresReport_vitFrame rx) <|
  ignoresReport_andThen ignoresReport_vitInit <| ignoresReport_andThen (ignoresReport_vitSymbols _)
    ignoresReport_vitFinish

/-- R201: what ENC.ENCODE and VIT.DECODE answer does not depend on the status and result they find. -/
theorem streamHost_reporting {i : Instr} (hi : i.op = .encEncode ∨ i.op = .vitDecode) (s : State) :
    exec i (s.reporting st r) = carryReport st r (exec i s) := by
  cases i <;> simp only [Instr.op, reduceCtorEq, or_self, or_true, true_or] at hi
  case encEncode bytes => exact execEncEncode_reporting bytes s
  case vitDecode rx => exact execVitDecode_reporting rx s

end

/-! Each host operation a second time. -/

theorem atRest_of_idle {s : State} (h : SeqInv s) (hidle : s.seq = .idle) : AtRest s := by
  simp only [SeqInv, hidle] at h
  obtain ⟨henc, hvit, hoperand⟩ := h
  exact ⟨hidle, henc, hvit, hoperand⟩

/-- Two engines at rest with the same persistent state differ by the report alone. -/
theorem eq_reporting_of_atRest {s t : State} (hkeep : Persists s t) (hs : AtRest s) (ht : AtRest t) :
    t = s.reporting t.status t.result := by
  cases s
  cases t
  obtain ⟨rfl, rfl, rfl, rfl, rfl, rfl, rfl, rfl⟩ := hkeep
  obtain ⟨rfl, rfl, rfl, rfl⟩ := hs
  obtain ⟨rfl, rfl, rfl, rfl⟩ := ht
  rfl

theorem streamHost_again {i : Instr} {s t : State} (hi : i.op = .encEncode ∨ i.op = .vitDecode) (hs : AtRest s)
    (h : exec i s = .next t) : exec i t = .next t := by
  obtain ⟨hkeep, hrest⟩ := streamHost_frame hi h
  calc exec i t = exec i (s.reporting t.status t.result) := congrArg _ (eq_reporting_of_atRest hkeep hs hrest)
    _ = carryReport t.status t.result (exec i s) := streamHost_reporting hi s
    _ = .next t := by rw [h, carryReport_idle hrest.seq]

/-- R234: a host operation that answers a next state had its preconditions. -/
theorem refusalOf_of_andThen_start {i : Instr} {f : State → Out} {s t : State} (h : andThen (start i s) f = .next t) :
    s.refusalOf i = none := by
  obtain ⟨hu, -⟩ | ⟨u, hu, -⟩ := andThen_eq_next.mp h <;> exact (start_eq_next.mp hu).1

/-- R110: an accepted CFG.BUILD validates and then writes. -/
theorem execCfgBuild_of_ready {gens : List Int} {s : State} (h : s.refusalOf (.cfgBuild gens) = none) :
    execCfgBuild gens s = buildConfig gens (s.started (.cfgBuild gens)) := by
  rw [execCfgBuild, start_of_ready h, andThen_running (started_ne_idle rfl s)]

theorem execCfgBuild_again {gens : List Int} {s t : State} (h : execCfgBuild gens s = .next t) :
    execCfgBuild gens t = .next t := by
  obtain ⟨-, hwf⟩ := refusalOf_cfgBuild.mp (refusalOf_of_andThen_start h)
  have hparams : t.params = s.params := (whoWritesWhat (.cfgBuild gens) s t h).1
  have hrest : AtRest t := atRest_of_exec_host (i := .cfgBuild gens) rfl h
  rw [execCfgBuild_of_ready (refusalOf_cfgBuild.mpr ⟨.inl hrest.seq, hparams ▸ hwf⟩), buildConfig]
  obtain ⟨hbad, rfl⟩ | ⟨hgood, rfl⟩ := execCfgBuild_eq_next h
  · rw [hbad]
    rfl
  · rw [hgood]
    rfl

/-- R145: the loop over states of the trellis answers a next state of the running operation. -/
theorem exists_buildEntries (pairs : List (Nat × Bit)) {s : State} (hrun : s.seq ≠ .idle)
    (h : ∀ p ∈ pairs, p.1 < 2 ^ s.kreg) : ∃ u, buildEntries pairs s = .next u ∧ u.seq ≠ .idle := by
  induction pairs generalizing s with
  | nil => exact ⟨s, rfl, hrun⟩
  | cons p pairs ih =>
    obtain ⟨hp, hpairs⟩ := List.forall_mem_cons.mp h
    rw [buildEntries, execTrbEntry_eq_next.mpr ⟨hp, rfl⟩, andThen_running (by simp)]
    exact ih (by simp) hpairs

/-- R145: TRB.BUILD on a configured engine at IDLE completes. -/
theorem execTrbBuild_of_ready {s : State} (hidle : s.seq = .idle) (hvalid : s.cfgValid = true) :
    execTrbBuild s = .next
      (({ s with tt := writeEntries s.kreg s.taps (tablePairs s.kreg) s.tt }.flagTableBuilt).endOperation .ok .nothing) := by
  have hstart := start_of_ready (refusalOf_trbBuild.mpr ⟨hidle, hvalid⟩)
  have hrun : (s.started .trbBuild).seq ≠ .idle := started_ne_idle rfl s
  obtain ⟨u, hloop, hu⟩ := exists_buildEntries (tablePairs s.kreg) hrun fun p hp => mem_tablePairs.mp hp
  have hend : execTrbBuild s = endTable u :=
    andThen_eq_next.mpr (.inr ⟨_, hstart, hrun, andThen_eq_next.mpr (.inr ⟨u, hloop, hu, rfl⟩)⟩)
  rw [hend, endTable, complete_eq, ← (execTrbBuild_eq_next hend).2]

/-- Writing entries that are there changes nothing. -/
theorem writeEntries_of_read {k : Nat} {taps : List Nat} (pairs : List (Nat × Bit)) {m : Memory}
    (hm : Memory.wf m = true) (h : ∀ p ∈ pairs, Memory.read m (window p.1 p.2) = some (tableEntry k taps p.1 p.2)) :
    writeEntries k taps pairs m = m := by
  induction pairs with
  | nil => rfl
  | cons p pairs ih =>
    obtain ⟨hp, hpairs⟩ := List.forall_mem_cons.mp h
    rw [writeEntries_cons, Memory.write_read hm hp, ih hpairs]

theorem writeEntries_writeEntries (k : Nat) (taps : List Nat) (pairs : List (Nat × Bit)) {m : Memory}
    (hm : Memory.wf m = true) :
    writeEntries k taps pairs (writeEntries k taps pairs m) = writeEntries k taps pairs m :=
  writeEntries_of_read pairs (wf_writeEntries pairs hm) fun _ hp => read_writeEntries_same pairs (.inl hp)

theorem execTrbBuild_again {s t : State} (hs : Memory.wf s.tt = true) (h : execTrbBuild s = .next t) :
    execTrbBuild t = .next t := by
  have hrest : AtRest t := atRest_of_exec_host (i := .trbBuild) rfl h
  obtain ⟨hvalid, rfl⟩ := execTrbBuild_eq_next h
  rw [execTrbBuild_of_ready hrest.seq hvalid]
  simp only [endOperation_kreg, endOperation_taps, endOperation_tt, flagTableBuilt_kreg, flagTableBuilt_taps,
    flagTableBuilt_tt, writeEntries_writeEntries _ _ _ hs]
  rfl

/-- Settles O60, by the operation: the streams are read from what the first run left alone, and CFG.BUILD and TRB.BUILD
write what is there. -/
theorem operationsAreIdempotent : Obligations.OperationsAreIdempotent := by
  intro i s t hi hs hidle h
  obtain ⟨-, ⟨hwf, -⟩, hseq⟩ := hs
  have hrest : AtRest s := atRest_of_idle hseq hidle
  cases i <;> simp only [Instr.isHost, Bool.false_eq_true] at hi
  case cfgBuild gens => exact ⟨execCfgBuild_again h, nofun⟩
  case trbBuild => exact ⟨execTrbBuild_again hwf h, nofun⟩
  case encEncode bytes => exact ⟨streamHost_again (.inl rfl) hrest h, nofun⟩
  case vitDecode rx => exact ⟨streamHost_again (.inr rfl) hrest h, fun _ => (execVitDecode_frame h).1.tt⟩

end Sys2Proof.Machine
end

section
/-! PROOFS. The encoding read the other way (R93, R96): an operation's words have one spelling, a code of no row is
rejected, and the words of the tables and the STATUS codes (R94) name what the spec says. -/

namespace Sys2Proof

/-- Settles O1: the code word names the operation's row, and the row reads back the operand words. -/
theorem decodeOfEncode : Obligations.DecodeOfEncode := decode_encode_append

/-! Items: a word that is read is the one written for what it reads as. -/

theorem id_of_generatorItem {w g : Int} (h : generatorItem w = some g) : id g = w := (Option.some.inj h).symm

theorem byteWord_of_byteItem {w : Int} {b : Byte} (h : byteItem w = some b) : byteWord b = w := by
  simp only [byteItem, Option.ite_none_right_eq_some, Option.some.injEq] at h
  obtain ⟨hw, rfl⟩ := h
  simp only [byteWord, BitVec.toNat_ofNat, Int.ofNat_eq_natCast]
  omega

theorem bitWord_of_bitItem {w : Int} {d : Bit} (h : bitItem w = some d) : bitWord d = w := by
  unfold bitItem at h
  split at h
  · cases h
    exact Eq.symm ‹w = 0›
  · split at h
    · cases h
      exact Eq.symm ‹w = 1›
    · cases h

theorem ofNat_of_stateItem {w : Int} {st : Nat} (h : stateItem w = some st) : Int.ofNat st = w := by
  simp only [stateItem, Option.ite_none_right_eq_some, Option.some.injEq] at h
  obtain ⟨hw, rfl⟩ := h
  exact Int.toNat_of_nonneg hw

/-! Operand streams. -/

section
variable {α : Type} {item : Int → Option α} {word : α → Int} (hword : ∀ {w v}, item w = some v → word v = w)
include hword

theorem eq_map_of_decodeItems {ws : List Int} {vs : List α} (h : decodeItems item ws = .ok vs) : ws = vs.map word := by
  induction ws generalizing vs with
  | nil =>
    cases h
    rfl
  | cons w ws ih =>
    rw [decodeItems] at h
    split at h
    · cases h
    · rename_i v hv
      split at h
      · cases h
      · rename_i vs' hvs
        cases h
        rw [List.map_cons, hword hv, ← ih hvs]

theorem eq_encodeCounted_of_decodeCounted {ws rest : List Int} {vs : List α}
    (h : decodeCounted item ws = .ok (vs, rest)) : ws = encodeCounted word vs ++ rest := by
  cases ws with
  | nil => cases h
  | cons c ws =>
    rw [decodeCounted] at h
    split at h
    · cases h
    · split at h
      · cases h
      · split at h
        · cases h
        · rename_i hnonneg hlen vs' hvs
          cases h
          have htake : ws.take c.toNat = vs.map word := eq_map_of_decodeItems hword hvs
          have hcount : vs.length = c.toNat := by
            rw [← List.length_map word, ← htake, List.length_take]
            omega
          have hc : Int.ofNat vs.length = c := by
            rw [hcount]
            exact Int.toNat_of_nonneg (by omega)
          rw [encodeCounted, hc, ← htake, List.cons_append, List.take_append_drop]

end

theorem eq_words_of_decodePair {ws rest : List Int} {st : Nat} {d : Bit} (h : decodePair ws = .ok ((st, d), rest)) :
    ws = Int.ofNat st :: bitWord d :: rest := by
  unfold decodePair at h
  split at h
  · split at h
    · rename_i hst hd
      cases h
      rw [ofNat_of_stateItem hst, bitWord_of_bitItem hd]
    · cases h
    · cases h
  · cases h

theorem withOperand_eq_ok {α : Type} {mk : α → Instr} {o : Except DecodeError (α × List Int)} {i : Instr}
    {rest : List Int} : withOperand mk o = .ok (i, rest) ↔ ∃ v, o = .ok (v, rest) ∧ mk v = i := by
  cases o <;> simp [withOperand, and_comm, Prod.ext_iff]

/-- R96: the operands a row reads are the operand words of the operation it answers, which is of that row. -/
theorem decodeOperands_eq_ok {op : Op} {ws rest : List Int} {i : Instr} (h : decodeOperands op ws = .ok (i, rest)) :
    i.op = op ∧ ws = i.operandWords ++ rest := by
  cases op with
  | cfgBuild =>
    obtain ⟨gens, hgens, rfl⟩ := withOperand_eq_ok.mp h
    exact ⟨rfl, eq_encodeCounted_of_decodeCounted id_of_generatorItem hgens⟩
  | encEncode | encLoad =>
    obtain ⟨bytes, hbytes, rfl⟩ := withOperand_eq_ok.mp h
    exact ⟨rfl, eq_encodeCounted_of_decodeCounted byteWord_of_byteItem hbytes⟩
  | vitDecode | vitFrame =>
    obtain ⟨bits, hbits, rfl⟩ := withOperand_eq_ok.mp h
    exact ⟨rfl, eq_encodeCounted_of_decodeCounted bitWord_of_bitItem hbits⟩
  | trbEntry =>
    obtain ⟨p, hp, rfl⟩ := withOperand_eq_ok.mp h
    exact ⟨rfl, eq_words_of_decodePair hp⟩
  | trbBuild | encStep | encRet | vitInit | vitBranch | vitMerge | vitTerm | vitTrace | vitStrip | vitPack | vitRet =>
    cases h
    exact ⟨rfl, rfl⟩

/-! Code words. -/

theorem opTable_code_eq : ∀ r ∈ opTable, r.code = r.op.code := by decide

theorem Op.ofCode_eq_some {c : Nat} {o : Op} : Op.ofCode c = some o ↔ c = o.code := by
  constructor
  · intro h
    obtain ⟨r, hfind, rfl⟩ := Option.map_eq_some_iff.mp h
    have hcode : r.code = c := by simpa using List.find?_some hfind
    exact hcode.symm.trans (opTable_code_eq r (List.mem_of_find?_eq_some hfind))
  · rintro rfl
    exact Op.ofCode_code o

theorem opOfWord_eq_some {w : Int} {o : Op} : opOfWord w = some o ↔ w = Int.ofNat o.code := by
  constructor
  · intro h
    simp only [opOfWord, Option.ite_none_right_eq_some, Op.ofCode_eq_some] at h
    obtain ⟨hw, hcode⟩ := h
    exact hcode ▸ (Int.toNat_of_nonneg hw).symm
  · rintro rfl
    exact opOfWord_code o

/-! Commands. -/

/-- Settles O2: the code word is the row's, and the operand words are read item by item. -/
theorem encodeOfDecode : Obligations.EncodeOfDecode := by
  intro ws rest i h
  cases ws with
  | nil => cases h
  | cons c ws =>
    rw [decode] at h
    split at h
    · cases h
    · rename_i op hop
      obtain ⟨rfl, rfl⟩ := decodeOperands_eq_ok h
      rw [opOfWord_eq_some.mp hop]
      rfl

/-- Settles O3: a code word names an operation only as its row's code. -/
theorem reservedCodesRejected : Obligations.ReservedCodesRejected := by
  intro c ws hcode
  have hnone : opOfWord c = none :=
    Option.eq_none_iff_forall_ne_some.mpr fun o ho => hcode o (opOfWord_eq_some.mp ho)
  rw [decode, hnone]

/-- Settles O4: the decoder evaluated on the words of R93. -/
theorem tableWordsRead : Obligations.TableWordsRead := by
  unfold Obligations.TableWordsRead
  decide

/-! STATUS codes (R94). -/

namespace Machine

theorem Status.ofCode_code (e : Status) : Status.ofCode e.code = e := by cases e <;> rfl

theorem Status.code_ofCode : ∀ c : BitVec 2, (Status.ofCode c).code = c := by decide

/-- Settles O6: the codes as R94 writes them, and the two directions as each other's inverse. -/
theorem statusCodes : Obligations.StatusCodes :=
  ⟨rfl, rfl, rfl, rfl, Status.ofCode_code, Status.code_ofCode⟩

end Machine

end Sys2Proof
end

section
/-! PROOFS. Construction (R98): what CFG.BUILD answers on a legal list and on any other, and that TRB.BUILD after it
makes the engine ready (R254). -/

namespace Sys2Proof.Machine

/-- R110, R112 to R114, R117: CFG.BUILD of a legal list at IDLE completes with its configuration. -/
theorem exec_cfgBuild_of_legal {gens : List Int} {s : State} (hidle : s.seq = .idle) (hlegal : LegalGenerators gens)
    (hwf : (Instr.cfgBuild gens).wf s.params = true) :
    exec (.cfgBuild gens) s = .next ((s.configured gens).flagConfigured.endOperation .ok .nothing) := by
  change execCfgBuild gens s = _
  rw [execCfgBuild_of_ready (refusalOf_cfgBuild.mpr ⟨.inl hidle, hwf⟩), buildConfig, badGenerators_eq_false.mpr hlegal]
  rfl

/-- R111, R116: CFG.BUILD of any other list at IDLE raises InvalidGenerator. -/
theorem exec_cfgBuild_of_not_legal {gens : List Int} {s : State} (hidle : s.seq = .idle)
    (hbad : ¬ LegalGenerators gens) (hwf : (Instr.cfgBuild gens).wf s.params = true) :
    exec (.cfgBuild gens) s = .next (s.endOperation .invalidGenerator .nothing) := by
  have hgens : badGenerators gens = true :=
    eq_true_of_ne_false (mt badGenerators_eq_false.mp hbad)
  change execCfgBuild gens s = _
  rw [execCfgBuild_of_ready (refusalOf_cfgBuild.mpr ⟨.inl hidle, hwf⟩), buildConfig, hgens]
  rfl

/-- R254: TRB.BUILD on a configured engine at IDLE makes it ready and keeps the configuration. -/
theorem exists_exec_trbBuild_ready {s : State} (hs : EngineInv s) (hidle : s.seq = .idle) (hvalid : s.cfgValid = true)
    (hmetric : s.params.metricFits s.n = true) :
    ∃ t, exec .trbBuild s = .next t ∧ Ready t ∧ t.n = s.n ∧ t.kreg = s.kreg :=
  have h := execTrbBuild_of_ready hidle hvalid
  ⟨_, h, ⟨engineInv_of_execTrbBuild hs h, rfl, hvalid, rfl, hmetric⟩, rfl, rfl⟩

/-- Settles O25: a legal list configures the engine with STATUS OK, so TRB.BUILD follows; after the raise of any other
list it does not. -/
theorem constructionMakesReady : Obligations.ConstructionMakesReady := by
  constructor
  · intro s gens hs hidle hlegal hwf hmetric
    have hcfg := exec_cfgBuild_of_legal hidle hlegal hwf
    obtain ⟨u, hu, hready, hn, hk⟩ :=
      exists_exec_trbBuild_ready (engineInv_of_execCfgBuild hs hcfg) rfl rfl hmetric
    exact ⟨_, u, hcfg, hu, by rw [runConstruction, hcfg, whenOk_next_ok rfl, hu], hready, hn, hk⟩
  · intro s gens hidle hbad hwf
    have hcfg := exec_cfgBuild_of_not_legal hidle hbad hwf
    exact ⟨_, hcfg, by rw [runConstruction, hcfg, whenOk_next_error (by simp)], rfl, rfl, rfl⟩

end Sys2Proof.Machine
end

section
/-! PROOFS. What each operation can report (R221 to R223): the status after it is the status before it, or one of those
the operation writes. -/

namespace Sys2Proof.Machine

/-- R220 to R223: the values of `STATUS` an operation can write. -/
def statusesOf : Op → List Status
  | .cfgBuild => [.ok, .invalidGenerator]
  | .trbBuild | .encEncode | .encRet | .vitRet => [.ok]
  | .vitDecode => [.ok, .invalidLength, .noValidPath]
  | .vitFrame | .vitStrip | .vitPack => [.invalidLength]
  | .vitTerm => [.noValidPath]
  | .encLoad | .encStep | .trbEntry | .vitInit | .vitBranch | .vitMerge | .vitTrace => []

/-- R221: InvalidGenerator is CFG's. -/
theorem op_of_invalidGenerator_mem {o : Op} (h : Status.invalidGenerator ∈ statusesOf o) : o = .cfgBuild := by
  cases o <;> simp_all [statusesOf]

/-- The status is kept, or is one of `es`. -/
def Reports (es : List Status) (s t : State) : Prop := t.status = s.status ∨ t.status ∈ es

theorem Reports.trans {es : List Status} (s t u : State) (h : Reports es s t) (h' : Reports es t u) : Reports es s u := by
  obtain hkeep | hnew := h'
  · exact h.imp hkeep.trans (hkeep ▸ ·)
  · exact .inr hnew

theorem Reports.mono {es es' : List Status} {s t : State} (hsub : es ⊆ es') (h : Reports es s t) : Reports es' s t :=
  h.imp_right (hsub ·)

theorem reports_start {i : Instr} {es : List Status} {s t : State} (h : start i s = .next t) : Reports es s t := by
  obtain ⟨-, rfl⟩ := start_eq_next.mp h
  obtain ⟨-, -, -, -, -, -, -, hstatus, -⟩ := started_keeps s i
  exact .inl hstatus

/-- R221 to R224: a micro-operation of ENC or VIT writes `STATUS` only where it ends the operation. -/
theorem reports_of_exec_micro {i : Instr} {unit : UnitId} (hu : streamUnit i.op = some unit) {s t : State}
    (h : exec i s = .next t) : Reports (statusesOf i.op) s t := by
  cases i <;> cases hu
  case encLoad =>
    rw [execEncLoad_eq_next.mp h]
    exact .inl rfl
  case encStep =>
    obtain ⟨c, d, -, -, rfl⟩ := execEncStep_eq_next.mp h
    exact .inl rfl
  case encRet =>
    obtain ⟨c, -, rfl⟩ := execEncRet_eq_next.mp h
    exact .inr (.head _)
  case vitFrame =>
    obtain ⟨-, rfl⟩ | ⟨-, rfl⟩ := execVitFrame_eq_next h
    · exact .inr (.head _)
    · exact .inl rfl
  case vitInit =>
    obtain ⟨c, -, rfl⟩ := execVitInit_eq_next.mp h
    exact .inl rfl
  case vitBranch =>
    obtain ⟨c, y, cand, -, -, -, rfl⟩ := execVitBranch_eq_next.mp h
    exact .inl rfl
  case vitMerge =>
    obtain ⟨c, -, rfl⟩ := execVitMerge_eq_next.mp h
    exact .inl rfl
  case vitTerm =>
    obtain ⟨c, -, ⟨-, rfl⟩ | ⟨w, -, rfl⟩⟩ := execVitTerm_eq_next h
    · exact .inr (.head _)
    · exact .inl rfl
  case vitTrace =>
    obtain ⟨c, w, ds, -, -, -, rfl⟩ := execVitTrace_eq_next.mp h
    exact .inl rfl
  case vitStrip =>
    obtain ⟨c, ds, -, -, ⟨-, rfl⟩ | ⟨-, rfl⟩⟩ := execVitStrip_eq_next h
    · exact .inr (.head _)
    · exact .inl rfl
  case vitPack =>
    obtain ⟨c, ds, -, -, ⟨-, rfl⟩ | ⟨-, rfl⟩⟩ := execVitPack_eq_next h
    · exact .inr (.head _)
    · exact .inl rfl
  case vitRet =>
    obtain ⟨c, bytes, m, -, -, -, rfl⟩ := execVitRet_eq_next.mp h
    exact .inr (.head _)

/-! A whole operation reports what its unit's micro-operations can. -/

theorem statuses_subset_of_enc {o : Op} (hu : streamUnit o = some .enc) : statusesOf o ⊆ statusesOf .encEncode := by
  cases o <;> cases hu <;> decide

theorem statuses_subset_of_vit {o : Op} (hu : streamUnit o = some .vit) : statusesOf o ⊆ statusesOf .vitDecode := by
  cases o <;> cases hu <;> decide

theorem reports_enc (i : Instr) (hu : streamUnit i.op = some .enc) {s t : State} (h : exec i s = .next t) :
    Reports (statusesOf .encEncode) s t :=
  (reports_of_exec_micro hu h).mono (statuses_subset_of_enc hu)

theorem reports_vit (i : Instr) (hu : streamUnit i.op = some .vit) {s t : State} (h : exec i s = .next t) :
    Reports (statusesOf .vitDecode) s t :=
  (reports_of_exec_micro hu h).mono (statuses_subset_of_vit hu)

theorem reports_encSteps (fuel : Nat) {s t : State} (h : encSteps fuel s = .next t) :
    Reports (statusesOf .encEncode) s t := by
  induction fuel generalizing s with
  | zero =>
    cases h
    exact .inl rfl
  | succ fuel ih =>
    unfold encSteps at h
    split at h
    · exact andThen_rel Reports.trans (fun u hu => reports_enc .encStep rfl hu) (fun u _ hut => ih hut) h
    · cases h
      exact .inl rfl

theorem reports_execEncEncode {bytes : List Byte} {s t : State} (h : execEncEncode bytes s = .next t) :
    Reports (statusesOf .encEncode) s t := by
  refine andThen_rel Reports.trans (fun u hu => reports_start hu) (fun u _ hut => ?_) h
  refine andThen_rel Reports.trans (fun v hv => reports_enc (.encLoad bytes) rfl hv) (fun v _ hvt => ?_) hut
  exact andThen_rel Reports.trans (fun w hw => reports_encSteps _ hw) (fun w _ hwt => reports_enc .encRet rfl hwt) hvt

theorem reports_vitSymbols (l : Nat) {s t : State} (h : vitSymbols l s = .next t) :
    Reports (statusesOf .vitDecode) s t := by
  induction l generalizing s with
  | zero =>
    cases h
    exact .inl rfl
  | succ l ih =>
    refine andThen_rel Reports.trans (fun u hu => reports_vit .vitBranch rfl hu) (fun u _ hut => ?_) h
    exact andThen_rel Reports.trans (fun v hv => reports_vit .vitMerge rfl hv) (fun v _ hvt => ih hvt) hut

theorem reports_vitFinish {s t : State} (h : vitFinish s = .next t) : Reports (statusesOf .vitDecode) s t := by
  refine andThen_rel Reports.trans (fun u hu => reports_vit .vitTerm rfl hu) (fun u _ hut => ?_) h
  refine andThen_rel Reports.trans (fun v hv => reports_vit .vitTrace rfl hv) (fun v _ hvt => ?_) hut
  refine andThen_rel Reports.trans (fun w hw => reports_vit .vitStrip rfl hw) (fun w _ hwt => ?_) hvt
  exact andThen_rel Reports.trans (fun x hx => reports_vit .vitPack rfl hx) (fun x _ hxt => reports_vit .vitRet rfl hxt) hwt

theorem reports_execVitDecode {rx : List Bit} {s t : State} (h : execVitDecode rx s = .next t) :
    Reports (statusesOf .vitDecode) s t := by
  refine andThen_rel Reports.trans (fun u hu => reports_start hu) (fun u _ hut => ?_) h
  refine andThen_rel Reports.trans (fun v hv => reports_vit (.vitFrame rx) rfl hv) (fun v _ hvt => ?_) hut
  refine andThen_rel Reports.trans (fun w hw => reports_vit .vitInit rfl hw) (fun w _ hwt => ?_) hvt
  exact andThen_rel Reports.trans (fun x hx => reports_vitSymbols _ hx) (fun x _ hxt => reports_vitFinish hxt) hwt

/-- R221 to R223: the status after any operation is the one before it or one the operation writes. -/
theorem reports_of_exec {i : Instr} {s t : State} (h : exec i s = .next t) : Reports (statusesOf i.op) s t := by
  cases i with
  | cfgBuild gens =>
    obtain ⟨-, rfl⟩ | ⟨-, rfl⟩ := execCfgBuild_eq_next h
    · exact .inr (.tail _ (.head _))
    · exact .inr (.head _)
  | trbBuild =>
    obtain ⟨-, rfl⟩ := execTrbBuild_eq_next h
    exact .inr (.head _)
  | trbEntry st d =>
    obtain ⟨-, rfl⟩ := execTrbEntry_eq_next.mp h
    exact .inl rfl
  | encEncode bytes => exact reports_execEncEncode h
  | vitDecode rx => exact reports_execVitDecode h
  | encLoad | encStep | encRet | vitFrame | vitInit | vitBranch | vitMerge | vitTerm | vitTrace | vitStrip | vitPack
  | vitRet => exact reports_of_exec_micro rfl h

end Sys2Proof.Machine
end

section
/-! PROOFS. ENC.ENCODE on a configured engine completes: the loop runs to ENC.RET, and the code is that of the walk
(R125, R148). -/

namespace Sys2Proof.Machine

/-- R125, R127: the loop runs a call that has `fuel` bits left to its end. -/
theorem exists_encSteps (fuel : Nat) {s : State} {c : EncCall} (henc : s.enc = some c) (hinv : EncInv s c.ui)
    (hseq : s.seq = encNext c.u c.ui) (hfuel : c.ui + fuel = c.u.length) :
    ∃ c' q, encSteps fuel s = .next { s with enc := some c', seq := q } ∧ q ≠ .idle ∧
      c'.code = walkCode s.kreg s.taps 0 c.u := by
  induction fuel generalizing s c with
  | zero =>
    obtain ⟨c', henc', -, -, -, -, -, hcode⟩ := hinv
    cases henc.symm.trans henc'
    have hall : c.u.take c.ui = c.u := List.take_of_length_le (by omega)
    refine ⟨c, s.seq, by rw [← henc]; rfl, hseq ▸ encNext_ne_idle _ _, by rw [hcode, hall]⟩
  | succ fuel ih =>
    have hlt : c.ui < c.u.length := by omega
    have hd : c.u[c.ui]? = some c.u[c.ui] := List.getElem?_eq_getElem hlt
    have hstep : s.seq = .encStep c.ui := by rw [hseq, encNext, if_pos hlt]
    simp only [encSteps, hstep]
    rw [execEncStep_eq_next.mpr ⟨c, _, henc, hd, rfl⟩, andThen_running (encNext_ne_idle _ _)]
    exact ih (c := c.stepped s.kreg s.taps c.u[c.ui]) rfl (encInv_stepped henc hinv hd) rfl
      (by change c.ui + 1 + fuel = c.u.length; omega)

/-- R126: no bits of a started ENC.ENCODE are coded yet. -/
theorem encInv_start {s : State} {bytes : List Byte} (henc : s.enc = some (EncCall.start s.kreg bytes)) : EncInv s 0 :=
  ⟨_, henc, rfl, Nat.zero_le _, ⟨bytes, rfl⟩, by simp [EncCall.start], by simp [EncCall.start, walkState],
    by simp [EncCall.start, walkCode]⟩

/-- R125, R148: ENC.ENCODE on a configured engine at IDLE completes with the code of the walk of its input bits. -/
theorem execEncEncode_of_ready {bytes : List Byte} {s : State} (h : s.refusalOf (.encEncode bytes) = none) :
    execEncEncode bytes s =
      .next (s.endOperation .ok (.code (walkCode s.kreg s.taps 0 (inputBits s.kreg bytes)))) := by
  obtain ⟨c, q, hloop, hq, hcode⟩ := exists_encSteps (8 * bytes.length + s.kreg)
    (s := { s.started (.encEncode bytes) with
            enc := some (EncCall.start s.kreg bytes), seq := encNext (inputBits s.kreg bytes) 0 })
    rfl (encInv_start rfl) rfl (by simp [EncCall.start])
  have hrun : (s.started (.encEncode bytes)).seq ≠ .idle := started_ne_idle rfl s
  refine andThen_eq_next.mpr (.inr ⟨_, start_of_ready h, hrun, ?_⟩)
  refine andThen_eq_next.mpr (.inr ⟨_, rfl, encNext_ne_idle _ _, ?_⟩)
  refine andThen_eq_next.mpr (.inr ⟨_, hloop, hq, execEncRet_eq_next.mpr ⟨c, rfl, ?_⟩⟩)
  rw [hcode]
  rfl

end Sys2Proof.Machine
end

section
/-! PROOFS. Unit CFG (spec/40_config_parser.md): a legal list is written to the slot and clears the table's flag
(R110 to R114, R117), and any other list leaves the slot alone (R111, R116). -/

namespace Sys2Proof.Machine

theorem not_legalGenerators_iff {gens : List Int} : ¬ LegalGenerators gens ↔ gens = [] ∨ ∃ g ∈ gens, g ≤ 0 := by
  simp [LegalGenerators, imp_iff_not_or]

/-- R112 to R114: an accepted CFG.BUILD of a legal list leaves its configuration. -/
theorem eq_of_exec_cfgBuild_legal {gens : List Int} {s t : State} (hlegal : LegalGenerators gens)
    (h : exec (.cfgBuild gens) s = .next t) : t = (s.configured gens).flagConfigured.endOperation .ok .nothing := by
  obtain ⟨hbad, -⟩ | ⟨-, ht⟩ := execCfgBuild_eq_next h
  · cases hbad.symm.trans (badGenerators_eq_false.mpr hlegal)
  · exact ht

/-- R116: an accepted CFG.BUILD of any other list only ends the operation. -/
theorem eq_of_exec_cfgBuild_not_legal {gens : List Int} {s t : State} (hbad : ¬ LegalGenerators gens)
    (h : exec (.cfgBuild gens) s = .next t) : t = s.endOperation .invalidGenerator .nothing := by
  obtain ⟨-, ht⟩ | ⟨hgood, -⟩ := execCfgBuild_eq_next h
  · exact ht
  · exact absurd (badGenerators_eq_false.mp hgood) hbad

/-- R117, R254: VIT.DECODE is refused while the table is not the configuration's. -/
theorem exec_vitDecode_tableNotValid {s : State} (hidle : s.seq = .idle) (hvalid : s.cfgValid = true)
    (htable : s.ttValid = false) (rx : List Bit) : exec (.vitDecode rx) s = .refused .tableNotValid := by
  have href : s.refusalOf (.vitDecode rx) = some .tableNotValid := by
    simp [State.refusalOf, State.mayIssue, Instr.isHost, hidle, hvalid, htable]
  change execVitDecode rx s = _
  rw [execVitDecode, start_refused href, andThen_refused]

/-- Settles O18: every generator fits in K+1 bits and one has bit K set. -/
theorem constraintLengthIsTopBit : Obligations.ConstraintLengthIsTopBit := by
  refine ⟨fun s t gens _ hlegal h => ?_, by decide, by decide, by decide⟩
  rw [eq_of_exec_cfgBuild_legal hlegal h]
  refine ⟨rfl, ?_, fun g hg => ?_⟩
  · obtain ⟨g, hg, htop⟩ := exists_testBit_constraintLength hlegal
    have hle : 2 ^ constraintLength gens ≤ g.toNat := Nat.ge_two_pow_of_testBit htop
    have hpos : 0 < g := hlegal.2 g hg
    exact ⟨g, hg, by simpa using (Int.le_toNat hpos.le).mp hle⟩
  · have hlt : g.toNat < 2 ^ (constraintLength gens + 1) := lt_of_constraintLength hlegal hg
    have hpos : 0 < g := hlegal.2 g hg
    simpa using (Int.toNat_lt hpos.le).mp hlt

/-- Settles O20: CFG.BUILD leaves a configured engine at IDLE with the table's flag clear, on which each of the three
operations has its answer. -/
theorem successInvalidatesTable : Obligations.SuccessInvalidatesTable := by
  intro s gens hidle hlegal hwf
  refine ⟨_, _, exec_cfgBuild_of_legal hidle hlegal hwf, rfl, exec_vitDecode_tableNotValid rfl rfl rfl,
    fun bytes hbytes => ?_, execTrbBuild_of_ready rfl rfl, rfl⟩
  exact ⟨_, execEncEncode_of_ready (refusalOf_encEncode.mpr ⟨rfl, rfl, hbytes⟩)⟩

/-- Settles O15: the state is the configuration written, flagged and ended. -/
theorem cfgBuildLegal : Obligations.CfgBuildLegal :=
  fun _ _ hidle hlegal hwf => exec_cfgBuild_of_legal hidle hlegal hwf

/-- Settles O16: a legal list completes with a configuration that has the invariant; for any other list the next state
does not depend on the list. -/
theorem invalidGeneratorExactly : Obligations.InvalidGeneratorExactly := by
  intro s gens hidle hwf
  rw [← not_legalGenerators_iff]
  by_cases hlegal : LegalGenerators gens
  · obtain ⟨hn, -, htaps, -⟩ := cfgInv_configured s hlegal rfl
    refine ⟨_, exec_cfgBuild_of_legal hidle hlegal hwf, ?_, ?_, fun _ => ⟨rfl, hn, fun tap htap => (htaps tap htap).1⟩⟩
    · exact ⟨nofun, fun hbad => absurd hlegal hbad⟩
    · nofun
  · refine ⟨_, exec_cfgBuild_of_not_legal hidle hlegal hwf, ?_, fun _ gens' => exec_cfgBuild_of_not_legal hidle, ?_⟩
    · exact ⟨fun _ => hlegal, fun _ => rfl⟩
    · exact fun hok => absurd rfl hok

/-- Settles O17: the raise ends the operation and writes no more; and InvalidGenerator is among the statuses of
CFG.BUILD alone. -/
theorem failedBuildKeepsSlot : Obligations.FailedBuildKeepsSlot := by
  constructor
  · intro s t gens _ hbad h
    rw [eq_of_exec_cfgBuild_not_legal hbad h]
    exact ⟨rfl, rfl, rfl, rfl, rfl, rfl, rfl, rfl, rfl, rfl⟩
  · intro i s t h hstatus
    obtain hkeep | hnew := reports_of_exec h
    · exact .inl (hkeep ▸ hstatus)
    · exact .inr (op_of_invalidGenerator_mem (hstatus ▸ hnew))

/-- Settles O19: the tap vectors are the generators' own values, and those are below 2^(K+1). -/
theorem tapVectorsInOrder : Obligations.TapVectorsInOrder := by
  intro s t gens _ hlegal h
  rw [eq_of_exec_cfgBuild_legal hlegal h]
  refine ⟨by simp [tapVectors], fun i g hi => ?_⟩
  have hg : g ∈ gens := List.mem_of_getElem? hi
  have hpos : 0 < g := hlegal.2 g hg
  refine ⟨g.toNat, by simp [tapVectors, hi], Int.toNat_of_nonneg hpos.le, fun j hj => ?_⟩
  exact Nat.testBit_lt_two_pow ((lt_of_constraintLength hlegal hg).trans_le (Nat.pow_le_pow_right (by omega) hj))

end Sys2Proof.Machine
end

section
/-! PROOFS. The step-wise view (D1): a host operation run whole passes through the states its micro-operations pass through
one by one, and SEQ is IDLE only at its end (R125, R145, R160). -/

namespace Sys2Proof.Machine

/-! Runs of the step-wise view inside an operation. -/

/-- The step-wise view gets from `s` to `t`, and SEQ is not IDLE at `s` or anywhere before `t`. -/
inductive RunsTo : State → State → Prop
  | refl (s : State) : RunsTo s s
  | head {s u t : State} (hrun : s.seq ≠ .idle) (hstep : microStep s = .next u) (h : RunsTo u t) : RunsTo s t

theorem RunsTo.trans {s t u : State} (h : RunsTo s t) (h' : RunsTo t u) : RunsTo s u := by
  induction h with
  | refl => exact h'
  | head hrun hstep _ ih => exact .head hrun hstep (ih h')

/-- A run in numbers of micro-steps. -/
theorem RunsTo.exists_microRun {s t : State} (h : RunsTo s t) :
    ∃ k, microRun k s = .next t ∧ ∀ j < k, ∃ u, microRun j s = .next u ∧ u.seq ≠ .idle := by
  induction h with
  | refl s => exact ⟨0, rfl, nofun⟩
  | @head s u t hrun hstep _ ih =>
    obtain ⟨k, hk, hbefore⟩ := ih
    refine ⟨k + 1, by rw [microRun, hstep, ← hk], fun j hj => ?_⟩
    cases j with
    | zero => exact ⟨s, rfl, hrun⟩
    | succ j =>
      obtain ⟨v, hv, hvrun⟩ := hbefore j (by omega)
      exact ⟨v, by rw [microRun, hstep, ← hv], hvrun⟩

theorem ne_idle_of_fetchMicro {s : State} {i : Instr} (h : s.fetchMicro = .ok (encode i)) : s.seq ≠ .idle := by
  intro hidle
  simp [State.fetchMicro, hidle, encode] at h

/-- A micro-operation at SEQ is one step of the step-wise view, unless it is TRB.ENTRY, after which TRB.BUILD may end. -/
theorem runsTo_of_exec {i : Instr} {s t : State} (hfetch : s.fetchMicro = .ok (encode i)) (hi : i.op ≠ .trbEntry)
    (h : exec i s = .next t) : RunsTo s t := by
  have hrun := ne_idle_of_fetchMicro hfetch
  have hmore : t.tableDone = false := Bool.eq_false_iff.mpr fun hdone => hi (op_of_exec_tableDone h hdone)
  refine .head hrun ?_ (.refl t)
  rw [microStep_running hrun, sequencerStep_of_fetch hfetch, h, afterEntry_next, hmore]
  rfl

/-- A sequence is run step by step when its parts are. -/
theorem RunsTo.andThen {o : Out} {f : State → Out} {s t : State} (h : andThen o f = .next t)
    (hparts : ∀ u, o = .next u → RunsTo s u ∧ (u.seq ≠ .idle → f u = .next t → RunsTo u t)) : RunsTo s t := by
  obtain ⟨hot, -⟩ | ⟨u, hou, hrun, hft⟩ := andThen_eq_next.mp h
  · exact (hparts t hot).1
  · obtain ⟨hfirst, hrest⟩ := hparts u hou
    exact hfirst.trans (hrest hrun hft)

/-- What follows the start of an operation that answers a next state. -/
theorem eq_next_of_andThen_start {i : Instr} (hi : i.isHost = true) {f : State → Out} {s t : State}
    (h : andThen (start i s) f = .next t) : f (s.started i) = .next t := by
  rwa [start_of_ready (refusalOf_of_andThen_start h), andThen_running (started_ne_idle hi s)] at h

/-! CFG.BUILD: one micro-operation, itself (R93). -/

theorem runsTo_execCfgBuild {gens : List Int} {s t : State} (h : execCfgBuild gens s = .next t) :
    RunsTo (s.started (.cfgBuild gens)) t := by
  obtain ⟨-, hwf⟩ := refusalOf_cfgBuild.mp (refusalOf_of_andThen_start h)
  have hready : (s.started (.cfgBuild gens)).refusalOf (.cfgBuild gens) = none := refusalOf_cfgBuild.mpr ⟨.inr rfl, hwf⟩
  have hbuild : buildConfig gens (s.started (.cfgBuild gens)) = .next t := eq_next_of_andThen_start rfl h
  exact runsTo_of_exec (i := .cfgBuild gens) rfl nofun ((execCfgBuild_of_ready hready).trans hbuild)

/-! TRB.BUILD: the pairs in the order SEQ goes through them (R145, R146). -/

/-- The list is that of the pairs of the table of degree `k` from a pair on, each followed by the pair after it. -/
def PairsFrom (k : Nat) : Nat × Bit → List (Nat × Bit) → Prop
  | p, [] => 2 ^ k ≤ p.1
  | p, q :: qs => q = p ∧ p.1 < 2 ^ k ∧ PairsFrom k (pairAfter p.1 p.2) qs

theorem pairsFrom_states {k m st : Nat} (h : st + m = 2 ^ k) :
    PairsFrom k (st, false) ((List.range' st m).flatMap fun st => [(st, false), (st, true)]) := by
  induction m generalizing st with
  | zero => exact h.ge
  | succ m ih =>
    have hst : st < 2 ^ k := by omega
    rw [List.range'_succ]
    exact ⟨rfl, hst, rfl, hst, ih (st := st + 1) (by omega)⟩

theorem pairsFrom_tablePairs (k : Nat) : PairsFrom k (0, false) (tablePairs k) := by
  rw [tablePairs, List.range_eq_range']
  exact pairsFrom_states (Nat.zero_add _)

/-- R146: the engine after TRB.ENTRY. -/
def State.entered (s : State) (st : Nat) (d : Bit) : State :=
  { s.writeTable st d (tableEntry s.kreg s.taps st d) with seq := .trbEntry (pairAfter st d).1 (pairAfter st d).2 }

theorem execTrbEntry_of_lt {s : State} {st : Nat} (hst : st < 2 ^ s.kreg) (d : Bit) :
    execTrbEntry st d s = .next (s.entered st d) := execTrbEntry_eq_next.mpr ⟨hst, rfl⟩

/-- V12: a TRB.ENTRY ends TRB.BUILD when no pair comes after its own. -/
theorem microStep_trbEntry {s : State} {st : Nat} {d : Bit} (hseq : s.seq = .trbEntry st d) (hst : st < 2 ^ s.kreg) :
    microStep s =
      if 2 ^ s.kreg ≤ (pairAfter st d).1 then endTable (s.entered st d) else .next (s.entered st d) := by
  have hfetch : s.fetchMicro = .ok (encode (.trbEntry st d)) := by simp [State.fetchMicro, hseq]
  have hdone : (s.entered st d).tableDone = true ↔ 2 ^ s.kreg ≤ (pairAfter st d).1 := by
    simp [State.tableDone, State.entered, Bool.eq_false_iff, isState_iff]
  rw [microStep_running (ne_idle_of_fetchMicro hfetch), sequencerStep_of_fetch hfetch]
  change afterEntry (execTrbEntry st d s) = _
  rw [execTrbEntry_of_lt hst, afterEntry_next]
  simp only [hdone]

/-- R145: the loops from the pair at SEQ on, and the end of the operation after them. -/
theorem runsTo_buildEntries {pairs : List (Nat × Bit)} {p : Nat × Bit} {s u t : State}
    (hpairs : PairsFrom s.kreg p pairs) (hp : p.1 < 2 ^ s.kreg) (hseq : s.seq = .trbEntry p.1 p.2)
    (h : buildEntries pairs s = .next u) (hend : endTable u = .next t) : RunsTo s t := by
  induction pairs generalizing p s with
  | nil => exact absurd hp hpairs.not_gt
  | cons q qs ih =>
    obtain ⟨rfl, -, hqs⟩ := hpairs
    have hrun : s.seq ≠ .idle := by simp [hseq]
    have hstep := microStep_trbEntry hseq hp
    rw [buildEntries, execTrbEntry_of_lt hp, andThen_running (by simp [State.entered])] at h
    by_cases hlast : 2 ^ s.kreg ≤ (pairAfter q.1 q.2).1
    · cases qs with
      | nil =>
        cases h
        rw [if_pos hlast, hend] at hstep
        exact .head hrun hstep (.refl t)
      | cons r rs => exact absurd hqs.2.1 hlast.not_gt
    · rw [if_neg hlast] at hstep
      exact .head hrun hstep (ih hqs (Nat.lt_of_not_le hlast) rfl h)

theorem runsTo_execTrbBuild {s t : State} (h : execTrbBuild s = .next t) : RunsTo (s.started .trbBuild) t := by
  obtain ⟨hloop, hidle⟩ | ⟨u, hloop, -, hend⟩ := andThen_eq_next.mp (eq_next_of_andThen_start rfl h)
  · obtain ⟨q, rfl, hq | hq⟩ := buildEntries_eq_next _ hloop
    · cases hq.symm.trans hidle
    · cases hidle
      cases hq
  · exact runsTo_buildEntries (pairsFrom_tablePairs s.kreg) (Nat.two_pow_pos _) rfl hloop hend

/-! ENC.ENCODE (R125). -/

/-- R125: with as many rounds as there are bits left, the loop is run step by step and ends at ENC.RET. -/
theorem runsTo_encSteps {fuel : Nat} {s t : State} {c : EncCall} (h : encSteps fuel s = .next t) (henc : s.enc = some c)
    (hseq : s.seq = encNext c.u c.ui) (hfuel : c.ui + fuel = c.u.length) :
    RunsTo s t ∧ ∃ ui, t.seq = .encRet ui := by
  induction fuel generalizing s c with
  | zero =>
    cases h
    exact ⟨.refl _, c.ui, by rw [hseq, encNext, if_neg (by omega)]⟩
  | succ fuel ih =>
    have hat : s.seq = .encStep c.ui := by rw [hseq, encNext, if_pos (by omega)]
    simp only [encSteps, hat] at h
    obtain ⟨hstep, hidle⟩ | ⟨u, hstep, -, hloop⟩ := andThen_eq_next.mp h
    · obtain ⟨c', d, -, -, rfl⟩ := execEncStep_eq_next.mp hstep
      exact absurd hidle (encNext_ne_idle _ _)
    · have hfirst : RunsTo s u := runsTo_of_exec (i := .encStep) (by simp [State.fetchMicro, hat]) nofun hstep
      obtain ⟨c', d, henc', -, rfl⟩ := execEncStep_eq_next.mp hstep
      cases henc.symm.trans henc'
      obtain ⟨hrest, hret⟩ := ih (c := c.stepped s.kreg s.taps d) hloop rfl rfl
        (by change c.ui + 1 + fuel = c.u.length; omega)
      exact ⟨hfirst.trans hrest, hret⟩

theorem runsTo_execEncEncode {bytes : List Byte} {s t : State} (h : execEncEncode bytes s = .next t) :
    RunsTo (s.started (.encEncode bytes)) t := by
  refine .andThen (eq_next_of_andThen_start rfl h) fun u hload =>
    ⟨runsTo_of_exec (i := .encLoad bytes) rfl nofun hload, fun _ h => ?_⟩
  cases execEncLoad_eq_next.mp hload
  refine .andThen h fun v hv => ?_
  obtain ⟨hloop, ui, hseq⟩ := runsTo_encSteps hv rfl rfl (by simp [EncCall.start, State.started])
  exact ⟨hloop, fun _ => runsTo_of_exec (i := .encRet) (by simp [State.fetchMicro, hseq]) nofun⟩

/-! VIT.DECODE (R160, R173). -/

/-- R173: with as many rounds as there are symbols left, the loop is run step by step and ends at VIT.TERM. -/
theorem runsTo_vitSymbols {l : Nat} {s t : State} {c : VitCall} (h : vitSymbols l s = .next t) (hvit : s.vit = some c)
    (hseq : s.seq = vitNext c.l c.ti) (hl : c.ti + l = c.l) :
    RunsTo s t ∧ ∃ ti, t.seq = .vitTerm ti := by
  induction l generalizing s c with
  | zero =>
    cases h
    exact ⟨.refl _, c.ti, by rw [hseq, vitNext, if_neg (by omega)]⟩
  | succ l ih =>
    have hat : s.seq = .vitBranch c.ti := by rw [hseq, vitNext, if_pos (by omega)]
    obtain ⟨hbranch, hidle⟩ | ⟨u, hbranch, -, hround⟩ := andThen_eq_next.mp h
    · obtain ⟨c', y, cand, -, -, -, rfl⟩ := execVitBranch_eq_next.mp hbranch
      cases hidle
    have hfirst : RunsTo s u := runsTo_of_exec (i := .vitBranch) (by simp [State.fetchMicro, hat]) nofun hbranch
    obtain ⟨c', y, cand, hvit', -, -, rfl⟩ := execVitBranch_eq_next.mp hbranch
    cases hvit.symm.trans hvit'
    obtain ⟨hmerge, hidle⟩ | ⟨v, hmerge, -, hloop⟩ := andThen_eq_next.mp hround
    · obtain ⟨c', -, rfl⟩ := execVitMerge_eq_next.mp hmerge
      exact absurd hidle (vitNext_ne_idle _ _)
    have hsecond := runsTo_of_exec (i := .vitMerge) rfl nofun hmerge
    obtain ⟨c', hvit', rfl⟩ := execVitMerge_eq_next.mp hmerge
    cases hvit'
    obtain ⟨hrest, hterm⟩ := ih hloop rfl rfl (by change c.ti + 1 + l = c.l; omega)
    exact ⟨(hfirst.trans hsecond).trans hrest, hterm⟩

/-- R160 after the loop: each phase goes on to the next one or ends the operation. -/
theorem runsTo_vitFinish {s t : State} {ti : Nat} (hseq : s.seq = .vitTerm ti) (h : vitFinish s = .next t) :
    RunsTo s t := by
  refine .andThen h fun u hterm =>
    ⟨runsTo_of_exec (i := .vitTerm) (by simp [State.fetchMicro, hseq]) nofun hterm, fun hrun h => ?_⟩
  obtain ⟨c, -, ⟨-, rfl⟩ | ⟨w, -, rfl⟩⟩ := execVitTerm_eq_next hterm
  · exact absurd rfl hrun
  refine .andThen h fun u htrace => ⟨runsTo_of_exec (i := .vitTrace) rfl nofun htrace, fun _ h => ?_⟩
  obtain ⟨c, w, ds, -, -, -, rfl⟩ := execVitTrace_eq_next.mp htrace
  refine .andThen h fun u hstrip => ⟨runsTo_of_exec (i := .vitStrip) rfl nofun hstrip, fun hrun h => ?_⟩
  obtain ⟨c, ds, -, -, ⟨-, rfl⟩ | ⟨-, rfl⟩⟩ := execVitStrip_eq_next hstrip
  · exact absurd rfl hrun
  refine .andThen h fun u hpack => ⟨runsTo_of_exec (i := .vitPack) rfl nofun hpack, fun hrun h => ?_⟩
  obtain ⟨c, ds, -, -, ⟨-, rfl⟩ | ⟨-, rfl⟩⟩ := execVitPack_eq_next hpack
  · exact absurd rfl hrun
  exact runsTo_of_exec (i := .vitRet) rfl nofun h

theorem runsTo_execVitDecode {rx : List Bit} {s t : State} (h : execVitDecode rx s = .next t) :
    RunsTo (s.started (.vitDecode rx)) t := by
  refine .andThen (eq_next_of_andThen_start rfl h) fun u hframe =>
    ⟨runsTo_of_exec (i := .vitFrame rx) rfl nofun hframe, fun hrun h => ?_⟩
  obtain ⟨-, rfl⟩ | ⟨-, rfl⟩ := execVitFrame_eq_next hframe
  · exact absurd rfl hrun
  refine .andThen h fun u hinit => ⟨runsTo_of_exec (i := .vitInit) rfl nofun hinit, fun _ h => ?_⟩
  obtain ⟨c, hvit, rfl⟩ := execVitInit_eq_next.mp hinit
  cases hvit
  refine .andThen h fun v hv => ?_
  obtain ⟨hloop, ti, hseq⟩ := runsTo_vitSymbols hv rfl rfl (Nat.zero_add _)
  exact ⟨hloop, fun _ => runsTo_vitFinish hseq⟩

/-! Every host operation. -/

/-- D1: a host operation that answers a next state whole is accepted, and run step by step it answers the same. -/
theorem runsTo_of_exec_host {i : Instr} (hi : i.isHost = true) {s t : State} (h : exec i s = .next t) :
    start i s = .next (s.started i) ∧ RunsTo (s.started i) t := by
  cases i <;> simp only [Instr.isHost, Bool.false_eq_true] at hi
  case cfgBuild gens => exact ⟨start_of_ready (refusalOf_of_andThen_start h), runsTo_execCfgBuild h⟩
  case trbBuild => exact ⟨start_of_ready (refusalOf_of_andThen_start h), runsTo_execTrbBuild h⟩
  case encEncode bytes => exact ⟨start_of_ready (refusalOf_of_andThen_start h), runsTo_execEncEncode h⟩
  case vitDecode rx => exact ⟨start_of_ready (refusalOf_of_andThen_start h), runsTo_execVitDecode h⟩

/-- Settles O14: the first micro-step starts the operation, and from there its micro-operations run to its end. -/
theorem stepwiseEqualsWhole : Obligations.StepwiseEqualsWhole := by
  intro s t i rest hidle hfetch hstep
  have hhost := isHost_of_fetchHost hfetch
  have hexec : exec i { s with hostIn := rest } = .next t := by rw [← hstep, step_idle hidle, idleStep, hfetch]
  obtain ⟨hstart, hruns⟩ := runsTo_of_exec_host hhost hexec
  have hfirst : microStep s = start i { s with hostIn := rest } := by rw [microStep_idle hidle, idleStep, hfetch]
  obtain ⟨k, hk, hbefore⟩ := hruns.exists_microRun
  have hshift : ∀ j, microRun (j + 1) s = microRun j (({ s with hostIn := rest } : State).started i) := fun j => by
    rw [microRun, hfirst, hstart]
  refine ⟨k + 1, by omega, (hshift k).trans hk, (atRest_of_exec_host hhost hexec).seq, fun j hj hjk => ?_⟩
  obtain ⟨j, rfl⟩ := Nat.exists_eq_add_of_le' hj
  rw [hshift]
  exact hbefore j (by omega)

end Sys2Proof.Machine
end

section
/-! PROOFS. Unit ENC (spec/41_encoder.md): the output bit as a parity (R128, R208), what each micro-operation does
(R126, R127, R131), and the walk read bit by bit: the closed form of the code (R134) and the zero state at the end (R132). -/

namespace Sys2Proof.Machine

/-! The output bit (R128, R208). -/

/-- R208: the sum modulo 2 of bits is the parity of how many are set. -/
theorem xorSum_map_toNat {α : Type} (f : α → Bit) (xs : List α) :
    (xorSum (xs.map f)).toNat = xs.countP f % 2 := by
  induction xs with
  | nil => rfl
  | cons x xs ih =>
    rw [List.map_cons, xorSum_cons, List.countP_cons]
    cases f x with
    | false => simpa using ih
    | true =>
      cases hsum : xorSum (xs.map f) <;> simp [hsum] at ih ⊢ <;> omega

/-- A word has no set bits above its width. -/
theorem countP_testBit_of_le {v m m' : Nat} (h : v < 2 ^ m) (hle : m ≤ m') :
    (List.range m').countP v.testBit = (List.range m).countP v.testBit := by
  induction m', hle using Nat.le_induction with
  | base => rfl
  | succ m' hle ih =>
    have htop : v.testBit m' = false := Nat.testBit_lt_two_pow (h.trans_le (Nat.pow_le_pow_right (by omega) hle))
    simp [List.range_succ, ih, htop]

/-- R13: the set bits of a word may be counted at any width that holds it. -/
theorem popcount_eq_countP {v m : Nat} (h : v < 2 ^ m) : popcount v = (List.range m).countP v.testBit := by
  rcases Nat.le_total (bitlen v) m with hle | hle
  · exact (countP_testBit_of_le (lt_two_pow_bitlen v) hle).symm
  · exact countP_testBit_of_le h hle

theorem outbit_toNat {k tap : Nat} (htap : tap < 2 ^ (k + 1)) (st : Nat) (d : Bit) :
    (outbit k tap st d).toNat = parity (tap &&& window st d) := by
  have hlt : tap &&& window st d < 2 ^ (k + 1) := Nat.and_le_left.trans_lt htap
  rw [outbit_eq_window, xorSum_map_toNat, parity, popcount_eq_countP hlt]
  refine congrArg (· % 2) (List.countP_congr fun j _ => ?_)
  rw [Nat.testBit_and, Bool.and_comm]

theorem outbit_xor (k tap st st' : Nat) (d d' : Bit) :
    outbit k tap (st ^^^ st') (Bool.xor d d') = Bool.xor (outbit k tap st d) (outbit k tap st' d') := by
  simp only [outbit, Nat.testBit_xor, Bool.and_xor_distrib_right, xorSum_map_xor,
    Bool.xor_assoc, Bool.xor_left_comm]

/-- Settles O24: the sum modulo 2 over the window's bits is the parity of their number; linearity is that of the sum, and
gives the value at zero. -/
theorem outbitIsLinearParity : Obligations.OutbitIsLinearParity := by
  intro k tap st st' d d' htap
  refine ⟨outbit_toNat htap st d, outbit_xor k tap st st' d d', ?_⟩
  simpa using outbit_xor k tap 0 0 false false

/-! The micro-operations (R126, R127, R131). -/

/-- Settles O26: there is a bit to encode unless there are no bytes and no flush bits. -/
theorem encLoadStarts : Obligations.EncLoadStarts := by
  intro s bytes
  have hseq : encNext (inputBits s.kreg bytes) 0 = if bytes = [] ∧ s.kreg = 0 then .encRet 0 else .encStep 0 := by
    have hempty : 0 < (inputBits s.kreg bytes).length ↔ ¬ (bytes = [] ∧ s.kreg = 0) := by
      rw [inputBits_length, ← List.length_eq_zero_iff]
      omega
    simp only [encNext, hempty, ite_not]
  exact execEncLoad_eq_next.mpr (by rw [hseq]; rfl)

/-- R128 in the register's own cells. -/
theorem outbit_regState (tap : Nat) (sr : List Bit) (d : Bit) :
    outbit sr.length tap (regState sr) d =
      Bool.xor (d && tap.testBit 0) (xorSum (sr.mapIdx fun j b => b && tap.testBit (j + 1))) := by
  have hcells : ((List.range sr.length).map fun j => (regState sr).testBit j && tap.testBit (j + 1)) =
      sr.mapIdx fun j b => b && tap.testBit (j + 1) := by
    apply List.ext_getElem
    · simp
    · intro j hj _
      have hcell : j < sr.length := by simpa using hj
      simp [regState_testBit, hcell]
  rw [outbit, hcells]

theorem stepped_eq {k : Nat} (taps : List Nat) {c : EncCall} (h : c.sr.length = k) (d : Bit) :
    c.stepped k taps d =
      { c with
        code := c.code ++ taps.map fun tap =>
          Bool.xor (d && tap.testBit 0) (xorSum (c.sr.mapIdx fun j b => b && tap.testBit (j + 1)))
        sr := (d :: c.sr).take k
        ui := c.ui + 1 } := by
  subst h
  simp [EncCall.stepped, outputGroup, outbit_regState, shiftIn, List.dropLast_eq_take]

/-- Settles O27: the step in the register's own cells, and no step without an input bit. -/
theorem encStepEmitsAndShifts : Obligations.EncStepEmitsAndShifts := by
  intro s c henc hlen
  refine ⟨fun d hd => ?_, fun hnone => ?_⟩
  · refine execEncStep_eq_next.mpr ⟨c, d, henc, hd, ?_⟩
    rw [stepped_eq s.taps hlen]
    rfl
  · change execEncStep s = _
    rw [execEncStep, encCall_eq.mpr henc, orFault_ok, hnone]

/-- Settles O28: ENC.RET ends the operation with the code as its result. -/
theorem encRetReturns : Obligations.EncRetReturns := fun _ c henc => execEncRet_eq_next.mpr ⟨c, henc, rfl⟩

/-- Settles O29: the preconditions hold, and an accepted ENC.ENCODE runs to its end. -/
theorem encodeIsTheWalk : Obligations.EncodeIsTheWalk := fun _ _ hidle hvalid hwf =>
  execEncEncode_of_ready (refusalOf_encEncode.mpr ⟨hidle, hvalid, hwf⟩)

/-! The walk, bit by bit (R132, R134). -/

/-- R132: the state after a walk from 0 holds the last K input bits, the most recent first. -/
theorem walkState_testBit (k : Nat) (us : List Bit) (j : Nat) :
    (walkState k 0 us).testBit j = (decide (j < k) && us.reverse[j]?.getD false) := by
  induction us using List.reverseRecOn generalizing j with
  | nil => simp [walkState]
  | append_singleton us d ih =>
    rw [walkState_append, walkState, walkState, nextState_testBit]
    cases j with
    | zero => simp
    | succ j =>
      by_cases hj : j + 1 < k
      · simp [ih, hj, Nat.lt_of_succ_lt hj]
      · simp [hj]

/-- R132: the flush bits leave the register all zeros. -/
theorem walkState_inputBits (k : Nat) (bytes : List Byte) : walkState k 0 (inputBits k bytes) = 0 := by
  apply Nat.eq_of_testBit_eq
  intro j
  rw [walkState_testBit, inputBits, List.reverse_append, List.reverse_replicate]
  by_cases hj : j < k
  · simp [List.getElem?_append_left, hj]
  · simp [hj]

theorem eq_zeros_of_regState {sr : List Bit} (h : regState sr = 0) : sr = List.replicate sr.length false := by
  apply List.ext_getElem
  · simp
  · intro j hj _
    have hbit := regState_testBit sr j
    simpa [h, hj] using hbit.symm

/-- Settles O32: at ENC.RET the register holds the state of the whole walk. -/
theorem encoderEndsAtZero : Obligations.EncoderEndsAtZero := by
  intro s i hs hseq
  obtain ⟨-, -, hat⟩ := hs
  simp only [SeqInv, hseq] at hat
  obtain ⟨-, -, hinv, c, henc, hi⟩ := hat
  obtain ⟨c', henc', -, -, ⟨bytes, hu⟩, hlen, hstate, -⟩ := hinv
  cases henc.symm.trans henc'
  rw [List.take_of_length_le hi.ge, hu, walkState_inputBits] at hstate
  exact ⟨c, henc, hlen ▸ eq_zeros_of_regState hstate⟩

/-- R129: the code is made of one output group per input bit, that of step t at t*n. -/
theorem walkCode_getElem? {k : Nat} {taps : List Nat} {us : List Bit} {t i st : Nat} {d : Bit} (hd : us[t]? = some d)
    (hi : i < taps.length) :
    (walkCode k taps st us)[t * taps.length + i]? = (outputGroup k taps (walkState k st (us.take t)) d)[i]? := by
  induction us generalizing t st with
  | nil => simp at hd
  | cons e us ih =>
    cases t with
    | zero =>
      cases hd
      simp [walkCode, walkState, List.getElem?_append_left, hi]
    | succ t =>
      have hpos : (t + 1) * taps.length + i = taps.length + (t * taps.length + i) := by ring
      rw [hpos, walkCode, List.getElem?_append_right (by simp), outputGroup_length, Nat.add_sub_cancel_left]
      exact ih (t := t) hd

/-- R84, R134: bit j of the window of step t is the input bit j steps before, and 0 before the first. -/
theorem window_walkState_testBit {k t j : Nat} {us : List Bit} {d : Bit} (hd : us[t]? = some d) (hj : j ≤ k) :
    (window (walkState k 0 (us.take t)) d).testBit j = (decide (j ≤ t) && us.getD (t - j) false) := by
  obtain ⟨ht, -⟩ := List.getElem?_eq_some_iff.mp hd
  cases j with
  | zero => simp [hd]
  | succ j =>
    have hlen : (us.take t).length = t := List.length_take_of_le ht.le
    rw [window_testBit_succ, walkState_testBit]
    by_cases hjt : j < t
    · rw [List.getElem?_reverse (by omega), hlen, List.getElem?_take_of_lt (by omega), Nat.sub_sub, Nat.add_comm 1 j]
      simp [Nat.lt_of_succ_le hj, Nat.succ_le_of_lt hjt]
    · rw [List.getElem?_eq_none (by simp; omega)]
      simp [hjt]

/-- Settles O31: position t*n + i is output bit i of step t, the sum modulo 2 over the window's bits under tap i. -/
theorem encodeIsConvolution : Obligations.EncodeIsConvolution := by
  intro s bytes hcfg hidle hvalid hwf
  obtain ⟨-, hn, -⟩ := hcfg hvalid
  refine ⟨_, execEncEncode_of_ready (refusalOf_encEncode.mpr ⟨hidle, hvalid, hwf⟩), fun t i tap ht htap => ?_⟩
  obtain ⟨hi, -⟩ := List.getElem?_eq_some_iff.mp htap
  obtain ⟨d, hd⟩ : ∃ d, (inputBits s.kreg bytes)[t]? = some d :=
    ⟨_, List.getElem?_eq_getElem (by simpa using ht)⟩
  rw [← hn, walkCode_getElem? hd hi, outputGroup, List.getElem?_map, htap, Option.map_some, outbit_eq_window]
  congr 2
  refine List.map_congr_left fun j hj => ?_
  rw [window_walkState_testBit hd (Nat.lt_succ_iff.mp (List.mem_range.mp hj)), Bool.and_comm]

end Sys2Proof.Machine
end

section
/-! PROOFS. Unit TRB (spec/42_trellis_table.md): one entry at a time (R146), the whole table (R145, R150), the edges into a
state of the trellis (R149), and the encoder reading the table (R148). -/

namespace Sys2Proof.Machine

/-! The table (R145, R146). -/

/-- R51: a state outside [0, 2^K) has no entry to write. -/
theorem execTrbEntry_of_le {s : State} {st : Nat} (hst : 2 ^ s.kreg ≤ st) (d : Bit) :
    execTrbEntry st d s = .fault .noSuchState := by
  rw [execTrbEntry, if_neg (by simpa [isState_iff] using hst)]

/-- R146: SEQ moves to the pair after (s, d). -/
theorem seq_entered (s : State) (st : Nat) (d : Bit) :
    (s.entered st d).seq = if d then .trbEntry (st + 1) false else .trbEntry st true := by
  cases d <;> rfl

/-- Settles O21: the entry is written at its own address, and there is one for a state of the trellis alone. -/
theorem trbEntryWrites : Obligations.TrbEntryWrites := by
  intro s st d
  refine ⟨fun hst => ?_, fun hst => execTrbEntry_of_le hst d⟩
  refine ⟨(s.entered st d).tt, ?_, Memory.read_write_same _ _ _, fun a ha => Memory.read_write_other _ _ ha⟩
  rw [← seq_entered s st d]
  exact execTrbEntry_of_lt hst d

/-- Settles O22: TRB.BUILD completes, having written the entry of every pair of the table and no other address. -/
theorem trbBuildMakesTable : Obligations.TrbBuildMakesTable := by
  intro s hidle hvalid
  have hbuild : exec .trbBuild s = .next _ := execTrbBuild_of_ready hidle hvalid
  obtain ⟨-, -, -, -, hother, -⟩ := whoWritesWhat .trbBuild s _ hbuild
  exact ⟨_, hbuild, fun st hst d => read_writeEntries_same _ (.inl (mem_tablePairs.mpr hst)), hother rfl⟩

/-! The edges of the trellis (R149). -/

/-- R84: a word is the window of its higher bits and its lowest. -/
theorem window_div_two_testBit_zero (v : Nat) : window (v / 2) (v.testBit 0) = v := by
  apply Nat.eq_of_testBit_eq
  intro j
  cases j with
  | zero => simp
  | succ j => rw [window_testBit_succ, Nat.testBit_succ]

/-- R147: the step drops the oldest bit of the state and prepends the input bit to the rest. -/
theorem nextState_succ (k st : Nat) (d : Bit) : nextState (k + 1) st d = window (st % 2 ^ k) d := by
  rw [nextState, pow_succ', Nat.mod_mul, window_mod_two, window_div_two, Nat.add_comm, window]

/-- The (k+1)-bit words that agree on their lower k bits. -/
theorem mod_two_pow_eq_iff {k v p : Nat} (hv : v < 2 ^ (k + 1)) (hp : p < 2 ^ k) :
    v % 2 ^ k = p ↔ v = p ∨ v = p + 2 ^ k := by
  rw [pow_succ] at hv
  rcases Nat.lt_or_ge v (2 ^ k) with hlow | hhigh
  · rw [Nat.mod_eq_of_lt hlow]
    omega
  · rw [Nat.mod_eq_sub_mod hhigh, Nat.mod_eq_of_lt (by omega)]
    omega

/-- Settles O23: an edge names its input bit and the lower K-1 bits of its source; the dropped bit is free. -/
theorem edgesOfTheTrellis : Obligations.EdgesOfTheTrellis := by
  intro k s s' d hk hs hs'
  obtain ⟨k, rfl⟩ := Nat.exists_eq_add_of_le' hk
  have hp : s' / 2 < 2 ^ k := by
    rw [pow_succ] at hs'
    omega
  rw [Nat.add_sub_cancel, nextState_succ, ← mod_two_pow_eq_iff hs hp]
  constructor
  · rintro rfl
    simp
  · rintro ⟨rfl, hlow⟩
    rw [hlow, window_div_two_testBit_zero]

/-! The encoder and the table (R148). -/

/-- Settles O33: the entry of the register's state holds the group the step emits and the state the shift leaves. -/
theorem encoderFollowsTable : Obligations.EncoderFollowsTable := by
  intro s c d htable henc hlen hd
  have hst : regState c.sr < 2 ^ s.kreg := hlen ▸ regState_lt c.sr
  refine ⟨_, _, _, htable _ hst d, execEncStep_eq_next.mpr ⟨c, d, henc, hd, rfl⟩, rfl, rfl, ?_⟩
  rw [tableEntry, ← hlen]
  exact regState_shiftIn c.sr d

end Sys2Proof.Machine
end

section
/-! PROOFS. Unit VIT, one micro-operation at a time (spec/43_viterbi_decoder.md): the start of a decoding (R161, R162), the
branch step (R163, R165), the return of the decoded bytes (R177 to R181), and the bound on the metrics (R170). -/

namespace Sys2Proof.Machine

/-! The start of a decoding (R161, R162). -/

theorem execVitFrame_of_whole {rx : List Bit} {s : State} (hwhole : rx.length % s.n = 0) :
    execVitFrame rx s = .next { s with vit := some (VitCall.start s.n rx), seq := .vitInit } := by
  rw [execVitFrame, if_neg (not_not.mpr hwhole)]

/-- Settles O35: the only test of VIT.FRAME is that of the length. -/
theorem frameChecksLength : Obligations.FrameChecksLength := by
  intro s rx
  refine ⟨fun hpart => ?_, fun hwhole => ⟨_, execVitFrame_of_whole hwhole, rfl, rfl⟩⟩
  change execVitFrame rx s = _
  rw [execVitFrame, if_pos hpart]
  rfl

/-- Settles O36: SEQ after no symbols is at the first one when there is one. -/
theorem initStartsAtZero : Obligations.InitStartsAtZero := fun _ c hvit => execVitInit_eq_next.mpr ⟨c, hvit, rfl⟩

/-! The branch step (R163, R165). -/

/-- R165: the live trail at position q, extended by hypothesis d, is the candidate at position 2q+d. -/
theorem branch_getElem?_of_live {s : State} {y : List Bit} {live cand : List Trail} (h : branch s y live = .ok cand)
    {q : Nat} {d : Bit} {tr c : Trail} (hq : live[q]? = some tr) (hext : extend s y tr d = .ok c) :
    cand[window q d]? = some c := by
  obtain ⟨hlt, -⟩ := List.getElem?_eq_some_iff.mp hq
  have hpos : window q d < cand.length := by
    have := toNat_le_one d
    rw [branch_length h, window]
    omega
  have hc : cand[window q d]? = some cand[window q d] := List.getElem?_eq_getElem hpos
  obtain ⟨tr', hq', hext'⟩ := branch_getElem? h q d _ hc
  cases hq.symm.trans hq'
  rw [hc, Except.ok.inj (hext'.symm.trans hext)]

/-- Settles O37: the branch step answers, and each candidate is the extension of the live trail it comes from. -/
theorem branchExtendsEveryTrail : Obligations.BranchExtendsEveryTrail := by
  intro s c hvit hfit hlive
  obtain ⟨cand, hcand⟩ := branch_ok (y := (c.rx.drop (c.ti * s.n)).take s.n) hlive
  refine ⟨cand, execVitBranch_eq_next.mpr ⟨c, _, cand, hvit, symbolAt_of_le hfit, hcand, rfl⟩, branch_length hcand, ?_⟩
  intro q st tr d e hq hst hread
  exact branch_getElem?_of_live hcand hq (extend_eq_ok.mpr ⟨st, e, hst, hread, rfl⟩)

/-! The decoded bytes (R177 to R181). -/

/-- R178: bit 0 of a successor is the input bit when there is a register to hold it. -/
theorem nextState_testBit_zero (k st : Nat) (d : Bit) : (nextState k st d).testBit 0 = (decide (0 < k) && d) := by
  rw [nextState_testBit, window_testBit_zero]

/-- R177, R178: the bit traced between a state and its successor is the input bit; for K = 0 it is 0. -/
theorem tracedBit_nextState {s : State} (htable : TableBuilt s) {st : Nat} (hst : st < 2 ^ s.kreg) (d : Bit) :
    tracedBit s st (nextState s.kreg st d) = .ok (decide (0 < s.kreg) && d) := by
  have h0 : s.readTable st false = .ok (tableEntry s.kreg s.taps st false) := htable st hst false
  have h1 : s.readTable st true = .ok (tableEntry s.kreg s.taps st true) := htable st hst true
  simp only [tracedBit, h0, h1, tableEntry]
  cases hk : decide (0 < s.kreg) with
  | false =>
    have hzero : s.kreg = 0 := by simpa using hk
    simp [hzero, nextState, Nat.mod_one]
  | true =>
    cases d with
    | false => simp
    | true =>
      have hne : nextState s.kreg st false ≠ nextState s.kreg st true := fun h => by
        have hbit := nextState_testBit_zero s.kreg st true
        rw [← h, nextState_testBit_zero, hk] at hbit
        cases hbit
      simp [hne]

/-- R177, R178: what is traced from a walk with input bits `us`: those bits, or zeros for K = 0 (D12). -/
def traceOf (k : Nat) (us : List Bit) : List Bit := us.map fun d => decide (0 < k) && d

@[simp] theorem traceOf_length (k : Nat) (us : List Bit) : (traceOf k us).length = us.length := List.length_map _

theorem traceOf_of_pos {k : Nat} (hk : 0 < k) (us : List Bit) : traceOf k us = us := by
  simp [traceOf, hk]

@[simp] theorem traceOf_kZero (us : List Bit) : traceOf 0 us = List.replicate us.length false := by
  simp [traceOf]

theorem tracedBits_of_walk {s : State} (htable : TableBuilt s) {st : Nat} (hst : st < 2 ^ s.kreg) (us : List Bit) :
    tracedBits s us.length (walkPath s.kreg st us) = .ok (traceOf s.kreg us) := by
  induction us generalizing st with
  | nil => rfl
  | cons d us ih =>
    obtain ⟨path, hpath⟩ := walkPath_eq_cons s.kreg (nextState s.kreg st d) us
    have hrest := ih (nextState_lt s.kreg st d)
    rw [hpath] at hrest
    simp only [walkPath, hpath, List.length_cons, tracedBits, tracedBit_nextState htable hst, hrest, traceOf,
      List.map_cons]

/-- R177, R178: what VIT.TRACE reads from the path of a walk from state 0. -/
theorem tracedBits_of_path {s : State} {path : List Nat} {us : List Bit} {l : Nat} (htable : TableBuilt s)
    (hpath : path = walkPath s.kreg 0 us) (hlen : us.length = l) :
    tracedBits s l path = .ok (traceOf s.kreg us) := by
  rw [hpath, ← hlen, tracedBits_of_walk htable (Nat.two_pow_pos _)]

/-- R178: the input bit of a step is bit 0 of the state after it. -/
theorem walkPath_testBit_zero {k st i b : Nat} {us : List Bit} (hk : 0 < k) (h : (walkPath k st us)[i + 1]? = some b) :
    us[i]? = some (b.testBit 0) := by
  induction us generalizing st i with
  | nil => simp [walkPath] at h
  | cons d us ih =>
    rw [walkPath, List.getElem?_cons_succ] at h
    cases i with
    | zero =>
      obtain ⟨path, hpath⟩ := walkPath_eq_cons k (nextState k st d) us
      rw [hpath] at h
      cases h
      rw [nextState_testBit_zero, decide_eq_true hk]
      rfl
    | succ i => exact ih h

/-- Settles O42: the traced bits of a walk are its input bits, and none of them is set for K = 0. -/
theorem traceReadsTheInputs : Obligations.TraceReadsTheInputs := by
  intro s c w us hvit hwin htable hlen hpath
  refine ⟨_, execVitTrace_eq_next.mpr ⟨c, w, _, hvit, hwin, tracedBits_of_path htable hpath hlen, rfl⟩, by simp [hlen],
    fun hk => ?_, fun hk => ?_⟩
  · rw [traceOf_of_pos hk]
    exact ⟨rfl, fun i b hb => walkPath_testBit_zero hk (hpath ▸ hb)⟩
  · rw [hk, traceOf_kZero, hlen]

theorem execVitStrip_of_le {s : State} {c : VitCall} {ds : List Bit} (hvit : s.vit = some c) (hbits : c.dbits = some ds)
    (hlong : s.kreg ≤ ds.length) :
    execVitStrip s =
      .next { s with vit := some { c with dbits := some (ds.take (ds.length - s.kreg)) }, seq := .vitPack } := by
  rw [execVitStrip, vitCall_eq.mpr hvit, orFault_ok, written_eq.mpr hbits, orFault_ok, if_neg hlong.not_gt]

theorem execVitPack_of_whole {s : State} {c : VitCall} {ds : List Bit} (hvit : s.vit = some c) (hbits : c.dbits = some ds)
    (hwhole : ds.length % 8 = 0) :
    execVitPack s = .next { s with vit := some { c with bytes := some (pack ds) }, seq := .vitRet } := by
  rw [execVitPack, vitCall_eq.mpr hvit, orFault_ok, written_eq.mpr hbits, orFault_ok, if_neg (not_not.mpr hwhole)]

/-- Settles O43: the two branches of VIT.STRIP. -/
theorem stripDropsTheTail : Obligations.StripDropsTheTail := by
  intro s c ds hvit hbits
  constructor
  · intro hshort
    change execVitStrip s = _
    rw [execVitStrip, vitCall_eq.mpr hvit, orFault_ok, written_eq.mpr hbits, orFault_ok, if_pos hshort]
    rfl
  · rintro kept tail rfl htail
    have hlen : (kept ++ tail).length = kept.length + s.kreg := by rw [List.length_append, htail]
    have hstrip := execVitStrip_of_le hvit hbits (by omega)
    rwa [hlen, Nat.add_sub_cancel, List.take_left] at hstrip

/-- Settles O44: the two branches of VIT.PACK, and the byte order of packing. -/
theorem packIsMsbFirst : Obligations.PackIsMsbFirst := by
  refine ⟨fun s c ds hvit hbits => ⟨fun hpart => ?_, fun hwhole => ?_⟩, by decide⟩
  · change execVitPack s = _
    rw [execVitPack, vitCall_eq.mpr hvit, orFault_ok, written_eq.mpr hbits, orFault_ok, if_pos hpart]
    rfl
  · obtain ⟨-, hbytes, -⟩ := byteAndBitOrder
    exact ⟨pack ds, execVitPack_of_whole hvit hbits hwhole, pack_length ds, hbytes ds⟩

/-- Settles O45: VIT.RET ends the operation with the bytes and the metric as its result. -/
theorem vitRetReturns : Obligations.VitRetReturns := fun _ c bytes m hvit hbytes hmetric =>
  execVitRet_eq_next.mpr ⟨c, bytes, m, hvit, hbytes, hmetric, rfl⟩

/-! The metrics (R170). -/

/-- Settles O46: at both phases every live trail is a walk of t steps. -/
theorem metricBound : Obligations.MetricBound := by
  intro s t c hs hphase hvit tr hmem
  obtain ⟨hcfg, -, hat⟩ := hs
  obtain ⟨hvalid, hlive⟩ : s.cfgValid = true ∧ LiveInv s c t := by
    rcases hphase with hseq | hseq <;> simp only [SeqInv, hseq] at hat
    · obtain ⟨hvalid, -, -, c', hvit', -, -, -, -, hlive⟩ := hat
      cases hvit.symm.trans hvit'
      exact ⟨hvalid, hlive⟩
    · obtain ⟨hvalid, -, -, c', hvit', -, -, -, hlive⟩ := hat
      cases hvit.symm.trans hvit'
      exact ⟨hvalid, hlive⟩
  obtain ⟨-, htaps, -⟩ := hcfg hvalid
  obtain ⟨-, -, -, htrail⟩ := hlive.lt_of_mem hmem
  exact htrail.metric_le htaps

end Sys2Proof.Machine
end

section
/-! PROOFS. Unit VIT, the selection: the trail kept at a state, by its position in the list it is kept from; hence what the
merge step keeps under either tie-break (R167 to R169, U1) and the winner (R174). -/

namespace Sys2Proof.Machine

/-! The selection among the trails at one state (R167, R168, U1). -/

/-- Position `j` wins a tie against position `j'`: the earlier of the two, or the later one under "later wins" (U1). -/
def WinsTie (lw : Bool) (j j' : Nat) : Prop := if lw then j' ≤ j else j ≤ j'

theorem WinsTie.antisymm {lw : Bool} {j j' : Nat} (h : WinsTie lw j j') (h' : WinsTie lw j' j) : j = j' := by
  cases lw
  · exact Nat.le_antisymm h h'
  · exact Nat.le_antisymm h' h

/-- Position `j` of `trs` holds the trail at `st` that the selection keeps: none there has a smaller metric, and it wins
the tie against each of its own metric. -/
def IsPick (lw : Bool) (st : Nat) (trs : List Trail) (j : Nat) (tr : Trail) : Prop :=
  trs[j]? = some tr ∧ tr.current = some st ∧
    ∀ (j' : Nat) (tr' : Trail), trs[j']? = some tr' → tr'.current = some st →
      tr.metric ≤ tr'.metric ∧ (tr'.metric = tr.metric → WinsTie lw j j')

/-- There is one pick at most. -/
theorem IsPick.unique {lw : Bool} {st : Nat} {trs : List Trail} {j j' : Nat} {tr tr' : Trail}
    (h : IsPick lw st trs j tr) (h' : IsPick lw st trs j' tr') : tr = tr' := by
  obtain ⟨hj, hcur, hleast⟩ := h
  obtain ⟨hj', hcur', hleast'⟩ := h'
  obtain ⟨hle, htie⟩ := hleast j' tr' hj' hcur'
  obtain ⟨hle', htie'⟩ := hleast' j tr hj hcur
  cases (htie (Nat.le_antisymm hle' hle)).antisymm (htie' (Nat.le_antisymm hle hle'))
  exact Option.some.inj (hj.symm.trans hj')

theorem leastTrail_append (lw : Bool) (trs : List Trail) (x : Trail) :
    leastTrail lw (trs ++ [x]) =
      some (match leastTrail lw trs with
        | none => x
        | some b => if replaces lw x b then x else b) := by
  cases trs with
  | nil => rfl
  | cons tr trs => simp [leastTrail]

theorem getElem?_append_singleton {α : Type} {xs : List α} {x v : α} {j : Nat} :
    (xs ++ [x])[j]? = some v ↔ xs[j]? = some v ∨ (j = xs.length ∧ x = v) := by
  rcases Nat.lt_trichotomy j xs.length with hlt | rfl | hgt
  · simp [List.getElem?_append_left hlt, hlt.ne]
  · simp
  · simp [List.getElem?_eq_none, hgt.le, hgt.ne', Nat.succ_le_of_lt hgt]

theorem replaces_iff {lw : Bool} {x b : Trail} :
    replaces lw x b = true ↔ x.metric < b.metric ∨ (lw = true ∧ x.metric = b.metric) := by
  simp [replaces]

/-- A later trail that does not replace the pick leaves it the pick. -/
theorem IsPick.append_of_not_replaces {lw : Bool} {st j : Nat} {trs : List Trail} {tr x : Trail}
    (h : IsPick lw st trs j tr) (hx : x.current = some st → replaces lw x tr = false) :
    IsPick lw st (trs ++ [x]) j tr := by
  obtain ⟨hj, hcur, hleast⟩ := h
  obtain ⟨hlt, -⟩ := List.getElem?_eq_some_iff.mp hj
  refine ⟨getElem?_append_singleton.mpr (.inl hj), hcur, fun j' tr' hj' hcur' => ?_⟩
  obtain hold | ⟨rfl, rfl⟩ := getElem?_append_singleton.mp hj'
  · exact hleast j' tr' hold hcur'
  · have hnot := mt replaces_iff.mpr (Bool.eq_false_iff.mp (hx hcur'))
    rw [not_or, not_and] at hnot
    refine ⟨Nat.le_of_not_lt hnot.1, fun htie => ?_⟩
    cases lw
    · exact hlt.le
    · exact absurd htie (hnot.2 rfl)

/-- A later trail that would replace every trail at its state is the pick. -/
theorem IsPick.of_append {lw : Bool} {st : Nat} {trs : List Trail} {x : Trail} (hcur : x.current = some st)
    (hx : ∀ tr ∈ trs, tr.current = some st → x.metric ≤ tr.metric ∧ (tr.metric = x.metric → lw = true)) :
    IsPick lw st (trs ++ [x]) trs.length x := by
  refine ⟨by simp, hcur, fun j' tr' hj' hcur' => ?_⟩
  obtain hold | ⟨rfl, rfl⟩ := getElem?_append_singleton.mp hj'
  · obtain ⟨hle, htie⟩ := hx tr' (List.mem_of_getElem? hold) hcur'
    refine ⟨hle, fun heq => ?_⟩
    cases htie heq
    exact (List.getElem?_eq_some_iff.mp hold).1.le
  · exact ⟨le_rfl, fun _ => by cases lw <;> exact le_rfl (a := trs.length)⟩

theorem trailsAt_append (st : Nat) (trs : List Trail) (x : Trail) :
    trailsAt st (trs ++ [x]) = if x.current = some st then trailsAt st trs ++ [x] else trailsAt st trs := by
  by_cases h : x.current = some st <;> simp [trailsAt, h]

/-- Where there is a trail there is one to select. -/
theorem exists_leastTrail {st : Nat} {trs : List Trail} {tr : Trail} (lw : Bool) (hmem : tr ∈ trs)
    (hcur : tr.current = some st) : ∃ b, leastTrail lw (trailsAt st trs) = some b :=
  Option.ne_none_iff_exists'.mp fun hnone =>
    List.ne_nil_of_mem (mem_trailsAt.mpr ⟨hmem, hcur⟩) (leastTrail_eq_none.mp hnone)

/-- R168, U1: the selection keeps the pick, trail by trail down the list. -/
theorem exists_isPick {lw : Bool} {st : Nat} {trs : List Trail} {tr : Trail}
    (h : leastTrail lw (trailsAt st trs) = some tr) : ∃ j, IsPick lw st trs j tr := by
  induction trs using List.reverseRecOn generalizing tr with
  | nil => cases h
  | append_singleton trs x ih =>
    rw [trailsAt_append] at h
    by_cases hcur : x.current = some st
    · rw [if_pos hcur, leastTrail_append, Option.some.injEq] at h
      cases hbest : leastTrail lw (trailsAt st trs) with
      | none =>
        have hnone : trailsAt st trs = [] := leastTrail_eq_none.mp hbest
        rw [hbest] at h
        subst h
        exact ⟨_, .of_append hcur fun tr hmem hat => absurd (mem_trailsAt.mpr ⟨hmem, hat⟩) (by simp [hnone])⟩
      | some b =>
        obtain ⟨-, hleast⟩ := leastTrail_spec hbest
        simp only [hbest] at h
        split at h
        · rename_i hrep
          subst h
          refine ⟨_, .of_append hcur fun tr hmem hat => ?_⟩
          have hb := hleast tr (mem_trailsAt.mpr ⟨hmem, hat⟩)
          obtain hlt | ⟨hlw, heq⟩ := replaces_iff.mp hrep
          · exact ⟨by omega, fun _ => by omega⟩
          · exact ⟨by omega, fun _ => hlw⟩
        · rename_i hkeep
          subst h
          obtain ⟨j, hj⟩ := ih hbest
          exact ⟨j, hj.append_of_not_replaces fun _ => Bool.eq_false_iff.mpr hkeep⟩
    · rw [if_neg hcur] at h
      obtain ⟨j, hj⟩ := ih h
      exact ⟨j, hj.append_of_not_replaces fun hat => absurd hat hcur⟩

/-- R168, U1: the selection among the trails at a state, by their positions in the whole list. -/
theorem leastTrail_trailsAt_iff {lw : Bool} {st : Nat} {trs : List Trail} {tr : Trail} :
    leastTrail lw (trailsAt st trs) = some tr ↔ ∃ j, IsPick lw st trs j tr := by
  refine ⟨exists_isPick, fun ⟨j, hpick⟩ => ?_⟩
  obtain ⟨hj, hcur, -⟩ := id hpick
  obtain ⟨b, hb⟩ := exists_leastTrail lw (List.mem_of_getElem? hj) hcur
  obtain ⟨j', hpick'⟩ := exists_isPick hb
  rw [hb, hpick'.unique hpick]

/-! The merge step (R167, R169). -/

theorem mem_survivors {lw : Bool} {k : Nat} {cand : List Trail} {tr : Trail} :
    tr ∈ survivors lw k cand ↔ ∃ st < 2 ^ k, leastTrail lw (trailsAt st cand) = some tr := by
  simp [survivors]

theorem current_of_leastTrail {lw : Bool} {st : Nat} {trs : List Trail} {tr : Trail}
    (h : leastTrail lw (trailsAt st trs) = some tr) : tr.current = some st :=
  (mem_trailsAt.mp (leastTrail_spec h).1).2

/-- R167: a state that has a candidate has a survivor, of no greater metric. -/
theorem exists_survivor {k st : Nat} {cand : List Trail} {tr : Trail} (lw : Bool) (hst : st < 2 ^ k) (hmem : tr ∈ cand)
    (hcur : tr.current = some st) :
    ∃ b ∈ survivors lw k cand, b.current = some st ∧ b.metric ≤ tr.metric := by
  obtain ⟨b, hb⟩ := exists_leastTrail lw hmem hcur
  obtain ⟨-, hleast⟩ := leastTrail_spec hb
  exact ⟨b, mem_survivors.mpr ⟨st, hst, hb⟩, current_of_leastTrail hb, hleast tr (mem_trailsAt.mpr ⟨hmem, hcur⟩)⟩

/-- R169: the survivors stand in ascending state order. -/
theorem survivors_pairwise (lw : Bool) (k : Nat) (cand : List Trail) :
    (survivors lw k cand).Pairwise fun a b => ∀ x y, a.current = some x → b.current = some y → x < y := by
  refine List.pairwise_filterMap.mpr (List.pairwise_lt_range.imp fun {st st'} hlt a ha b hb x y hx hy => ?_)
  cases (current_of_leastTrail ha).symm.trans hx
  cases (current_of_leastTrail hb).symm.trans hy
  exact hlt

/-- R167, R168, U1: the survivors are the picks. -/
theorem mem_survivors_iff_isPick {lw : Bool} {k : Nat} {cand : List Trail} {tr : Trail} :
    tr ∈ survivors lw k cand ↔ ∃ j st, st < 2 ^ k ∧ IsPick lw st cand j tr := by
  simp only [mem_survivors, leastTrail_trailsAt_iff]
  exact ⟨fun ⟨st, hst, j, hj⟩ => ⟨j, st, hst, hj⟩, fun ⟨j, st, hst, hj⟩ => ⟨st, hst, j, hj⟩⟩

/-- Settles O39: the survivors by membership, by order, and at the default tie-break by position. -/
theorem mergeKeepsTheArgmin : Obligations.MergeKeepsTheArgmin := by
  intro s c hvit
  refine ⟨_, execVitMerge_eq_next.mpr ⟨c, hvit, rfl⟩, fun hfilling => if_neg hfilling, fun hfull => ?_⟩
  rw [merged, if_pos hfull]
  refine ⟨fun tr htr => ?_, fun st hst ⟨tr, hmem, hcur⟩ => ?_, survivors_pairwise _ _ _, fun hearlier tr => ?_⟩
  · obtain ⟨st, hst, hpick⟩ := mem_survivors.mp htr
    obtain ⟨hmem, hleast⟩ := leastTrail_spec hpick
    obtain ⟨hcand, hcur⟩ := mem_trailsAt.mp hmem
    exact ⟨hcand, st, hst, hcur, fun tr' hmem' hcur' => hleast tr' (mem_trailsAt.mpr ⟨hmem', hcur'⟩)⟩
  · obtain ⟨b, hb, hat, -⟩ := exists_survivor s.params.laterWins hst hmem hcur
    exact ⟨b, hb, hat⟩
  · rw [hearlier]
    exact mem_survivors_iff_isPick

/-- Settles O40: as O39, with the other tie-break. -/
theorem mergeTieBreakParameter : Obligations.MergeTieBreakParameter := by
  intro s c hvit hlater
  refine ⟨_, execVitMerge_eq_next.mpr ⟨c, hvit, rfl⟩, fun hfilling => if_neg hfilling, fun hfull => ?_⟩
  rw [merged, if_pos hfull, hlater]
  exact ⟨survivors_pairwise _ _ _, fun tr => mem_survivors_iff_isPick⟩

/-! Termination (R174). -/

theorem execVitTerm_of_some {s : State} {c : VitCall} {w : Trail} (hvit : s.vit = some c)
    (hw : leastTrail false (trailsAt 0 c.live) = some w) :
    execVitTerm s = .next { s with vit := some { c with win := some w, metric := some w.metric }, seq := .vitTrace } := by
  rw [execVitTerm, vitCall_eq.mpr hvit, orFault_ok, hw]

/-- Settles O41: the winner is the pick at state 0, and there is one unless no trail is there. -/
theorem termChoosesAtZero : Obligations.TermChoosesAtZero := by
  intro s c hvit
  refine ⟨fun hnone => ?_, fun ⟨tr, hmem, hcur⟩ => ?_⟩
  · have hempty : trailsAt 0 c.live = [] :=
      List.eq_nil_iff_forall_not_mem.mpr fun tr htr => hnone tr (mem_trailsAt.mp htr).1 (mem_trailsAt.mp htr).2
    change execVitTerm s = _
    rw [execVitTerm, vitCall_eq.mpr hvit, orFault_ok, leastTrail_eq_none.mpr hempty]
    rfl
  · obtain ⟨w, hw⟩ := exists_leastTrail false hmem hcur
    obtain ⟨j, hj, hat, hleast⟩ := exists_isPick hw
    exact ⟨w, j, hj, hat, hleast, execVitTerm_of_some hvit hw⟩

end Sys2Proof.Machine
end

section
/-! PROOFS. One symbol in the per-state form (R172): each state has the candidates of its two edges (R149), at two places in
the candidate list, and what the merge step leaves at the state is the better of the two. -/

namespace Sys2Proof.Machine

/-! Trails at their own positions (R169, R171). -/

/-- The q-th trail is at state q. -/
def InStateOrder (trs : List Trail) : Prop := ∀ (q : Nat) (tr : Trail), trs[q]? = some tr → tr.current = some q

theorem InStateOrder.trailsAt_eq {trs : List Trail} (h : InStateOrder trs) (st : Nat) :
    trailsAt st trs = trs[st]?.toList := by
  induction trs using List.reverseRecOn with
  | nil => rfl
  | append_singleton trs x ih =>
    have hinit : InStateOrder trs := fun q tr hq =>
      h q tr (getElem?_append_singleton.mpr (.inl hq))
    have hlast : x.current = some trs.length := h _ x (getElem?_append_singleton.mpr (.inr ⟨rfl, rfl⟩))
    rw [trailsAt_append, ih hinit, hlast]
    rcases Nat.lt_trichotomy st trs.length with hlt | rfl | hgt
    · simp [hlt.ne', List.getElem?_append_left hlt]
    · simp
    · simp [hgt, hgt.ne, hgt.le]

theorem liveAt_eq_head? (c : VitCall) (st : Nat) : c.liveAt st = (trailsAt st c.live).head? :=
  List.head?_filter.symm

/-- R171: the live trail at a state is the one at its position. -/
theorem LiveInv.liveAt {s : State} {c : VitCall} {t : Nat} (h : LiveInv s c t) (st : Nat) :
    c.liveAt st = c.live[st]? := by
  have hat : InStateOrder c.live := fun q tr hq => (h.2 q tr hq).1
  rw [liveAt_eq_head?, hat.trailsAt_eq]
  cases c.live[st]? <;> rfl

/-! The candidates of one state (R163, R166). -/

/-- R163: each candidate, from the live trail it extends. -/
theorem LiveInv.branch_getElem? {s : State} {c : VitCall} {t : Nat} {y : List Bit} {cand : List Trail}
    (hlive : LiveInv s c t) (htable : TableBuilt s) (h : branch s y c.live = .ok cand) (q : Nat) (d : Bit) :
    cand[window q d]? = c.live[q]?.map fun tr =>
      { path := tr.path ++ [nextState s.kreg q d]
        metric := tr.metric + hamming (tableEntry s.kreg s.taps q d).out y } := by
  cases hq : c.live[q]? with
  | none =>
    rw [List.getElem?_eq_none_iff] at hq
    refine List.getElem?_eq_none_iff.mpr ?_
    rw [branch_length h, window]
    omega
  | some tr =>
    obtain ⟨hcur, -⟩ := hlive.2 q tr hq
    obtain ⟨q', hq', hcur', -⟩ := hlive.lt_of_mem (List.mem_of_getElem? hq)
    cases hcur.symm.trans hcur'
    exact branch_getElem?_of_live h hq (extend_eq_ok.mpr ⟨q, _, hcur, htable q hq' d, rfl⟩)

theorem CandInv.length_le {s : State} {c : VitCall} {t : Nat} (h : CandInv s c t) : c.cand.length ≤ 2 * 2 ^ s.kreg := by
  have hle : 2 ^ min t s.kreg ≤ 2 ^ s.kreg := Nat.pow_le_pow_right (by omega) (Nat.min_le_right _ _)
  obtain ⟨hlen, -⟩ := h
  omega

/-- R166: the candidates of a state stand at its own position in each half of a full list. -/
theorem CandInv.trailsAt_eq {s : State} {c : VitCall} {t st : Nat} (h : CandInv s c t) (hst : st < 2 ^ s.kreg) :
    trailsAt st c.cand = c.cand[st]?.toList ++ c.cand[2 ^ s.kreg + st]?.toList := by
  have hlow : InStateOrder (c.cand.take (2 ^ s.kreg)) := fun q tr hq => by
    obtain ⟨hpos, -⟩ := List.getElem?_eq_some_iff.mp hq
    have hlt : q < 2 ^ s.kreg := hpos.trans_le (List.length_take_le _ _)
    rw [List.getElem?_take_of_lt hlt] at hq
    rw [(h.getElem? hq).1, Nat.mod_eq_of_lt hlt]
  have hhigh : InStateOrder (c.cand.drop (2 ^ s.kreg)) := fun q tr hq => by
    rw [List.getElem?_drop] at hq
    obtain ⟨hlt, -⟩ := List.getElem?_eq_some_iff.mp hq
    have hlen := h.length_le
    rw [(h.getElem? hq).1, Nat.add_mod_left, Nat.mod_eq_of_lt (by omega)]
  calc trailsAt st c.cand
      = trailsAt st (c.cand.take (2 ^ s.kreg)) ++ trailsAt st (c.cand.drop (2 ^ s.kreg)) := by
        rw [trailsAt, trailsAt, trailsAt, ← List.filter_append, List.take_append_drop]
    _ = c.cand[st]?.toList ++ c.cand[2 ^ s.kreg + st]?.toList := by
        rw [hlow.trailsAt_eq, hhigh.trailsAt_eq, List.getElem?_take_of_lt hst, List.getElem?_drop]

/-- R167: the merge step leaves at each state the least of its candidates, also while the trellis fills. -/
theorem CandInv.liveAt_merged {s : State} {c c' : VitCall} {t st : Nat} {lw : Bool} (h : CandInv s c t)
    (hrx : c'.rx = c.rx) (hlive : c'.live = merged lw s.kreg c.cand) (hst : st < 2 ^ s.kreg) :
    c'.liveAt st = leastTrail lw (trailsAt st c.cand) := by
  rw [(h.liveInv_merged lw hrx hlive).liveAt, hlive, merged]
  split
  · rename_i hfull
    rw [survivors_getElem? fun st hst => h.trailsAt_ne_nil hfull hst, if_pos hst]
  · rename_i hfilling
    have hshort : c.cand.length ≤ 2 ^ s.kreg := by
      obtain ⟨hlen, -⟩ := h
      have hk : min t s.kreg + 1 ≤ s.kreg := by
        by_contra hge
        exact hfilling (by rw [hlen, show min t s.kreg = s.kreg by omega])
      calc c.cand.length = 2 ^ (min t s.kreg + 1) := by rw [hlen, pow_succ']
        _ ≤ 2 ^ s.kreg := Nat.pow_le_pow_right (by omega) hk
    rw [h.trailsAt_eq hst, List.getElem?_eq_none (l := c.cand) (i := 2 ^ s.kreg + st) (by omega)]
    cases c.cand[st]? <;> rfl

/-! Add, compare, select (R172). -/

/-- R172: a live trail taken along an edge into `st`. -/
def viaEdge (tt : Nat → Bit → TTEntry) (y : List Bit) (live : Nat → Option Trail) (st p : Nat) : Option Trail :=
  (live p).map fun tr =>
    { path := tr.path ++ [st], metric := tr.metric + hamming (tt p (st.testBit 0)).out y }

/-- R172: compare and select is the selection among the two. -/
theorem addCompareSelect_eq_leastTrail (k : Nat) (tt : Nat → Bit → TTEntry) (y : List Bit) (live : Nat → Option Trail)
    (st : Nat) :
    addCompareSelect k tt y live st =
      leastTrail false
        ((viaEdge tt y live st (st / 2)).toList ++ (viaEdge tt y live st (st / 2 + 2 ^ (k - 1))).toList) := by
  cases h0 : live (st / 2) <;> cases h1 : live (st / 2 + 2 ^ (k - 1)) <;>
    simp [addCompareSelect, viaEdge, h0, h1, leastTrail, replaces]

/-- R149: the windows of the two edges into a state. -/
theorem window_edges {k st : Nat} (hk : 1 ≤ k) :
    window (st / 2) (st.testBit 0) = st ∧ window (st / 2 + 2 ^ (k - 1)) (st.testBit 0) = 2 ^ k + st := by
  have hlow := window_div_two_testBit_zero st
  have hpow : 2 ^ k = 2 * 2 ^ (k - 1) := by rw [← pow_succ', Nat.sub_add_cancel hk]
  refine ⟨hlow, ?_⟩
  unfold window at hlow ⊢
  omega

/-- R163, R172: the candidate at the window of an edge into a state is the live trail taken along the edge. -/
theorem LiveInv.branch_viaEdge {s : State} {c : VitCall} {t st p : Nat} {y : List Bit} {cand : List Trail}
    (hlive : LiveInv s c t) (htable : TableBuilt s) (h : branch s y c.live = .ok cand)
    (hp : nextState s.kreg p (st.testBit 0) = st) :
    cand[window p (st.testBit 0)]? = viaEdge (tableEntry s.kreg s.taps) y c.liveAt st p := by
  rw [hlive.branch_getElem? htable h, viaEdge, hlive.liveAt, hp]

/-- Settles O47: the two candidates of a state are the live trails taken along its two edges, and the merge step selects
between them. -/
theorem addCompareSelectEquivalent : Obligations.AddCompareSelectEquivalent := by
  intro s t c hs hseq hvit hk hearlier
  obtain ⟨hcfg, htable, hat⟩ := hs
  simp only [SeqInv, hseq] at hat
  obtain ⟨hvalid, hready, -, c', hvit', hframe, rfl, ht, -, hlive⟩ := hat
  cases hvit.symm.trans hvit'
  obtain ⟨-, htaps, -⟩ := hcfg hvalid
  obtain ⟨-, hbuilt⟩ := htable.2 hready
  have hfit := symbol_fits hframe ht
  obtain ⟨cand, hcand⟩ := branch_of_tableBuilt hbuilt hlive ((c.rx.drop (c.ti * s.n)).take s.n)
  have hcandInv := candInv_of_branch hbuilt htaps hfit hlive hcand
  refine ⟨_, _, _, execVitBranch_eq_next.mpr ⟨c, _, cand, hvit, symbolAt_of_le hfit, hcand, rfl⟩,
    execVitMerge_eq_next.mpr ⟨_, rfl, rfl⟩, rfl, fun st hst => ?_⟩
  obtain ⟨hw0, hw1⟩ := window_edges (st := st) hk
  have h0 : cand[st]? = _ := hw0 ▸ hlive.branch_viaEdge hbuilt hcand (p := st / 2) (st := st)
    (by rw [nextState, hw0, Nat.mod_eq_of_lt hst])
  have h1 : cand[2 ^ s.kreg + st]? = _ := hw1 ▸ hlive.branch_viaEdge hbuilt hcand (p := st / 2 + 2 ^ (s.kreg - 1)) (st := st)
    (by rw [nextState, hw1, Nat.add_mod_left, Nat.mod_eq_of_lt hst])
  rw [addCompareSelect_eq_leastTrail, ← h0, ← h1, ← hcandInv.trailsAt_eq hst, ← hearlier]
  exact hcandInv.liveAt_merged rfl rfl hst

end Sys2Proof.Machine
end

section
/-! PROOFS. NoValidPath cannot occur (R176): the live set has a trail at state 0 whenever VIT.TERM runs, and no other
micro-operation reports it. -/

namespace Sys2Proof.Machine

/-- R223: NoValidPath is VIT.TERM's, alone or within VIT.DECODE. -/
theorem op_of_noValidPath_mem {o : Op} (h : Status.noValidPath ∈ statusesOf o) : o = .vitDecode ∨ o = .vitTerm := by
  cases o <;> simp_all [statusesOf]

/-- R171, R175: at every step boundary a live trail is at state 0. -/
theorem LiveInv.exists_leastTrail_zero {s : State} {c : VitCall} {t : Nat} (h : LiveInv s c t) :
    ∃ w, leastTrail false (trailsAt 0 c.live) = some w := by
  have hpos : 0 < c.live.length := h.1 ▸ Nat.two_pow_pos _
  have hfirst : c.live[0]? = some c.live[0] := List.getElem?_eq_getElem hpos
  exact exists_leastTrail false (List.mem_of_getElem? hfirst) (h.2 0 _ hfirst).1

/-- R176: VIT.TERM goes on to the traceback. -/
theorem execVitTerm_status {s t : State} {ti : Nat} (hs : EngineInv s) (hseq : s.seq = .vitTerm ti)
    (h : execVitTerm s = .next t) : t.status = s.status := by
  obtain ⟨-, -, hat⟩ := hs
  simp only [SeqInv, hseq] at hat
  obtain ⟨-, -, -, c, hvit, -, -, -, hlive⟩ := hat
  obtain ⟨w, hw⟩ := hlive.exists_leastTrail_zero
  cases (execVitTerm_of_some hvit hw).symm.trans h
  rfl

theorem seq_of_op_vitTerm {q : Seq} (h : q.op = some .vitTerm) : ∃ ti, q = .vitTerm ti := by
  cases q <;> simp_all [Seq.op]

theorem eq_vitTerm_of_op {i : Instr} (h : i.op = .vitTerm) : i = .vitTerm := by
  cases i <;> simp_all [Instr.op]

theorem seq_op_ne_vitDecode (q : Seq) : q.op ≠ some .vitDecode := by
  cases q <;> simp [Seq.op]

/-- R176, inside an operation. -/
theorem sequencerStep_ne_noValidPath {s t : State} (hs : EngineInv s) (hrun : s.seq ≠ .idle)
    (hstatus : s.status ≠ .noValidPath) (h : sequencerStep s = .next t) : t.status ≠ .noValidPath := by
  obtain ⟨i, hop, hstep⟩ := sequencerStep_runs hrun h
  obtain ⟨u, hexec, ⟨-, rfl⟩ | ⟨-, rfl⟩⟩ := afterEntry_eq_next hstep
  · simp
  · obtain hkeep | hnew := reports_of_exec hexec
    · rwa [hkeep]
    · intro hbad
      obtain hdecode | hterm := op_of_noValidPath_mem (hbad ▸ hnew)
      · exact seq_op_ne_vitDecode _ (hdecode ▸ hop)
      · obtain ⟨ti, hseq⟩ := seq_of_op_vitTerm (hterm ▸ hop)
        obtain rfl := eq_vitTerm_of_op hterm
        exact hstatus ((execVitTerm_status hs hseq hexec).symm.trans hbad)

/-- R176, along a run inside an operation. -/
theorem RunsTo.ne_noValidPath {s t : State} (h : RunsTo s t) (hs : EngineInv s) (hstatus : s.status ≠ .noValidPath) :
    t.status ≠ .noValidPath := by
  induction h with
  | refl => exact hstatus
  | head hrun hstep _ ih =>
    refine ih ((safe_microStep hs).1 _ hstep) ?_
    rw [microStep_running hrun] at hstep
    exact sequencerStep_ne_noValidPath hs hrun hstatus hstep

/-- Settles O49: a host operation run whole passes through the states of the step-wise view, and none of its
micro-operations reports NoValidPath. -/
theorem noValidPathNeverRaised : Obligations.NoValidPathNeverRaised := by
  intro s t hs hstatus h
  by_cases hidle : s.seq = .idle
  · rw [step_idle hidle] at h
    obtain ⟨-, rfl⟩ | ⟨i, rest, hfetch, hexec⟩ := idleStep_eq_next h
    · exact hstatus
    · have hhost := isHost_of_fetchHost hfetch
      obtain ⟨hstart, hruns⟩ := runsTo_of_exec_host hhost hexec
      have hstarted := (safe_start hhost (engineInv_hostIn hs rest) hidle).1 _ hstart
      obtain ⟨-, -, -, -, -, -, -, hkeep, -⟩ := started_keeps { s with hostIn := rest } i
      exact hruns.ne_noValidPath hstarted (by rw [hkeep]; exact hstatus)
  · rw [step_running hidle] at h
    exact sequencerStep_ne_noValidPath hs hidle hstatus h

end Sys2Proof.Machine
end

section
/-! PROOFS. Whole decodings (R160): after every symbol the live trails are as near to the received bits as any walk that ends
at their state (R170, R182); hence the winner is the nearest path, and for K = 0 its metric is a sum over the symbols
(R184 (f)). -/

namespace Sys2Proof.Machine

/-! No walk is nearer than the trails (R182). -/

/-- Every walk of `t` steps from state 0 has one of the trails at its last state, of no greater distance to the first `t`
symbols. -/
def Covers (s : State) (rx : List Bit) (t : Nat) (trs : List Trail) : Prop :=
  ∀ us : List Bit, us.length = t → ∃ tr ∈ trs, tr.current = some (walkState s.kreg 0 us) ∧
    tr.metric ≤ hamming (walkCode s.kreg s.taps 0 us) (rx.take (t * s.n))

theorem covers_initial (s : State) (rx : List Bit) : Covers s rx 0 [Trail.initial] := fun us hus => by
  obtain rfl := List.length_eq_zero_iff.mp hus
  exact ⟨Trail.initial, List.mem_singleton_self _, rfl, Nat.zero_le _⟩

/-- R163, R164: the distance of a walk one step longer. -/
theorem hamming_walkCode_snoc {s : State} {rx : List Bit} (htaps : s.taps.length = s.n) (us : List Bit) (d : Bit)
    (hfit : (us.length + 1) * s.n ≤ rx.length) :
    hamming (walkCode s.kreg s.taps 0 (us ++ [d])) (rx.take ((us.length + 1) * s.n)) =
      hamming (walkCode s.kreg s.taps 0 us) (rx.take (us.length * s.n)) +
        hamming (outputGroup s.kreg s.taps (walkState s.kreg 0 us) d) ((rx.drop (us.length * s.n)).take s.n) := by
  rw [Nat.succ_mul] at hfit ⊢
  have hsame : (walkCode s.kreg s.taps 0 us).length = (rx.take (us.length * s.n)).length := by
    rw [walkCode_length, htaps, List.length_take_of_le (by omega)]
  rw [List.take_add, walkCode_append, hamming_append hsame]
  simp [walkCode]

/-- R163: the branch step extends every walk by both input bits. -/
theorem Covers.branch {s : State} {c : VitCall} {cand : List Trail} {t : Nat} (htable : TableBuilt s)
    (htaps : s.taps.length = s.n) (hfit : (t + 1) * s.n ≤ c.rx.length) (hcovers : Covers s c.rx t c.live)
    (h : branch s ((c.rx.drop (t * s.n)).take s.n) c.live = .ok cand) : Covers s c.rx (t + 1) cand := by
  intro us hus
  obtain ⟨us, d, rfl⟩ := (List.eq_nil_or_concat' us).resolve_left (by rintro rfl; cases hus)
  obtain rfl : us.length = t := by simpa using hus
  obtain ⟨tr, hmem, hcur, hle⟩ := hcovers us rfl
  obtain ⟨q, hq⟩ := List.mem_iff_getElem?.mp hmem
  have hread := htable _ (walkState_lt (Nat.two_pow_pos s.kreg) us) d
  have hcand := branch_getElem?_of_live h hq (extend_eq_ok.mpr ⟨_, _, hcur, hread, rfl⟩)
  refine ⟨_, List.mem_of_getElem? hcand, ?_, ?_⟩
  · rw [trail_current_append, walkState_append]
    rfl
  · rw [hamming_walkCode_snoc htaps us d hfit]
    exact Nat.add_le_add_right hle _

/-- R167: the merge step discards no trail without keeping one at its state that is as near. -/
theorem Covers.merged {s : State} {rx : List Bit} {t : Nat} {cand : List Trail} (h : Covers s rx t cand) (lw : Bool) :
    Covers s rx t (merged lw s.kreg cand) := by
  unfold Machine.merged
  split
  · intro us hus
    obtain ⟨tr, hmem, hcur, hle⟩ := h us hus
    obtain ⟨b, hb, hat, hleast⟩ := exists_survivor lw (walkState_lt (Nat.two_pow_pos _) us) hmem hcur
    exact ⟨b, hb, hat, hleast.trans hle⟩
  · exact h

/-! The loop (R173). -/

/-- R173: the loop over the symbols that are left answers, with live trails that are walks of as many steps as there are
symbols and as near as any. -/
theorem exists_vitSymbols (l : Nat) {s : State} {c : VitCall} (htable : TableBuilt s) (htaps : s.taps.length = s.n)
    (hvit : s.vit = some c) (hrun : s.seq ≠ .idle) (hframe : FrameInv s c) (hl : c.ti + l = c.l)
    (hlive : LiveInv s c c.ti) (hcovers : Covers s c.rx c.ti c.live) :
    ∃ c' q, vitSymbols l s = .next { s with vit := some c', seq := q } ∧ q ≠ .idle ∧ c'.rx = c.rx ∧ c'.l = c.l ∧
      LiveInv s c' c.l ∧ Covers s c.rx c.l c'.live := by
  induction l generalizing s c with
  | zero =>
    have hend : c.ti = c.l := hl
    exact ⟨c, s.seq, by rw [← hvit]; rfl, hrun, rfl, rfl, hend ▸ hlive, hend ▸ hcovers⟩
  | succ l ih =>
    have hfit := symbol_fits hframe (t := c.ti) (by omega)
    obtain ⟨cand, hcand⟩ := branch_of_tableBuilt htable hlive ((c.rx.drop (c.ti * s.n)).take s.n)
    have hcandInv := candInv_of_branch htable htaps hfit hlive hcand
    have hcandCovers := hcovers.branch htable htaps hfit hcand
    rw [vitSymbols, execVitBranch_eq_next.mpr ⟨c, _, cand, hvit, symbolAt_of_le hfit, hcand, rfl⟩,
      andThen_running (by simp), execVitMerge_eq_next.mpr ⟨_, rfl, rfl⟩, andThen_running (vitNext_ne_idle _ _)]
    exact ih (c := { c with live := Machine.merged s.params.laterWins s.kreg cand, cand := [], ti := c.ti + 1 })
      htable htaps rfl (vitNext_ne_idle _ _) hframe (by change c.ti + 1 + l = c.l; omega)
      (hcandInv.liveInv_merged s.params.laterWins rfl rfl) (hcandCovers.merged s.params.laterWins)

/-! The end (R174 to R181). -/

/-- R160 after the loop: with a walk for a winner and a whole number of bytes before the tail, the decoding completes. -/
theorem vitFinish_of_winner {s : State} {c : VitCall} {w : Trail} {us : List Bit} (htable : TableBuilt s)
    (hvit : s.vit = some c) (hw : leastTrail false (trailsAt 0 c.live) = some w) (hpath : w.path = walkPath s.kreg 0 us)
    (hlen : us.length = c.l) (hlong : s.kreg ≤ c.l) (hbytes : (c.l - s.kreg) % 8 = 0) :
    vitFinish s = .next (s.endOperation .ok
      (.decoded (pack ((traceOf s.kreg us).take (c.l - s.kreg))) w.metric)) := by
  have hds : (traceOf s.kreg us).length = c.l := by rw [traceOf_length, hlen]
  refine andThen_eq_next.mpr (.inr ⟨_, execVitTerm_of_some hvit hw, by simp, ?_⟩)
  refine andThen_eq_next.mpr (.inr ⟨_, execVitTrace_eq_next.mpr
    ⟨_, w, _, rfl, rfl, tracedBits_of_path htable hpath hlen, rfl⟩, by simp, ?_⟩)
  refine andThen_eq_next.mpr (.inr ⟨_, execVitStrip_of_le rfl rfl (hds.symm ▸ hlong), by simp, ?_⟩)
  refine andThen_eq_next.mpr (.inr ⟨_, execVitPack_of_whole rfl rfl (by simpa [hlen] using hbytes), by simp, ?_⟩)
  exact execVitRet_eq_next.mpr ⟨_, _, _, rfl, rfl, rfl, by rw [hds]; rfl⟩

/-- R174, R182: the winner after a whole frame is a walk back to state 0, and no such walk is nearer. -/
theorem LiveInv.exists_nearest {s : State} {c : VitCall} {t : Nat} (hlive : LiveInv s c t)
    (hcovers : Covers s c.rx t c.live) (hframe : c.rx.length = t * s.n) :
    ∃ w us, leastTrail false (trailsAt 0 c.live) = some w ∧ w.path = walkPath s.kreg 0 us ∧ us.length = t ∧
      walkState s.kreg 0 us = 0 ∧ w.metric = hamming (walkCode s.kreg s.taps 0 us) c.rx ∧
      ∀ us' : List Bit, us'.length = t → walkState s.kreg 0 us' = 0 →
        w.metric ≤ hamming (walkCode s.kreg s.taps 0 us') c.rx := by
  obtain ⟨w, hw⟩ := hlive.exists_leastTrail_zero
  obtain ⟨hat, hleast⟩ := leastTrail_spec hw
  obtain ⟨hmem, hcur⟩ := mem_trailsAt.mp hat
  obtain ⟨-, -, -, us, hlen, hpath, hmetric⟩ := hlive.lt_of_mem hmem
  have hzero : walkState s.kreg 0 us = 0 := Option.some.inj ((current_of_walkPath hpath).symm.trans hcur)
  have hall : c.rx.take (t * s.n) = c.rx := List.take_of_length_le hframe.le
  rw [hall] at hmetric
  refine ⟨w, us, hw, hpath, hlen, hzero, hmetric, fun us' hlen' hzero' => ?_⟩
  obtain ⟨tr, htr, hcur', hle⟩ := hcovers us' hlen'
  rw [hall] at hle
  rw [hzero'] at hcur'
  exact (hleast tr (mem_trailsAt.mpr ⟨htr, hcur'⟩)).trans hle

/-- R31, R91: a whole frame is its symbols. -/
theorem WholeFrame.length_eq {s : State} {rx : List Bit} (h : WholeFrame s rx) : rx.length = symbols s rx * s.n :=
  (Nat.div_mul_cancel (Nat.dvd_of_mod_eq_zero h.1)).symm

/-- R160, R182: what VIT.DECODE of a whole frame answers on a ready engine: what is traced from a nearest path, without the
tail, and the path's distance. -/
theorem exists_execVitDecode {s : State} {rx : List Bit} (hs : Ready s) (hwf : (Instr.vitDecode rx).wf s.params = true)
    (hwhole : WholeFrame s rx) :
    ∃ us : List Bit, us.length = symbols s rx ∧ walkState s.kreg 0 us = 0 ∧
      (∀ us' : List Bit, us'.length = symbols s rx → walkState s.kreg 0 us' = 0 →
        hamming (walkCode s.kreg s.taps 0 us) rx ≤ hamming (walkCode s.kreg s.taps 0 us') rx) ∧
      execVitDecode rx s = .next (s.endOperation .ok
        (.decoded (pack ((traceOf s.kreg us).take (symbols s rx - s.kreg)))
          (hamming (walkCode s.kreg s.taps 0 us) rx))) := by
  obtain ⟨⟨hcfg, htable, -⟩, hidle, hvalid, hready, hwide⟩ := hs
  have hframe := hwhole.length_eq
  obtain ⟨hsymbols, hlong, hbytes⟩ := hwhole
  obtain ⟨-, htaps, -⟩ := hcfg hvalid
  obtain ⟨-, hbuilt⟩ := htable.2 hready
  obtain ⟨c, q, hloop, hq, rfl, hl, hlive, hcovers⟩ := exists_vitSymbols (symbols s rx)
    (s := { s.started (.vitDecode rx) with vit := some (VitCall.start s.n rx), seq := vitNext (symbols s rx) 0 })
    (c := VitCall.start s.n rx) hbuilt htaps rfl (vitNext_ne_idle _ _) hframe (Nat.zero_add _)
    (liveInv_initial _ rfl) (covers_initial _ _)
  obtain ⟨w, us, hw, hpath, hlen, hzero, hmetric, hleast⟩ := LiveInv.exists_nearest hlive hcovers hframe
  have hfinish := vitFinish_of_winner (s := { s.started (.vitDecode c.rx) with vit := some c, seq := q }) hbuilt rfl hw
    hpath (hlen.trans hl.symm) (hl.symm ▸ hlong) (hl.symm ▸ hbytes)
  rw [hl, hmetric] at hfinish
  refine ⟨us, hlen, hzero, hmetric ▸ hleast, ?_⟩
  refine andThen_eq_next.mpr (.inr ⟨_, start_of_ready (refusalOf_vitDecode.mpr ⟨hidle, hvalid, hready, hwf, hwide⟩),
    started_ne_idle rfl s, ?_⟩)
  refine andThen_eq_next.mpr (.inr ⟨_, execVitFrame_of_whole hsymbols, by simp, ?_⟩)
  refine andThen_eq_next.mpr (.inr ⟨_, execVitInit_eq_next.mpr ⟨_, rfl, rfl⟩, vitNext_ne_idle _ _, ?_⟩)
  exact andThen_eq_next.mpr (.inr ⟨_, hloop, hq, hfinish⟩)

/-- Settles O50: the walk the winner is made of is a nearest one, and for K >= 1 its traced bits are its input bits. -/
theorem decodeFindsNearestPath : Obligations.DecodeFindsNearestPath := by
  intro s rx hs hwf hwhole
  obtain ⟨us, hlen, hzero, hleast, hdecode⟩ := exists_execVitDecode hs hwf hwhole
  refine ⟨_, _, us, hdecode, hlen, hzero, rfl, hleast, fun hk => ?_⟩
  rw [traceOf_of_pos hk]

/-! K = 0 (R184 (f)). -/

theorem walkState_kZero (us : List Bit) : walkState 0 0 us = 0 :=
  Nat.lt_one_iff.mp (walkState_lt (Nat.two_pow_pos 0) us)

/-- R118 (c): with no register every tap vector is 1. -/
theorem taps_of_kZero {s : State} (hcfg : CfgInv s) (hvalid : s.cfgValid = true) (hk : s.kreg = 0) :
    s.taps = List.replicate s.n 1 := by
  obtain ⟨-, hlen, htaps, -⟩ := hcfg hvalid
  refine List.eq_replicate_iff.mpr ⟨hlen, fun tap htap => ?_⟩
  have := htaps tap htap
  rw [hk] at this
  omega

/-- R184 (f): the code repeats each input bit n times. -/
theorem outputGroup_kZero (n st : Nat) (d : Bit) :
    outputGroup 0 (List.replicate n 1) st d = List.replicate n d := by
  simp [outputGroup, outbit, xorSum]

theorem hamming_replicate (d : Bit) (y : List Bit) : hamming (List.replicate y.length d) y = y.count (!d) := by
  induction y with
  | nil => rfl
  | cons b y ih =>
    rw [List.length_cons, List.replicate_succ, hamming_cons, ih, List.count_cons]
    cases d <;> cases b <;> simp [Nat.add_comm]

/-- R184 (f): the lesser of a symbol's count of ones and its count of zeros, over `l` symbols of n bits. -/
def lesserCounts (n l : Nat) (rx : List Bit) : Nat :=
  ((List.range l).map fun t =>
    min (((rx.drop (t * n)).take n).count true) (((rx.drop (t * n)).take n).count false)).sum

theorem lesserCounts_succ (n l : Nat) (rx : List Bit) :
    lesserCounts n (l + 1) rx =
      min ((rx.take n).count true) ((rx.take n).count false) + lesserCounts n l (rx.drop n) := by
  simp [lesserCounts, List.range_succ_eq_map, Function.comp_def, Nat.succ_mul, Nat.add_comm]

/-- R184 (f): the distance of a walk, its first symbol apart. -/
theorem hamming_walkCode_kZero {n : Nat} {rx : List Bit} (hn : n ≤ rx.length) (st : Nat) (d : Bit) (us : List Bit) :
    hamming (walkCode 0 (List.replicate n 1) st (d :: us)) rx =
      (rx.take n).count (!d) + hamming (walkCode 0 (List.replicate n 1) (nextState 0 st d) us) (rx.drop n) := by
  have hlen : (rx.take n).length = n := List.length_take_of_le hn
  have hfirst := hamming_replicate d (rx.take n)
  rw [hlen] at hfirst
  conv_lhs => rw [← List.take_append_drop n rx]
  rw [walkCode, outputGroup_kZero, hamming_append (by simp [hlen]), hfirst]

theorem lesserCounts_le {n : Nat} {us rx : List Bit} (h : rx.length = us.length * n) (st : Nat) :
    lesserCounts n us.length rx ≤ hamming (walkCode 0 (List.replicate n 1) st us) rx := by
  induction us generalizing rx st with
  | nil => exact Nat.zero_le _
  | cons d us ih =>
    rw [List.length_cons, Nat.succ_mul] at h
    rw [List.length_cons, lesserCounts_succ, hamming_walkCode_kZero (by omega)]
    refine Nat.add_le_add ?_ (ih (by rw [List.length_drop]; omega) _)
    cases d
    · exact Nat.min_le_left _ _
    · exact Nat.min_le_right _ _

theorem exists_lesserCounts {n : Nat} (l : Nat) {rx : List Bit} (h : rx.length = l * n) (st : Nat) :
    ∃ us : List Bit, us.length = l ∧ hamming (walkCode 0 (List.replicate n 1) st us) rx = lesserCounts n l rx := by
  induction l generalizing rx st with
  | zero => exact ⟨[], rfl, by simp [walkCode, hamming, lesserCounts]⟩
  | succ l ih =>
    rw [Nat.succ_mul] at h
    obtain ⟨d, hd⟩ : ∃ d, (rx.take n).count (!d) = min ((rx.take n).count true) ((rx.take n).count false) := by
      rcases Nat.le_total ((rx.take n).count true) ((rx.take n).count false) with hle | hle
      · exact ⟨false, (Nat.min_eq_left hle).symm⟩
      · exact ⟨true, (Nat.min_eq_right hle).symm⟩
    obtain ⟨us, hlen, hrest⟩ := ih (rx := rx.drop n) (by rw [List.length_drop]; omega) (nextState 0 st d)
    exact ⟨d :: us, by rw [List.length_cons, hlen], by rw [hamming_walkCode_kZero (by omega), lesserCounts_succ, hd, hrest]⟩

/-- R55: zero bits pack to zero bytes. -/
theorem pack_zeros {l : Nat} (h : l % 8 = 0) : pack (List.replicate l false) = List.replicate (l / 8) 0#8 := by
  have hzeros : unpack (List.replicate (l / 8) 0#8) = List.replicate l false := by
    refine List.eq_replicate_iff.mpr ⟨?_, by simp [unpack, unpackByte]⟩
    rw [unpack_length, List.length_replicate]
    omega
  rw [← hzeros, pack_unpack]

/-- Settles O54: all walks end at state 0, so the nearest one takes the nearer bit at every symbol. -/
theorem decodeAtKZero : Obligations.DecodeAtKZero := by
  intro s rx hs hwf hwhole hk
  obtain ⟨us, hlen, -, hleast, hdecode⟩ := exists_execVitDecode hs hwf hwhole
  obtain ⟨⟨hcfg, -, -⟩, -, hvalid, -, -⟩ := hs
  have hframe := hwhole.length_eq
  obtain ⟨-, -, hbytes⟩ := hwhole
  rw [taps_of_kZero hcfg hvalid hk, hk] at hleast hdecode
  rw [hk, Nat.sub_zero] at hbytes
  have hm : hamming (walkCode 0 (List.replicate s.n 1) 0 us) rx = lesserCounts s.n (symbols s rx) rx := by
    obtain ⟨us', hlen', hdist⟩ := exists_lesserCounts (symbols s rx) hframe 0
    refine Nat.le_antisymm (hdist ▸ hleast us' hlen' (walkState_kZero us')) ?_
    rw [← hlen] at hframe ⊢
    exact lesserCounts_le hframe 0
  have hbits : (traceOf 0 us).take (symbols s rx - 0) = List.replicate (symbols s rx) false := by
    simp [hlen]
  rw [hbits, pack_zeros hbytes, hm] at hdecode
  exact hdecode

end Sys2Proof.Machine
end

section
/-! PROOFS. The Hamming distance (R14, R209): it counts the set bits of the exclusive or of two sequences of equal length. -/

namespace Sys2Proof.Machine

theorem hamming_eq_count (as bs : List Bit) : hamming as bs = (List.zipWith Bool.xor as bs).count true := by
  induction as generalizing bs with
  | nil => rfl
  | cons a as ih =>
    cases bs with
    | nil => rfl
    | cons b bs =>
      rw [hamming_cons, ih, List.zipWith_cons_cons, List.count_cons, Nat.add_comm]
      cases Bool.xor a b <;> rfl

theorem hamming_comm (as bs : List Bit) : hamming as bs = hamming bs as := by
  rw [hamming_eq_count, hamming_eq_count, List.zipWith_comm_of_comm Bool.xor_comm]

theorem hamming_self (as : List Bit) : hamming as as = 0 := by
  induction as with
  | nil => rfl
  | cons a as ih => simp [hamming_cons, ih]

theorem eq_of_hamming_eq_zero {as bs : List Bit} (hlen : as.length = bs.length) (h : hamming as bs = 0) : as = bs := by
  induction as generalizing bs with
  | nil => exact (List.length_eq_zero_iff.mp hlen.symm).symm
  | cons a as ih =>
    cases bs with
    | nil => cases hlen
    | cons b bs =>
      obtain ⟨hab, hrest⟩ := Nat.add_eq_zero_iff.mp (hamming_cons a b as bs ▸ h)
      have hsame : a = b := by simpa using hab
      rw [hsame, ih (Nat.succ.inj hlen) hrest]

/-- R14: the positions at which two sequences differ. -/
theorem hamming_eq_countP_range {as bs : List Bit} (hlen : as.length = bs.length) :
    hamming as bs = (List.range as.length).countP fun i => as[i]? != bs[i]? := by
  induction as generalizing bs with
  | nil => rfl
  | cons a as ih =>
    cases bs with
    | nil => cases hlen
    | cons b bs =>
      rw [hamming_cons, ih (Nat.succ.inj hlen), List.length_cons, List.range_succ_eq_map, List.countP_cons,
        List.countP_map, Nat.add_comm]
      cases a <;> cases b <;> simp [Function.comp_def]

/-! Packed words (R85, R209). -/

/-- A register has as many set bits as its state word. -/
theorem popcount_regState (bits : List Bit) : popcount (regState bits) = bits.count true := by
  rw [popcount_eq_countP (regState_lt bits)]
  induction bits with
  | nil => rfl
  | cons b bits ih =>
    rw [List.length_cons, List.range_succ_eq_map, List.countP_cons, List.countP_map, regState_cons, List.count_cons, ← ih]
    simp [Function.comp_def]

theorem regState_xor {as bs : List Bit} (hlen : as.length = bs.length) :
    regState as ^^^ regState bs = regState (List.zipWith Bool.xor as bs) := by
  refine Nat.eq_of_testBit_eq fun j => ?_
  rw [Nat.testBit_xor, regState_testBit, regState_testBit, regState_testBit]
  by_cases hj : j < as.length <;> simp [hj, hlen ▸ hj]

theorem popcount_packGroup_xor {as bs : List Bit} (hlen : as.length = bs.length) :
    popcount (packGroup as ^^^ packGroup bs) = hamming as bs := by
  rw [packGroup_eq_regState, packGroup_eq_regState, regState_xor (by simpa using hlen), ← List.reverse_zipWith hlen,
    popcount_regState, List.count_reverse, hamming_eq_count]

/-- Settles O38: the distance as a count of positions and as a count of set bits; table entries have one bit per generator
and symbols are n bits long. -/
theorem hammingCountsDifferences : Obligations.HammingCountsDifferences := by
  refine ⟨fun as bs hlen => ⟨hamming_le_length as bs, ⟨eq_of_hamming_eq_zero hlen, ?_⟩, hamming_comm as bs,
    (popcount_packGroup_xor hlen).symm, ?_⟩, fun s st t d rx y hcfg hvalid hy => ?_⟩
  · rintro rfl
    exact hamming_self as
  · rw [hamming_eq_countP_range hlen, List.countP_eq_length_filter]
  · obtain ⟨-, htaps, -⟩ := hcfg hvalid
    exact ⟨(outputGroup_length s.kreg s.taps st d).trans htaps, (symbolAt_eq.mp hy).2⟩

end Sys2Proof.Machine
end

section
/-! PROOFS. The laws of the codec (R200 to R206): the length of an encoding, the decoding of any stream of such a length, and
that an encoding is made by one walk only; hence decoding an encoding gives the bytes back. -/

namespace Sys2Proof.Machine

/-! Encoding on a ready engine (R202, R254). -/

/-- R202: one output group for every input bit. -/
theorem walkCode_inputBits_length {s : State} (htaps : s.taps.length = s.n) (bytes : List Byte) :
    (walkCode s.kreg s.taps 0 (inputBits s.kreg bytes)).length = s.n * (8 * bytes.length + s.kreg) := by
  rw [walkCode_length, inputBits_length, htaps, Nat.mul_comm]

/-- Settles O30: ENC.ENCODE answers the code of a walk over the unpacked bytes and the K flush bits. -/
theorem lengthLaw : Obligations.LengthLaw := by
  intro s bytes hcfg hidle hvalid hwf
  obtain ⟨-, htaps, -⟩ := hcfg hvalid
  exact ⟨_, execEncEncode_of_ready (refusalOf_encEncode.mpr ⟨hidle, hvalid, hwf⟩),
    walkCode_inputBits_length htaps bytes⟩

/-- R254: the end of an encoding or a decoding leaves a ready engine ready. -/
theorem Ready.endOperation {s : State} (h : Ready s) (st : Status) (r : Result) : Ready (s.endOperation st r) := by
  obtain ⟨⟨hcfg, htable, -⟩, -, hvalid, hready, hwide⟩ := h
  exact ⟨engineInv_endOperation hcfg htable st r, rfl, hvalid, hready, hwide⟩

/-- R254: ENC.ENCODE on a ready engine. -/
theorem exec_encEncode_of_ready {s : State} {bytes : List Byte} (hs : Ready s)
    (hwf : (Instr.encEncode bytes).wf s.params = true) :
    exec (.encEncode bytes) s =
      .next (s.endOperation .ok (.code (walkCode s.kreg s.taps 0 (inputBits s.kreg bytes)))) := by
  obtain ⟨-, hidle, hvalid, -, -⟩ := hs
  exact execEncEncode_of_ready (refusalOf_encEncode.mpr ⟨hidle, hvalid, hwf⟩)

/-- R21 to R23: the configuration of a ready engine. -/
theorem Ready.cfg {s : State} (h : Ready s) :
    1 ≤ s.n ∧ s.taps.length = s.n ∧ (∀ tap ∈ s.taps, 0 < tap ∧ tap < 2 ^ (s.kreg + 1)) ∧
      ∃ tap ∈ s.taps, tap.testBit s.kreg = true := by
  obtain ⟨⟨hcfg, -, -⟩, -, hvalid, -, -⟩ := h
  exact hcfg hvalid

/-! Decoding a stream of an encoding's length (R59, R60, R203). -/

/-- R91, R202: the symbols of a stream as long as the encoding of `m` bytes, and that it is a whole frame. -/
theorem wholeFrame_of_length {s : State} {rx : List Bit} {m : Nat} (hn : 0 < s.n)
    (hlen : rx.length = s.n * (8 * m + s.kreg)) : symbols s rx = 8 * m + s.kreg ∧ WholeFrame s rx := by
  have hsymbols : symbols s rx = 8 * m + s.kreg := by rw [symbols, hlen, Nat.mul_div_cancel_left _ hn]
  refine ⟨hsymbols, ?_, ?_, ?_⟩
  · rw [hlen, Nat.mul_mod_right]
  · rw [hsymbols]
    exact Nat.le_add_left _ _
  · rw [hsymbols, Nat.add_sub_cancel, Nat.mul_mod_right]

/-- R203, R206: after an operation that ended OK, a stream as long as the encoding of `m` bytes is decoded from a path back
to state 0, and no encoding of `m` bytes is nearer to the stream than that path. -/
theorem exists_decode_of_length {s : State} {rx : List Bit} {m : Nat} (hs : Ready s) (r : Result)
    (hlen : rx.length = s.n * (8 * m + s.kreg)) (hwf : (Instr.vitDecode rx).wf s.params = true) :
    ∃ us : List Bit, us.length = 8 * m + s.kreg ∧ walkState s.kreg 0 us = 0 ∧
      (∀ bytes : List Byte, bytes.length = m → hamming (walkCode s.kreg s.taps 0 us) rx ≤
        hamming (walkCode s.kreg s.taps 0 (inputBits s.kreg bytes)) rx) ∧
      exec (.vitDecode rx) (s.endOperation .ok r) = .next (s.endOperation .ok
        (.decoded (pack ((traceOf s.kreg us).take (8 * m))) (hamming (walkCode s.kreg s.taps 0 us) rx))) := by
  obtain ⟨hn, -, -⟩ := hs.cfg
  obtain ⟨hsymbols, hwhole⟩ := wholeFrame_of_length (s := s.endOperation .ok r) hn hlen
  obtain ⟨us, hus, hzero, hleast, hdecode⟩ := exists_execVitDecode (hs.endOperation .ok r) hwf hwhole
  rw [hsymbols] at hus hleast hdecode
  rw [Nat.add_sub_cancel] at hdecode
  exact ⟨us, hus, hzero, fun bytes hbytes =>
    hleast _ (by rw [inputBits_length, hbytes]; rfl) (walkState_inputBits _ _), hdecode⟩

/-- R55: what is traced packs to as many bytes as were encoded. -/
theorem pack_traceOf_length {k m : Nat} {us : List Bit} (hus : us.length = 8 * m + k) :
    (pack ((traceOf k us).take (8 * m))).length = m := by
  rw [pack_length, List.length_take, traceOf_length, hus]
  omega

/-- Settles O52: the encoding is one of the paths that the decoded one is no farther than. -/
theorem robustDecode : Obligations.RobustDecode := by
  intro s bytes rx hs henc hlen hdec
  obtain ⟨us, hus, -, hleast, hdecode⟩ := exists_decode_of_length hs _ hlen hdec
  exact ⟨_, _, _, _, _, exec_encEncode_of_ready hs henc, rfl, hdecode, rfl, rfl, pack_traceOf_length hus,
    hleast bytes rfl⟩

/-! An encoding is made by one walk only (R149, R200). -/

theorem xorSum_singleton (b : Bit) : xorSum [b] = b := Bool.xor_false b

/-- R149, R112: the two edges into a state differ in the oldest bit of their windows, and so in the output bit of a
generator whose delay-K tap is set. -/
theorem window_eq_of_edges {k tap st st' : Nat} {d d' : Bit} (htop : tap.testBit k = true) (hst : st < 2 ^ k)
    (hst' : st' < 2 ^ k) (hnext : nextState k st d = nextState k st' d')
    (hout : outbit k tap st d = outbit k tap st' d') : window st d = window st' d' := by
  have hlow : ∀ j < k, (window st d).testBit j = (window st' d').testBit j := fun j hj => by
    simpa [nextState_testBit, hj] using congrArg (Nat.testBit · j) hnext
  have hsum : ((List.range k).map fun j => (window st d).testBit j && tap.testBit j) =
      (List.range k).map fun j => (window st' d').testBit j && tap.testBit j :=
    List.map_congr_left fun j hj => by rw [hlow j (List.mem_range.mp hj)]
  have htopBit : (window st d).testBit k = (window st' d').testBit k := by
    simpa [outbit_eq_window, List.range_succ, xorSum_append, xorSum_singleton, hsum, htop] using hout
  refine Nat.eq_of_testBit_eq fun j => ?_
  rcases lt_trichotomy j k with hj | rfl | hj
  · exact hlow j hj
  · exact htopBit
  · have habove : ∀ {w : Nat}, w < 2 ^ (k + 1) → w.testBit j = false := fun hw =>
      Nat.testBit_lt_two_pow (hw.trans_le (Nat.pow_le_pow_right (by omega) hj))
    rw [habove (window_lt hst d), habove (window_lt hst' d')]

/-- R148, R149: two walks from state 0 of the same length, to the same state, with the same code are the same walk. -/
theorem eq_of_walkCode_eq {k : Nat} {taps : List Nat} (htop : ∃ tap ∈ taps, tap.testBit k = true) {us vs : List Bit}
    (hlen : us.length = vs.length) (hstate : walkState k 0 us = walkState k 0 vs)
    (hcode : walkCode k taps 0 us = walkCode k taps 0 vs) : us = vs := by
  induction us using List.reverseRecOn generalizing vs with
  | nil => exact (List.length_eq_zero_iff.mp hlen.symm).symm
  | append_singleton us d ih =>
    obtain ⟨vs, e, rfl⟩ := (List.eq_nil_or_concat' vs).resolve_left (by rintro rfl; simp at hlen)
    have hlen' : us.length = vs.length := by simpa using hlen
    simp only [walkCode_append, walkState_append, walkCode, walkState, List.append_nil] at hstate hcode
    obtain ⟨hinit, hlast⟩ := List.append_inj hcode (by simp [hlen'])
    obtain ⟨tap, htap, hbit⟩ := htop
    have hpos : 0 < 2 ^ k := Nat.two_pow_pos k
    obtain ⟨hprev, rfl⟩ := window_inj <| window_eq_of_edges hbit (walkState_lt hpos us) (walkState_lt hpos vs) hstate
      (List.map_inj_left.mp hlast tap htap)
    rw [ih hlen' hprev hinit]

/-- Settles O51: the nearest path to an encoding has its code, so for K >= 1 what is traced is what was encoded. -/
theorem roundTrip : Obligations.RoundTrip := by
  intro s bytes hs hk hwf hfits
  have hencode := exec_encEncode_of_ready hs hwf
  obtain ⟨-, htaps, -, htop⟩ := hs.cfg
  have hlen := walkCode_inputBits_length htaps bytes
  obtain ⟨us, hus, hzero, hleast, hdecode⟩ :=
    exists_decode_of_length hs _ hlen (by simpa [Instr.wf, hlen] using hfits)
  have hdist : hamming (walkCode s.kreg s.taps 0 us) (walkCode s.kreg s.taps 0 (inputBits s.kreg bytes)) = 0 := by
    simpa [hamming_self] using hleast bytes rfl
  have hinput : us = inputBits s.kreg bytes := by
    have hlenUs : us.length = (inputBits s.kreg bytes).length := by rw [hus, inputBits_length]
    exact eq_of_walkCode_eq htop hlenUs (hzero.trans (walkState_inputBits _ _).symm)
      (eq_of_hamming_eq_zero (by simp [hlenUs]) hdist)
  have hbytes : pack ((traceOf s.kreg us).take (8 * bytes.length)) = bytes := by
    rw [traceOf_of_pos hk, hinput, inputBits, List.take_left' (unpack_length bytes), pack_unpack]
  rw [hdist, hbytes] at hdecode
  refine ⟨_, _, _, hencode, rfl, hdecode, ?_, rfl, rfl⟩
  rw [runEncodeDecode, hencode, whenOk_next_ok rfl]
  exact hdecode

/-! The empty frame (R205). -/

theorem outputGroup_zero (k : Nat) (taps : List Nat) : outputGroup k taps 0 false = List.replicate taps.length false := by
  have hzero : ∀ tap, outbit k tap 0 false = false := fun tap => by simpa using outbit_xor k tap 0 0 false false
  simp [outputGroup, hzero]

theorem walkCode_zeros (k : Nat) (taps : List Nat) (m : Nat) :
    walkCode k taps 0 (List.replicate m false) = List.replicate (m * taps.length) false := by
  induction m with
  | zero => simp [walkCode]
  | succ m ih =>
    have hstay : nextState k 0 false = 0 := Nat.zero_mod _
    rw [List.replicate_succ, walkCode, hstay, ih, outputGroup_zero, List.replicate_append_replicate, Nat.succ_mul,
      Nat.add_comm]

/-- Settles O53: the flush bits alone keep the encoder at state 0, and no byte is traced before the tail. -/
theorem emptyFrame : Obligations.EmptyFrame := by
  intro s hs hfits
  obtain ⟨-, htaps, -⟩ := hs.cfg
  have hcode : walkCode s.kreg s.taps 0 (inputBits s.kreg []) = List.replicate (s.kreg * s.n) false :=
    htaps ▸ walkCode_zeros s.kreg s.taps s.kreg
  have hencode := exec_encEncode_of_ready hs (bytes := []) (by cases h : s.params.bMax <;> simp [Instr.wf, within, h])
  obtain ⟨us, -, -, hleast, hdecode⟩ := exists_decode_of_length hs (m := 0)
    (rx := List.replicate (s.kreg * s.n) false) _ (by simp [Nat.mul_comm]) (by simpa [Instr.wf] using hfits)
  have hdist : hamming (walkCode s.kreg s.taps 0 us) (List.replicate (s.kreg * s.n) false) = 0 := by
    simpa [hcode, hamming_self] using hleast [] rfl
  rw [hdist] at hdecode
  exact ⟨_, _, hcode ▸ hencode, rfl, hdecode, rfl, rfl⟩

end Sys2Proof.Machine
end

section
/-! PROOFS. Host operations as functions (R201): each answers from its operands and the persistent state it may read (R39).
For VIT.DECODE two runs are kept side by side: its micro-operations read the decoder's own state, the configuration and the
table, and nothing else that an engine holds. -/

namespace Sys2Proof.Machine

/-! Two decodings side by side. -/

/-- The persistent state that the micro-operations of VIT read (R39). -/
structure SameTrellis (s s' : State) : Prop where
  params : s'.params = s.params
  n : s'.n = s.n
  kreg : s'.kreg = s.kreg
  tt : s'.tt = s.tt

/-- Two engines that VIT cannot tell apart: they agree on all its micro-operations read and, once the operation has ended, on
what it reported. -/
structure DecodesAlike (s s' : State) : Prop extends SameTrellis s s' where
  seq : s'.seq = s.seq
  vit : s'.vit = s.vit
  report : s.seq = .idle → s'.status = s.status ∧ s'.result = s.result

/-- Where the first run goes on or ends, the second does so alike. -/
def AnswersAlike (o o' : Out) : Prop := ∀ t, o = .next t → ∃ t', o' = .next t' ∧ DecodesAlike t t'

/-- A part of a decoding that reads no more than VIT may. -/
def ReadsDecoding (f : State → Out) : Prop := ∀ s s', DecodesAlike s s' → AnswersAlike (f s) (f s')

theorem answersAlike_next {s s' : State} (h : DecodesAlike s s') : AnswersAlike (.next s) (.next s') := fun _ ht =>
  Host.Outcome.next.inj ht ▸ ⟨s', rfl, h⟩

theorem answersAlike_fault (e : Fault) (o : Out) : AnswersAlike (.fault e) o := fun _ ht => by cases ht

theorem answersAlike_andThen {o o' : Out} {f : State → Out} (ho : AnswersAlike o o') (hf : ReadsDecoding f) :
    AnswersAlike (andThen o f) (andThen o' f) := by
  intro t ht
  obtain ⟨hu, hidle⟩ | ⟨u, hu, hrun, hft⟩ := andThen_eq_next.mp ht
  · obtain ⟨t', rfl, halike⟩ := ho t hu
    exact ⟨t', andThen_idle (halike.seq.trans hidle) f, halike⟩
  · obtain ⟨u', rfl, halike⟩ := ho u hu
    rw [andThen_running (halike.seq ▸ hrun)]
    exact hf u u' halike t hft

theorem readsDecoding_andThen {g f : State → Out} (hg : ReadsDecoding g) (hf : ReadsDecoding f) :
    ReadsDecoding fun s => andThen (g s) f := fun s s' h => answersAlike_andThen (hg s s' h) hf

theorem answersAlike_orFault {α : Type} {v v' : Except Fault α} (hv : v' = v) {f f' : α → Out}
    (h : ∀ a, AnswersAlike (f a) (f' a)) : AnswersAlike (orFault v f) (orFault v' f') := by
  subst hv
  cases v' with
  | ok a => exact h a
  | error e => exact answersAlike_fault e _

theorem answersAlike_ite {p p' : Prop} [Decidable p] [Decidable p'] (hp : p' ↔ p) {a a' b b' : Out}
    (ha : AnswersAlike a a') (hb : AnswersAlike b b') : AnswersAlike (if p then a else b) (if p' then a' else b') := by
  simp only [hp]
  split
  · exact ha
  · exact hb

section
variable {s s' : State}

/-- R253: an operation that ends reports the same on both. -/
theorem SameTrellis.ends (h : SameTrellis s s') (st : Status) (r : Result) :
    AnswersAlike (.next (s.endOperation st r)) (.next (s'.endOperation st r)) :=
  answersAlike_next ⟨⟨h.params, h.n, h.kreg, h.tt⟩, rfl, rfl, fun _ => ⟨rfl, rfl⟩⟩

/-- A decoding that goes on is at the same phase with the same call-scoped state on both. -/
theorem SameTrellis.goesOn (h : SameTrellis s s') {c c' : VitCall} (hc : c' = c) {q : Seq} (hq : q ≠ .idle) :
    AnswersAlike (.next { s with vit := some c, seq := q }) (.next { s' with vit := some c', seq := q }) :=
  answersAlike_next ⟨⟨h.params, h.n, h.kreg, h.tt⟩, rfl, congrArg some hc, fun hidle => absurd hidle hq⟩

/-! What a micro-operation of VIT reads. -/

theorem DecodesAlike.vitCall (h : DecodesAlike s s') : s'.vitCall = s.vitCall := by
  rw [State.vitCall, h.vit, State.vitCall]

theorem SameTrellis.readTable (h : SameTrellis s s') : s'.readTable = s.readTable :=
  funext₂ (readTable_congr h.kreg h.tt)

theorem SameTrellis.extend (h : SameTrellis s s') (y : List Bit) (tr : Trail) (d : Bit) :
    extend s' y tr d = Machine.extend s y tr d := by
  rw [Machine.extend, h.readTable, Machine.extend]

theorem SameTrellis.branch (h : SameTrellis s s') (y : List Bit) (live : List Trail) :
    branch s' y live = Machine.branch s y live := by
  induction live with
  | nil => rfl
  | cons tr live ih => rw [Machine.branch, h.extend, h.extend, ih, Machine.branch]

theorem SameTrellis.tracedBit (h : SameTrellis s s') (a b : Nat) : tracedBit s' a b = Machine.tracedBit s a b := by
  rw [Machine.tracedBit, h.readTable, Machine.tracedBit]

theorem SameTrellis.tracedBits (h : SameTrellis s s') (l : Nat) (path : List Nat) :
    tracedBits s' l path = Machine.tracedBits s l path := by
  induction l generalizing path with
  | zero => rfl
  | succ l ih =>
    match path with
    | [] | [_] => rfl
    | a :: b :: path => rw [Machine.tracedBits, h.tracedBit, ih, Machine.tracedBits]

end

/-! The micro-operations of VIT. -/

theorem answersAlike_vitFrame (rx : List Bit) {s s' : State} (h : SameTrellis s s') :
    AnswersAlike (execVitFrame rx s) (execVitFrame rx s') :=
  answersAlike_ite (by rw [h.n]) (h.ends _ _) (h.goesOn (by rw [h.n]) (by simp))

theorem readsDecoding_vitInit : ReadsDecoding execVitInit := fun _ _ h =>
  answersAlike_orFault h.vitCall fun _ => h.goesOn rfl (vitNext_ne_idle _ _)

theorem readsDecoding_vitBranch : ReadsDecoding execVitBranch := fun s s' h =>
  answersAlike_orFault h.vitCall fun c => by
    have hsymbol : symbolAt s'.n c.rx c.ti = symbolAt s.n c.rx c.ti := by rw [h.n]
    rw [hsymbol]
    cases symbolAt s.n c.rx c.ti with
    | none => exact answersAlike_fault _ _
    | some y => exact answersAlike_orFault (h.branch y c.live) fun _ => h.goesOn rfl (by simp)

theorem readsDecoding_vitMerge : ReadsDecoding execVitMerge := fun _ _ h =>
  answersAlike_orFault h.vitCall fun _ => h.goesOn (by rw [h.params, h.kreg]) (vitNext_ne_idle _ _)

theorem readsDecoding_vitTerm : ReadsDecoding execVitTerm := fun _ _ h =>
  answersAlike_orFault h.vitCall fun c => by
    cases leastTrail false (trailsAt 0 c.live) with
    | none => exact h.ends _ _
    | some w => exact h.goesOn rfl (by simp)

theorem readsDecoding_vitTrace : ReadsDecoding execVitTrace := fun _ _ h =>
  answersAlike_orFault h.vitCall fun c => answersAlike_orFault rfl fun w =>
    answersAlike_orFault (h.tracedBits c.l w.path) fun _ => h.goesOn rfl (by simp)

theorem readsDecoding_vitStrip : ReadsDecoding execVitStrip := fun _ _ h =>
  answersAlike_orFault h.vitCall fun _ => answersAlike_orFault rfl fun _ =>
    answersAlike_ite (by rw [h.kreg]) (h.ends _ _) (h.goesOn (by rw [h.kreg]) (by simp))

theorem readsDecoding_vitPack : ReadsDecoding execVitPack := fun _ _ h =>
  answersAlike_orFault h.vitCall fun _ => answersAlike_orFault rfl fun _ =>
    answersAlike_ite .rfl (h.ends _ _) (h.goesOn rfl (by simp))

theorem readsDecoding_vitRet : ReadsDecoding execVitRet := fun _ _ h =>
  answersAlike_orFault h.vitCall fun _ => answersAlike_orFault rfl fun _ => answersAlike_orFault rfl fun _ => h.ends _ _

/-! VIT.DECODE run whole. -/

theorem readsDecoding_vitSymbols (l : Nat) : ReadsDecoding (vitSymbols l) := by
  induction l with
  | zero => exact fun _ _ => answersAlike_next
  | succ l ih => exact readsDecoding_andThen readsDecoding_vitBranch (readsDecoding_andThen readsDecoding_vitMerge ih)

theorem readsDecoding_vitFinish : ReadsDecoding vitFinish :=
  readsDecoding_andThen readsDecoding_vitTerm <| readsDecoding_andThen readsDecoding_vitTrace <|
  readsDecoding_andThen readsDecoding_vitStrip <| readsDecoding_andThen readsDecoding_vitPack readsDecoding_vitRet

/-- R161, R252: whatever call-scoped state is left from before, VIT.FRAME replaces it. -/
theorem answersAlike_execVitDecode {rx : List Bit} {s s' : State} (h : SameTrellis s s')
    (hs : s.refusalOf (.vitDecode rx) = none) (hs' : s'.refusalOf (.vitDecode rx) = none) :
    AnswersAlike (execVitDecode rx s) (execVitDecode rx s') := by
  unfold execVitDecode
  rw [start_of_ready hs, start_of_ready hs', andThen_running (started_ne_idle rfl s),
    andThen_running (started_ne_idle rfl s'), h.n]
  refine answersAlike_andThen (answersAlike_vitFrame rx ⟨h.params, h.n, h.kreg, h.tt⟩) ?_
  exact readsDecoding_andThen readsDecoding_vitInit <|
    readsDecoding_andThen (readsDecoding_vitSymbols _) readsDecoding_vitFinish

/-! The host operations. -/

/-- R201 of one operation whose first run ended in `t`: what the second run ends in as well. -/
def EndsAs (i : Instr) (s' t : State) : Prop :=
  ∃ t', exec i s' = .next t' ∧ t'.status = t.status ∧ t'.result = t.result ∧
    (t.status = .ok → t'.n = t.n ∧ t'.kreg = t.kreg ∧ t'.taps = t.taps ∧ t'.cfgValid = t.cfgValid ∧
      (i.op = .cfgBuild ∨ i.op = .trbBuild → t'.ttValid = t.ttValid) ∧
      (i.op = .trbBuild → ∀ st < 2 ^ t.kreg, ∀ d : Bit, t'.readTable st d = t.readTable st d))

/-- The configuration slot of R39, which every operation but CFG.BUILD may read. -/
structure SameConfig (s s' : State) : Prop where
  n : s'.n = s.n
  kreg : s'.kreg = s.kreg
  taps : s'.taps = s.taps
  cfgValid : s'.cfgValid = s.cfgValid

/-- R151: after a TRB.BUILD the entries are functions of the configuration, whatever the table held before. -/
theorem readTable_of_execTrbBuild {s t : State} (h : execTrbBuild s = .next t) {st : Nat} (hst : st < 2 ^ s.kreg) (d : Bit) :
    t.readTable st d = .ok (tableEntry s.kreg s.taps st d) := by
  obtain ⟨-, rfl⟩ := execTrbBuild_eq_next h
  exact readTable_eq.mpr ⟨isState_iff.mpr hst, read_writeEntries_same _ (.inl (mem_tablePairs.mpr hst))⟩

section
variable {s s' t : State} (hidle' : s'.seq = .idle)
include hidle'

theorem endsAs_cfgBuild {gens : List Int} (hparams : s'.params = s.params) (h : exec (.cfgBuild gens) s = .next t) :
    EndsAs (.cfgBuild gens) s' t := by
  obtain ⟨-, hwf⟩ := refusalOf_cfgBuild.mp (refusalOf_of_andThen_start h)
  rw [← hparams] at hwf
  by_cases hlegal : LegalGenerators gens
  · rw [eq_of_exec_cfgBuild_legal hlegal h]
    exact ⟨_, exec_cfgBuild_of_legal hidle' hlegal hwf, rfl, rfl, fun _ => ⟨rfl, rfl, rfl, rfl, fun _ => rfl, nofun⟩⟩
  · rw [eq_of_exec_cfgBuild_not_legal hlegal h]
    exact ⟨_, exec_cfgBuild_of_not_legal hidle' hlegal hwf, rfl, rfl, nofun⟩

theorem endsAs_trbBuild (hcfg : SameConfig s s') (h : exec .trbBuild s = .next t) : EndsAs .trbBuild s' t := by
  obtain ⟨hvalid, rfl⟩ := execTrbBuild_eq_next h
  have h' := execTrbBuild_of_ready hidle' (hcfg.cfgValid.trans hvalid)
  refine ⟨_, h', rfl, rfl, fun _ =>
    ⟨hcfg.n, hcfg.kreg, hcfg.taps, hcfg.cfgValid, fun _ => rfl, fun _ st hst d => ?_⟩⟩
  rw [readTable_of_execTrbBuild h' (hcfg.kreg ▸ hst), readTable_of_execTrbBuild h hst, hcfg.kreg, hcfg.taps]

/-- R148: the code is a function of the bytes and the configuration. -/
theorem endsAs_encEncode {bytes : List Byte} (hparams : s'.params = s.params) (hcfg : SameConfig s s')
    (h : exec (.encEncode bytes) s = .next t) : EndsAs (.encEncode bytes) s' t := by
  have hready := refusalOf_of_andThen_start h
  obtain ⟨-, hvalid, hwf⟩ := refusalOf_encEncode.mp hready
  obtain rfl := Host.Outcome.next.inj ((execEncEncode_of_ready hready).symm.trans h)
  have hready' := refusalOf_encEncode.mpr ⟨hidle', hcfg.cfgValid.trans hvalid, hparams ▸ hwf⟩
  refine ⟨_, execEncEncode_of_ready hready', rfl, ?_, fun _ => ⟨hcfg.n, hcfg.kreg, hcfg.taps, hcfg.cfgValid, nofun, nofun⟩⟩
  rw [hcfg.kreg, hcfg.taps]
  rfl

/-- R39, R161: the decoding is a function of the bits, the configuration and the table. -/
theorem endsAs_vitDecode {rx : List Bit} (hparams : s'.params = s.params) (hcfg : SameConfig s s')
    (htt : s'.tt = s.tt) (httValid : s'.ttValid = s.ttValid) (h : exec (.vitDecode rx) s = .next t) :
    EndsAs (.vitDecode rx) s' t := by
  have hready := refusalOf_of_andThen_start h
  obtain ⟨-, hvalid, htable, hwf, hwide⟩ := refusalOf_vitDecode.mp hready
  have hready' : s'.refusalOf (.vitDecode rx) = none :=
    refusalOf_vitDecode.mpr ⟨hidle', hcfg.cfgValid.trans hvalid, httValid.trans htable, hparams ▸ hwf,
      by rw [hparams, hcfg.n, hwide]⟩
  obtain ⟨t', h', halike⟩ := answersAlike_execVitDecode ⟨hparams, hcfg.n, hcfg.kreg, htt⟩ hready hready' t h
  obtain ⟨hkeep, hrest⟩ := execVitDecode_frame h
  obtain ⟨hkeep', -⟩ := execVitDecode_frame h'
  obtain ⟨hstatus, hresult⟩ := halike.report hrest.seq
  refine ⟨t', h', hstatus, hresult, fun _ => ⟨halike.n, halike.kreg, ?_, ?_, nofun, nofun⟩⟩
  · rw [hkeep'.taps, hcfg.taps, hkeep.taps]
  · rw [hkeep'.cfgValid, hcfg.cfgValid, hkeep.cfgValid]

end

/-- Settles O59, by the operation: three answer what their operands and the configuration say, and two runs of VIT.DECODE
go through the same phases. -/
theorem operationsAreFunctions : Obligations.OperationsAreFunctions := by
  intro i s s' t hi _ hidle' hparams hcfg htable h
  have hslot (hop : i.op ≠ .cfgBuild) : SameConfig s s' :=
    have ⟨hn, hk, htaps, hvalid⟩ := hcfg hop
    ⟨hn, hk, htaps, hvalid⟩
  cases i <;> simp only [Instr.isHost, Bool.false_eq_true] at hi
  case cfgBuild gens => exact endsAs_cfgBuild hidle' hparams h
  case trbBuild => exact endsAs_trbBuild hidle' (hslot nofun) h
  case encEncode bytes => exact endsAs_encEncode hidle' hparams (hslot nofun) h
  case vitDecode rx =>
    obtain ⟨htt, httValid⟩ := htable rfl
    exact endsAs_vitDecode hidle' hparams (hslot nofun) htt httValid h

end Sys2Proof.Machine
end

section
/-! PROOFS. VIT.DECODE by length (R222): after framing, a decoding whose bits are too few or leave a part of a byte ends in
InvalidLength at VIT.STRIP or VIT.PACK, and every other one completes. -/

namespace Sys2Proof.Machine

/-- R222: InvalidLength is VIT's: of VIT.FRAME, VIT.STRIP and VIT.PACK, alone or within VIT.DECODE. -/
theorem op_of_invalidLength_mem {o : Op} (h : Status.invalidLength ∈ statusesOf o) :
    o = .vitDecode ∨ o = .vitFrame ∨ o = .vitStrip ∨ o = .vitPack := by
  cases o <;> simp_all [statusesOf]

/-- R160 after the loop, R60: with a walk for a winner, VIT.STRIP raises when there are fewer bits than the tail has, and
VIT.PACK when the others are no whole number of bytes. -/
theorem vitFinish_raises {s : State} {c : VitCall} {w : Trail} {us : List Bit} (htable : TableBuilt s)
    (hvit : s.vit = some c) (hw : leastTrail false (trailsAt 0 c.live) = some w) (hpath : w.path = walkPath s.kreg 0 us)
    (hlen : us.length = c.l) (hbad : s.kreg ≤ c.l → (c.l - s.kreg) % 8 ≠ 0) :
    vitFinish s = .next (s.endOperation .invalidLength .nothing) := by
  have hds : (traceOf s.kreg us).length = c.l := by rw [traceOf_length, hlen]
  refine andThen_eq_next.mpr (.inr ⟨_, execVitTerm_of_some hvit hw, by simp, ?_⟩)
  refine andThen_eq_next.mpr (.inr ⟨_, execVitTrace_eq_next.mpr
    ⟨_, w, _, rfl, rfl, tracedBits_of_path htable hpath hlen, rfl⟩, by simp, ?_⟩)
  by_cases hlong : s.kreg ≤ c.l
  · have hpart : ((traceOf s.kreg us).take ((traceOf s.kreg us).length - s.kreg)).length % 8 ≠ 0 := by
      simpa [hlen] using hbad hlong
    refine andThen_eq_next.mpr (.inr ⟨_, execVitStrip_of_le rfl rfl (hds.symm ▸ hlong), by simp, ?_⟩)
    exact andThen_eq_next.mpr (.inl ⟨(packIsMsbFirst.1 _ _ _ rfl rfl).1 hpart, rfl⟩)
  · have hshort : (traceOf s.kreg us).length < s.kreg := by omega
    exact andThen_eq_next.mpr (.inl ⟨(stripDropsTheTail _ _ _ rfl rfl).1 hshort, rfl⟩)

/-- R160, R171: on a ready engine a frame of whole symbols is decoded up to VIT.TERM, where a walk of as many steps as there
are symbols wins. -/
theorem exists_execVitDecode_eq_vitFinish {s : State} {rx : List Bit} (hs : Ready s)
    (hwf : (Instr.vitDecode rx).wf s.params = true) (hsymbols : rx.length % s.n = 0) :
    ∃ c q w us, execVitDecode rx s = vitFinish { s.started (.vitDecode rx) with vit := some c, seq := q } ∧
      c.l = symbols s rx ∧ leastTrail false (trailsAt 0 c.live) = some w ∧ w.path = walkPath s.kreg 0 us ∧
      us.length = symbols s rx := by
  obtain ⟨⟨hcfg, htable, -⟩, hidle, hvalid, hready, hwide⟩ := hs
  obtain ⟨-, htaps, -⟩ := hcfg hvalid
  obtain ⟨-, hbuilt⟩ := htable.2 hready
  have hframe : rx.length = symbols s rx * s.n := (Nat.div_mul_cancel (Nat.dvd_of_mod_eq_zero hsymbols)).symm
  obtain ⟨c, q, hloop, hq, rfl, hl, hlive, hcovers⟩ := exists_vitSymbols (symbols s rx)
    (s := { s.started (.vitDecode rx) with vit := some (VitCall.start s.n rx), seq := vitNext (symbols s rx) 0 })
    (c := VitCall.start s.n rx) hbuilt htaps rfl (vitNext_ne_idle _ _) hframe (Nat.zero_add _)
    (liveInv_initial _ rfl) (covers_initial _ _)
  obtain ⟨w, us, hw, hpath, hlen, -⟩ := LiveInv.exists_nearest hlive hcovers hframe
  have hstart := start_of_ready (refusalOf_vitDecode.mpr ⟨hidle, hvalid, hready, hwf, hwide⟩)
  refine ⟨c, q, w, us, ?_, hl, hw, hpath, hlen⟩
  rw [execVitDecode, hstart, andThen_running (started_ne_idle rfl s),
    execVitFrame_of_whole (s := s.started (.vitDecode c.rx)) hsymbols, andThen_running (by simp),
    execVitInit_eq_next.mpr ⟨_, rfl, rfl⟩, andThen_running (vitNext_ne_idle _ _)]
  exact (congrArg (andThen · vitFinish) hloop).trans (andThen_running hq _)

/-- R222, R59, R60: VIT.DECODE of anything but a whole frame raises InvalidLength on a ready engine. -/
theorem execVitDecode_of_not_whole {s : State} {rx : List Bit} (hs : Ready s)
    (hwf : (Instr.vitDecode rx).wf s.params = true) (hpart : ¬ WholeFrame s rx) :
    execVitDecode rx s = .next (s.endOperation .invalidLength .nothing) := by
  by_cases hsymbols : rx.length % s.n = 0
  · obtain ⟨c, q, w, us, hfinish, hl, hw, hpath, hlen⟩ := exists_execVitDecode_eq_vitFinish hs hwf hsymbols
    obtain ⟨⟨-, htable, -⟩, -, -, hready, -⟩ := hs
    rw [hfinish]
    exact vitFinish_raises (s := { s.started (.vitDecode rx) with vit := some c, seq := q }) (htable.2 hready).2 rfl hw
      hpath (hlen.trans hl.symm) fun hlong hbytes => hpart ⟨hsymbols, hl ▸ hlong, hl ▸ hbytes⟩
  · obtain ⟨-, hidle, hvalid, hready, hwide⟩ := hs
    have hstart := start_of_ready (refusalOf_vitDecode.mpr ⟨hidle, hvalid, hready, hwf, hwide⟩)
    rw [execVitDecode, hstart, andThen_running (started_ne_idle rfl s)]
    have hframe : execVitFrame rx (s.started (.vitDecode rx)) = .next (s.endOperation .invalidLength .nothing) :=
      (frameChecksLength _ rx).1 hsymbols
    rw [hframe, andThen_idle rfl]

/-- R170, R207: the distance between a walk's code and any stream counts at most the code's bits. -/
theorem hamming_walkCode_le {s : State} (htaps : s.taps.length = s.n) (us rx : List Bit) :
    hamming (walkCode s.kreg s.taps 0 us) rx ≤ s.n * us.length :=
  calc hamming (walkCode s.kreg s.taps 0 us) rx ≤ (walkCode s.kreg s.taps 0 us).length := hamming_le_length _ _
    _ = s.n * us.length := by rw [walkCode_length, htaps, Nat.mul_comm]

/-- Settles O48: a frame that is not whole is raised on, a whole one is decoded from a walk of as many steps as symbols, and
InvalidLength is among the statuses of no operation outside VIT. -/
theorem decodeEndsByLength : Obligations.DecodeEndsByLength := by
  refine ⟨fun s rx hs hwf => ⟨execVitDecode_of_not_whole hs hwf, fun hwhole => ?_⟩, fun i s t h hstatus => ?_⟩
  · obtain ⟨us, hlen, -, -, hdecode⟩ := exists_execVitDecode hs hwf hwhole
    obtain ⟨-, htaps, -⟩ := hs.cfg
    refine ⟨_, _, hdecode, ?_, hlen ▸ hamming_walkCode_le htaps us rx⟩
    rw [pack_length, List.length_take, traceOf_length, hlen, Nat.min_eq_left (Nat.sub_le _ _)]
  · obtain hkeep | hnew := reports_of_exec h
    · exact .inl (hkeep.symm.trans hstatus)
    · exact .inr (op_of_invalidLength_mem (hstatus ▸ hnew))

end Sys2Proof.Machine
end

section
/-! PROOFS. Refusals and raises: a host operation whose preconditions fail gets no step (R234), under the name
`State.refusalOf` gives (log 13 to 15), and a raise touches nothing but what R224 lists. -/

namespace Sys2Proof.Machine

/-- R266: every host operation begins with the tests of `start`. -/
theorem exists_exec_host_eq {i : Instr} (hi : i.isHost = true) (s : State) : ∃ f, exec i s = andThen (start i s) f := by
  cases i <;> simp only [Instr.isHost, Bool.false_eq_true] at hi
  case cfgBuild gens => exact ⟨_, rfl⟩
  case trbBuild => exact ⟨_, rfl⟩
  case encEncode bytes => exact ⟨_, rfl⟩
  case vitDecode rx => exact ⟨_, rfl⟩

/-- R234: a refused host operation runs nothing. -/
theorem exec_refused {i : Instr} (hi : i.isHost = true) {s : State} {r : Refusal} (h : s.refusalOf i = some r) :
    exec i s = .refused r := by
  obtain ⟨f, hf⟩ := exists_exec_host_eq hi s
  rw [hf, start_refused h, andThen_refused]

section
variable {s : State} {i : Instr} (hi : i.isHost = true)
include hi

/-- R233, R266 (c), U5: only CFG.BUILD runs away from IDLE, at its own micro-operation. -/
theorem exec_engineBusy (hrun : s.seq ≠ .idle) (hown : s.seq = .cfgBuild → i.op ≠ .cfgBuild) :
    exec i s = .refused .engineBusy := by
  have hbusy : s.mayIssue i = false := by
    cases i with
    | cfgBuild gens =>
      have hcfg : s.seq ≠ .cfgBuild := fun hseq => hown hseq rfl
      simp [State.mayIssue, hrun, hcfg]
    | _ => simp [State.mayIssue, hrun]
  exact exec_refused hi (by simp [State.refusalOf, hi, hbusy])

variable (hidle : s.seq = .idle)
include hidle

/-- The tests of a host operation at IDLE in the model's order: configuration, table, capacity, metric width (log 13). -/
theorem refusalOf_of_idle :
    s.refusalOf i =
      if i.op ≠ .cfgBuild ∧ s.cfgValid = false then some .notConfigured
      else if i.op = .vitDecode ∧ s.ttValid = false then some .tableNotValid
      else if i.wf s.params = false then some .overCapacity
      else if i.op = .vitDecode ∧ s.params.metricFits s.n = false then some .metricTooNarrow
      else none := by
  have hhost : ¬ i.isHost = false := by simp [hi]
  have hmay : ¬ s.mayIssue i = false := by cases i <;> simp [State.mayIssue, hidle]
  unfold State.refusalOf
  rw [if_neg hhost, if_neg hmay]
  cases i <;> simp only [Instr.isHost, Bool.false_eq_true] at hi
  case cfgBuild gens => cases h : (Instr.cfgBuild gens).wf s.params <;> simp [Instr.op]
  case trbBuild => cases h : s.cfgValid <;> simp [Instr.op, Instr.wf]
  case encEncode bytes => cases h : (Instr.encEncode bytes).wf s.params <;> simp [Instr.op]
  case vitDecode rx => cases h : s.params.metricFits s.n <;> simp [Instr.op]

theorem exec_notConfigured (hop : i.op ≠ .cfgBuild) (hcfg : s.cfgValid = false) :
    exec i s = .refused .notConfigured :=
  exec_refused hi (by rw [refusalOf_of_idle hi hidle, if_pos ⟨hop, hcfg⟩])

/-- R9, U6: an operand beyond a capacity is refused once the flags the operation needs are set. -/
theorem exec_overCapacity (hcfg : i.op ≠ .cfgBuild → s.cfgValid = true) (htable : i.op = .vitDecode → s.ttValid = true)
    (hwf : i.wf s.params = false) : exec i s = .refused .overCapacity := by
  have hcfg' : ¬ (i.op ≠ .cfgBuild ∧ s.cfgValid = false) := fun ⟨hop, hno⟩ => by simp [hcfg hop] at hno
  have htable' : ¬ (i.op = .vitDecode ∧ s.ttValid = false) := fun ⟨hop, hno⟩ => by simp [htable hop] at hno
  exact exec_refused hi (by rw [refusalOf_of_idle hi hidle, if_neg hcfg', if_neg htable', if_pos hwf])

end

/-- R10, U11: under a metric register too narrow VIT.DECODE is refused when nothing else is against it. -/
theorem exec_metricTooNarrow {s : State} {rx : List Bit} (hidle : s.seq = .idle) (hcfg : s.cfgValid = true)
    (htable : s.ttValid = true) (hwf : (Instr.vitDecode rx).wf s.params = true)
    (hnarrow : s.params.metricFits s.n = false) : exec (.vitDecode rx) s = .refused .metricTooNarrow :=
  exec_refused rfl (by simp [refusalOf_of_idle (i := .vitDecode rx) rfl hidle, hcfg, htable, hwf, hnarrow, Instr.op])

/-! Beyond a capacity (R9, R81). -/

theorem within_eq_false {cap : Option Nat} {m v : Nat} (hcap : cap = some m) (h : m < v) : within cap v = false := by
  simp [within, hcap, h]

theorem fitsGeneratorPort_eq_false {kMax : Option Nat} {k : Nat} {g : Int} (hcap : kMax = some k)
    (h : (2 ^ (k + 1) : Int) ≤ g) : fitsGeneratorPort kMax g = false := by
  simp [fitsGeneratorPort, hcap, h]

/-- Settles O58, one clause per refusal: its own test fails and those before it hold. -/
theorem violatedPreconditionsRefused : Obligations.ViolatedPreconditionsRefused := by
  refine ⟨fun s hidle hcfg => ⟨?_, fun bytes => ?_, fun rx => ?_⟩, fun s rx hidle hcfg htable => ?_,
    fun s i hi hrun hown => ?_, fun s gens m hidle hcap hlong => ?_, fun s gens k g hidle hcap hg hlarge => ?_,
    fun s bytes m hidle hcfg hcap hlong => ?_, fun s rx m hidle hcfg htable hcap hlong => ?_,
    fun s rx hidle hcfg htable hwf hnarrow => ?_⟩
  · exact exec_notConfigured rfl hidle nofun hcfg
  · exact exec_notConfigured rfl hidle nofun hcfg
  · exact exec_notConfigured rfl hidle nofun hcfg
  · exact exec_vitDecode_tableNotValid hidle hcfg htable rx
  · exact exec_engineBusy hi hrun hown
  · exact exec_overCapacity rfl hidle (fun hop => absurd rfl hop) nofun (by simp [Instr.wf, within_eq_false hcap hlong])
  · have hport : gens.all (fitsGeneratorPort s.params.kMax) = false :=
      List.all_eq_false.mpr ⟨g, hg, by simp [fitsGeneratorPort_eq_false hcap hlarge]⟩
    exact exec_overCapacity rfl hidle (fun hop => absurd rfl hop) nofun (by simp [Instr.wf, hport])
  · exact exec_overCapacity rfl hidle (fun _ => hcfg) nofun (within_eq_false hcap hlong)
  · exact exec_overCapacity rfl hidle (fun _ => hcfg) (fun _ => htable) (within_eq_false hcap hlong)
  · exact exec_metricTooNarrow hidle hcfg htable hwf hnarrow

/-- Settles O55: a raise ends the operation, and an operation's end keeps the persistent state and leaves the engine at
rest. -/
theorem raiseIsLocal : Obligations.RaiseIsLocal := by
  intro e s
  obtain ⟨hparams, hn, hk, htaps, hcfg, htt, htable, hin⟩ := (moves_endOperation s e .nothing).toPersists
  obtain ⟨hseq, henc, hvit, hoperand⟩ := atRest_endOperation s e .nothing
  exact ⟨_, raise_eq e s, endOperation_status s e .nothing, hseq, endOperation_result s e .nothing, henc, hvit, hoperand,
    hn, hk, htaps, hcfg, htt, htable, hparams, hin⟩

end Sys2Proof.Machine
end

section
/-! PROOFS. No step faults from a state with the invariant (R227, R266 (d)): an accepted host operation has a next state,
and a micro-operation at SEQ finds what it reads. -/

namespace Sys2Proof.Machine

/-- R227: the engine owes a result to every accepted operation. -/
theorem exists_exec_of_accepted {i : Instr} {s : State} (hi : i.isHost = true) (hs : EngineInv s) (hidle : s.seq = .idle)
    (hready : s.refusalOf i = none) : ∃ t, exec i s = .next t := by
  cases i <;> simp only [Instr.isHost, Bool.false_eq_true] at hi
  case cfgBuild gens =>
    obtain ⟨-, hwf⟩ := refusalOf_cfgBuild.mp hready
    by_cases hlegal : LegalGenerators gens
    · exact ⟨_, exec_cfgBuild_of_legal hidle hlegal hwf⟩
    · exact ⟨_, exec_cfgBuild_of_not_legal hidle hlegal hwf⟩
  case trbBuild =>
    obtain ⟨-, hvalid⟩ := refusalOf_trbBuild.mp hready
    exact ⟨_, execTrbBuild_of_ready hidle hvalid⟩
  case encEncode bytes => exact ⟨_, execEncEncode_of_ready hready⟩
  case vitDecode rx =>
    obtain ⟨-, hvalid, htable, hwf, hwide⟩ := refusalOf_vitDecode.mp hready
    have hengine : Ready s := ⟨hs, hidle, hvalid, htable, hwide⟩
    by_cases hwhole : WholeFrame s rx
    · obtain ⟨us, -, -, -, hdecode⟩ := exists_execVitDecode hengine hwf hwhole
      exact ⟨_, hdecode⟩
    · exact ⟨_, execVitDecode_of_not_whole hengine hwf hwhole⟩

/-- R227: a host operation at IDLE is refused or has a next state. -/
theorem exec_host_ne_fault {i : Instr} {s : State} (hi : i.isHost = true) (hs : EngineInv s) (hidle : s.seq = .idle)
    (f : Fault) : exec i s ≠ .fault f := by
  cases hready : s.refusalOf i with
  | some r =>
    rw [exec_refused hi hready]
    nofun
  | none =>
    obtain ⟨t, ht⟩ := exists_exec_of_accepted hi hs hidle hready
    rw [ht]
    nofun

/-- Settles O12: at IDLE by the command at the front of the stream, inside an operation by the phase SEQ stands at. -/
theorem stepNeverFaults : Obligations.StepNeverFaults := by
  intro s f hs
  by_cases hidle : s.seq = .idle
  · rw [step_idle hidle, idleStep]
    split
    · nofun
    · rename_i i rest hfetch
      exact exec_host_ne_fault (isHost_of_fetchHost hfetch) (engineInv_hostIn hs rest) hidle f
    · nofun
  · rw [step_running hidle]
    exact (safe_sequencerStep hs hidle).2 f

end Sys2Proof.Machine
end

section
/-! PROOFS. What a step runs: the operation decoded at the command stream or at SEQ; and when it waits. -/

namespace Sys2Proof

/-! A host code word whose counted operand stream is not whole (R262). -/

theorem decodeCounted_nil {α : Type} (item : Int → Option α) : decodeCounted item [] = .error .operandsMissing := rfl

theorem decodeCounted_of_length_lt {α : Type} (item : Int → Option α) {m : Int} {items : List Int}
    (h : (items.length : Int) < m) : decodeCounted item (m :: items) = .error .operandsMissing := by
  have hcount : ¬ m < 0 := by omega
  have hshort : items.length < m.toNat := by omega
  simp [decodeCounted, hcount, hshort]

/-- A host operation with a counted operand stream lacks operands when its counted stream does, whatever the items. -/
theorem decodeHost_operandsMissing {c : Int} {ws : List Int} (hc : c = 0b00 ∨ c = 0b10 ∨ c = 0b11)
    (h : ∀ {α : Type} (item : Int → Option α), decodeCounted item ws = .error .operandsMissing) :
    decodeHost (c :: ws) = .error .operandsMissing := by
  have hcounted {α : Type} (mk : List α → Instr) (item : Int → Option α) :
      withOperand mk (decodeCounted item ws) = .error .operandsMissing := by simp [h, withOperand]
  have hop : ∃ op, opOfWord c = some op ∧ decodeOperands op ws = .error .operandsMissing := by
    obtain rfl | rfl | rfl := hc
    · exact ⟨.cfgBuild, opOfWord_code .cfgBuild, hcounted .cfgBuild generatorItem⟩
    · exact ⟨.encEncode, opOfWord_code .encEncode, hcounted .encEncode byteItem⟩
    · exact ⟨.vitDecode, opOfWord_code .vitDecode, hcounted .vitDecode bitItem⟩
  have hdecode : decode (c :: ws) = .error .operandsMissing := by
    obtain ⟨op, hcode, hmissing⟩ := hop
    simp [decode, hcode, hmissing]
  have hhost : isHostCode c = true := by obtain rfl | rfl | rfl := hc <;> rfl
  simp [decodeHost, hdecode, hhost]

namespace Machine

/-- R262: at IDLE a host code word whose counted operand stream is not whole leaves the engine waiting. -/
theorem step_of_operandsMissing {s : State} {c : Int} {ws : List Int} (hidle : s.seq = .idle) (hin : s.hostIn = c :: ws)
    (hc : c = 0b00 ∨ c = 0b10 ∨ c = 0b11)
    (h : ∀ {α : Type} (item : Int → Option α), decodeCounted item ws = .error .operandsMissing) : step s = .next s :=
  step_waiting hidle (fetchHost_waiting.mpr (.inr (hin ▸ decodeHost_operandsMissing hc h)))

/-- Settles O8: with no words, or with a host code word whose operands are not all there, the fetch waits. -/
theorem engineWaits : Obligations.EngineWaits :=
  ⟨fun _ hidle hin => step_waiting hidle (fetchHost_nil hin),
    fun _ _ hidle hin hc => step_of_operandsMissing hidle hin hc decodeCounted_nil,
    fun _ _ _ _ hidle hin hc hshort =>
      step_of_operandsMissing hidle hin hc fun item => decodeCounted_of_length_lt item hshort⟩

/-- R266: at IDLE a step runs the command at the front of the stream. -/
theorem step_of_fetchHost {s : State} {i : Instr} {rest : List Int} (hidle : s.seq = .idle)
    (h : s.fetchHost = .command i rest) : step s = exec i { s with hostIn := rest } := by
  simp [step_idle hidle, idleStep, h]

/-- Inside an operation a step runs the micro-operation decoded from the words SEQ fetches. -/
theorem step_of_fetchMicro {s : State} {ws rest : List Int} {i : Instr} (hrun : s.seq ≠ .idle)
    (hfetch : s.fetchMicro = .ok ws) (hdec : decode ws = .ok (i, rest)) : step s = afterEntry (exec i s) := by
  simp [step_running hrun, sequencerStep, hfetch, hdec]

/-- Settles O7: inside an operation each outcome of the micro-operation goes through the end of TRB.BUILD. -/
theorem stepRunsDecoded : Obligations.StepRunsDecoded := by
  refine ⟨fun s i rest hidle hdec => step_of_fetchHost hidle (fetchHost_command.mpr hdec),
    fun s ws rest i hrun hfetch hdec => ?_⟩
  rw [step_of_fetchMicro hrun hfetch hdec]
  refine ⟨fun t hexec hmore => ?_, fun t hexec hdone => ?_, fun f hexec => ?_, fun r hexec => ?_⟩
  · simp [hexec, afterEntry_next, hmore]
  · rw [hexec, afterEntry_next, if_pos hdone]
    rfl
  · rw [hexec]
    rfl
  · rw [hexec]
    rfl

end Machine

end Sys2Proof
end
